-- ==== Sys2Proof/Word.lean ====
section
/-! DEFINITION. The word types of the block (00_scope.md R16, R17): bytes, 24-bit addresses, 32-bit command words. -/

namespace Sys2Proof

/-- A byte (R16): every wire transfer is exactly one byte (20_memory.md R86). -/
abbrev Byte := BitVec 8

/-- The 24-bit `ADDR` field of a command word, in both profiles (10_state.md R34). -/
abbrev Addr := BitVec 24

/-- A 32-bit host command word `W` (30_encoding.md R140). -/
abbrev CmdWord := BitVec 32

end Sys2Proof
end

