-- ==== Sys2Proof/Config.lean ====
section
/-! DEFINITION. The configuration of the block and of the reference device model (00_scope.md R8 to R15,
20_memory.md R101), fixed before reset (10_state.md R30), and the free values: opaque constants with no body,
so that no proof can know them. -/

namespace Sys2Proof

/-- The two profiles of the block (00_scope.md R3). -/
inductive Profile where
  | narrow
  | wide
deriving DecidableEq, Repr, Inhabited

/-- What the bus transport answers to one `xfer` (10_state.md R45, R46): a byte, or `XFER_ERR`. -/
inductive Answer where
  | byte (i : Byte)
  | err
deriving DecidableEq, Repr, Inhabited

/-- The type of the RDM's `BUSY_LEFT` (20_memory.md R101): a natural number or ∞. -/
inductive BusyLen where
  | polls (n : Nat)
  | forever
deriving DecidableEq, Repr, Inhabited

/-- The parameters of the block (00_scope.md R8 to R14) and of the RDM (R15; 20_memory.md R100, R101). -/
structure Config where
  /-- `PROFILE` (R8). -/
  profile : Profile
  /-- `SECTOR_SHIFT` (R9). -/
  sectorShift : Nat
  /-- `FILLER` (R10). -/
  filler : Byte
  /-- `POLL_DELAY` (R11), in the source's unnamed time-units. -/
  pollDelay : Nat
  /-- `T_RES` (R11), in microseconds. -/
  tRes : Nat
  /-- `POLL_LIMIT` (R12). -/
  pollLimit : Option Nat
  /-- `POLL_AFTER_ISSUE` (R13). -/
  pollAfterIssue : Bool
  /-- `MAX_LEN` (R14). -/
  maxLen : Nat
  /-- `CS_ID` (R14): no rule depends on its value. -/
  csId : Nat
  /-- Whether the reference device model is attached (20_memory.md R100). -/
  rdmAttached : Bool
  /-- `DEVICE_SIZE` (R15). -/
  deviceSize : Nat
  /-- `PAGE_SIZE` (R15). -/
  pageSize : Nat
  /-- `ERASED_VALUE` (R15). -/
  erasedValue : Byte
  /-- `MFR_ID` (R15; 20_memory.md R114). -/
  mfrId : Byte
  /-- `INIT_SR` (20_memory.md R101). -/
  initSr : Byte
deriving DecidableEq, Repr, Inhabited

/-- `AW`: 16 when `PROFILE = Narrow` and 24 when `PROFILE = Wide` (00_scope.md R8). -/
def Config.aw (cfg : Config) : Nat :=
  match cfg.profile with
  | .narrow => 16
  | .wide => 24

/-- `NA = AW / 8`, the number of address bytes on the wire (00_scope.md R8). -/
def Config.na (cfg : Config) : Nat :=
  match cfg.profile with
  | .narrow => 2
  | .wide => 3

/-- The bounds the spec puts on the parameters: `k ≥ 1` (R12), `MAX_LEN ≥ 1` (R14), `DEVICE_SIZE ≤ 2^AW`
(20_memory.md R80), `PAGE_SIZE` divides `DEVICE_SIZE` (20_memory.md R106). -/
def Config.wf (cfg : Config) : Bool :=
  cfg.pollLimit ≠ some 0 && 1 ≤ cfg.maxLen && 1 ≤ cfg.deviceSize && cfg.deviceSize ≤ 2 ^ cfg.aw
    && 1 ≤ cfg.pageSize && cfg.deviceSize % cfg.pageSize = 0

/-- The configuration of `State.reset`. The spec's defaults where it gives one (R9 to R13, R15); DESIGN CHOICE
for the rest (log 2): the values the test vectors use, the RDM not attached. -/
def Config.initial : Config where
  profile := .wide
  sectorShift := 15
  filler := 0x00#8
  pollDelay := 1
  tRes := 100
  pollLimit := none
  pollAfterIssue := true
  maxLen := 256
  csId := 0
  rdmAttached := false
  deviceSize := 2 ^ 24
  pageSize := 256
  erasedValue := 0xFF#8
  mfrId := 0x29#8
  initSr := 0x00#8

/-- The transport's answer with no device model attached: "its answer is a free draw" (10_state.md R45).
The argument counts the draws taken so far (log 6). -/
opaque Config.freeAnswer : Nat → Answer

/-- `draw`: "any byte, a free input" (20_memory.md R102; log 6). -/
opaque Config.freeByte : Nat → Byte

/-- The length of a write cycle in busy status bytes, "draw in {0, 1, 2, ...} ∪ {∞}" (20_memory.md R104; log 6). -/
opaque Config.freeBusy : Nat → BusyLen

end Sys2Proof
end

