-- ==== Sys2Proof/Machine/State.lean ====
section
/-! DEFINITION. The state of the machine as plain data: the sequencer's registers (10_state.md R31 to R39), the
configuration (R30), the reference device model (20_memory.md R101), what the outside agents are going to do, and the
event trace (00_scope.md R21). The reasons a step can stop, and the state after reset (70_reset_and_hazards.md R330). -/

namespace Sys2Proof.Machine

/-- `SEQ`, the sequencer's top-level state (10_state.md R32). -/
inductive Seq where
  | idle
  | run
deriving DecidableEq, Repr

/-- `WPHASE`, the sequencer's record of the write state machine (10_state.md R38). -/
inductive Wphase where
  | idle
  | writeEnabled
  | writing
deriving DecidableEq, Repr

/-- The exceptions (60_exceptions.md R300). -/
inductive Exn where
  | illegalCommand
  | transportError
  | deviceNotResponding
deriving DecidableEq, Repr

/-- The byte a micro-sequence offers in an `xfer`. -/
inductive Src where
  /-- A byte the pseudocode writes out: an opcode. -/
  | lit (b : Byte)
  /-- `FILLER` (00_scope.md R10). -/
  | filler
  /-- Byte `k` of `ADDR` (42_address_framing.md R220; byte `k` is bits `8k+7:8k`, 00_scope.md R16). -/
  | addrByte (k : Nat)
  /-- Byte `k` of `sector_address(ADDR)` (45_erase_protection.md R262). -/
  | sectorByte (k : Nat)
  /-- `WDATA[k]` (43_write_path.md R234). -/
  | wdata (k : Nat)
  /-- `VAL` (45_erase_protection.md R263). -/
  | val
deriving DecidableEq, Repr

/-- Which of the block's two waits (60_exceptions.md R308). -/
inductive WaitKind where
  | pollDelay
  | tRes
deriving DecidableEq, Repr

/-- The function `f` of a status read-modify-write (45_erase_protection.md R264 to R269). -/
inductive StatusFn where
  /-- `f(s) = (s & 0xF3) | (bp << 2)`. -/
  | protect (bp : BitVec 2)
  /-- `f(s) = s | 0x80`. -/
  | setWpen
  /-- `f(s) = s & 0x7F`. -/
  | clearWpen
deriving DecidableEq, Repr

/-- The bus events of a micro-sequence (00_scope.md R19), with where a received byte goes. -/
inductive BusOp where
  /-- `cs_assert()`. -/
  | csAssert
  /-- `cs_deassert()`; `moves` is the `WPHASE` this `CSH` moves to (10_state.md R38), none for a frame that moves none. -/
  | csDeassert (moves : Option Wphase)
  /-- `xfer(o)`, the received byte discarded. -/
  | send (o : Src)
  /-- `s <- xfer(FILLER)` of `read_status` (41_status_timing.md R200). -/
  | recvStatus
  /-- `RDATA[k] <- xfer(FILLER)` (44_read_path.md R250, R252). -/
  | recvData (k : Nat)
  /-- `wait(d)`. -/
  | wait (d : WaitKind)
deriving DecidableEq, Repr

/-- The internal computation of a micro-sequence (10_state.md R40), which takes no step of its own. -/
inductive Calc where
  /-- `SR_LAST <- s` (41_status_timing.md R200). -/
  | keepStatus
  /-- `RBIT <- s[bit]` (41_status_timing.md R201 to R204). -/
  | takeBit (bit : Nat)
  /-- `VAL <- f(s)` (45_erase_protection.md R263). -/
  | computeVal (f : StatusFn)
  /-- `POLL_CNT <- 0` (41_status_timing.md R205). -/
  | pollStart
  /-- The test of the await loop (41_status_timing.md R205, R206). -/
  | pollTest
deriving DecidableEq, Repr

/-- One item of a micro-sequence. -/
inductive Micro where
  | bus (b : BusOp)
  | compute (c : Calc)
  /-- `raise E`: the abort is the next step (60_exceptions.md R301). -/
  | raise (e : Exn)
deriving DecidableEq, Repr

/-- `UPC` as a continuation (10_state.md R33): what is left of the running command's micro-sequence, its end being
`complete()`, and the pseudocode's local `s`, the status byte received last (⊥ before the first). -/
structure Upc where
  code : List Micro
  s : Option Byte
deriving DecidableEq, Repr

/-- The argument of a `WAIT` event (00_scope.md R19). -/
inductive Duration where
  | pollDelay (units : Nat)
  | tRes (micros : Nat)
deriving DecidableEq, Repr

/-- `resp` of `COMPLETE` (10_state.md R43): `SEQ_STATUS`, `SR_LAST` and `RDATA`, each ⊥ being none. -/
structure Resp where
  seqStatus : Byte
  srLast : Option Byte
  rdata : Option (List (Option Byte))
deriving DecidableEq, Repr

/-- The events of a trace (00_scope.md R19, R21). -/
inductive Event where
  | csl
  | csh
  | xfer (o : Byte) (i : Answer)
  | wait (d : Duration)
  | accept (w : CmdWord) (len : Nat) (data : List Byte)
  | complete (resp : Resp)
deriving DecidableEq, Repr

/-- What a host read asks for (10_state.md R41, R44, register summary). -/
inductive HostReg where
  | seqStatus
  | csN
  | srLast
  | rdataAt (k : Nat)
deriving DecidableEq, Repr

/-- What a host read delivers. -/
inductive HostValue where
  | bit (b : Bool)
  | byte (b : Byte)
deriving DecidableEq, Repr

/-- What the world outside the block does next (log 5). -/
inductive HostAct where
  /-- Hand over `(W, L, D)` (10_state.md R42); the host holds it while `SEQ = RUN`. -/
  | accept (w : CmdWord) (len : Nat) (data : List Byte)
  /-- Read a host-readable register (R41, R44). -/
  | read (r : HostReg)
  /-- Hold until `SEQ = IDLE`. -/
  | awaitDone
  /-- Let the sequencer have `n` turns. -/
  | letRun (n : Nat)
  /-- Apply reset (70_reset_and_hazards.md R330, R332). -/
  | reset
  /-- Cycle the device's power (10_state.md R50, 70_reset_and_hazards.md R333), also inside a frame (log 14). -/
  | devicePowerCycle
deriving DecidableEq, Repr

/-- The inputs: the host's coming acts, the value its last read delivered, the outside draws still scripted, and how
many draws were taken from the free values (log 5, log 6). -/
structure Env where
  acts : List HostAct
  got : Option HostValue
  answers : List Answer
  byteDraws : List Byte
  busyDraws : List BusyLen
  drawCount : Nat
deriving DecidableEq, Repr

/-- The device array: the addresses that hold a byte, strictly rising. An unlisted address holds ⊥
(20_memory.md R101). -/
abbrev Memory := List Host.Cell

/-- The effect a write cycle applies when it ends (20_memory.md R104, R106 to R109). -/
inductive Effect where
  | write (a : Nat) (data : List Byte)
  | writeStatus (v : Byte)
  | eraseSector (a : Nat)
  | erasePage (a : Nat)
  | eraseAll
deriving DecidableEq, Repr

/-- `PENDING`, with `BP1:BP0` as they stood when the cycle started (20_memory.md R104, R111). -/
structure Cycle where
  effect : Effect
  bp : BitVec 2
deriving DecidableEq, Repr

/-- What the RDM has yet to react to: the byte just appended to `FB`, or the `CSH` that ended the frame
(20_memory.md R102, R103; log 4). -/
inductive DevEvent where
  | byte
  | frameEnd
deriving DecidableEq, Repr

/-- The reference device model's state (20_memory.md R101). -/
structure Rdm where
  array : Memory
  bp0 : Bool
  bp1 : Bool
  wpen : Bool
  wel : Bool
  wip : Bool
  busyLeft : BusyLen
  pending : Option Cycle
  dpd : Bool
  fb : List Byte
  event : Option DevEvent
  out : Byte
deriving DecidableEq, Repr

/-- The machine: the registers of 10_state.md R31 to R39 under their own names (⊥ is `none`, log 1), the
configuration, the RDM, the inputs and the trace. -/
structure State where
  /-- `CS_N` (R31): true is 1, deasserted. -/
  csN : Bool
  /-- `SEQ` (R32). -/
  seq : Seq
  /-- `UPC` (R33). -/
  upc : Option Upc
  /-- `OP` (R34). -/
  op : Option (BitVec 5)
  /-- `ADDR` (R34). -/
  addr : Option Addr
  /-- `LEN` (R34). -/
  len : Option Nat
  /-- `WDATA` (R34). -/
  wdata : Option (List Byte)
  /-- `SR_LAST` (R35). -/
  srLast : Option Byte
  /-- `VAL` (R36). -/
  val : Option Byte
  /-- `POLL_CNT` (R37). -/
  pollCnt : Nat
  /-- `WPHASE` (R38). -/
  wphase : Wphase
  /-- `DONE` (R39). -/
  done : Bool
  /-- `ERR` (R39). -/
  err : Bool
  /-- `ERRCODE` (R39). -/
  errcode : BitVec 2
  /-- `RBIT` (R39). -/
  rbit : Bool
  /-- `RDATA` (R39): no list, or a list whose elements may be ⊥. -/
  rdata : Option (List (Option Byte))
  /-- The configuration (R30). -/
  cfg : Config
  /-- The reference device model. -/
  rdm : Rdm
  /-- The inputs. -/
  env : Env
  /-- The event trace, oldest first (00_scope.md R21). -/
  trace : List Event
deriving DecidableEq, Repr

/-- The registers that can hold no value. -/
inductive RegName where
  | upc
  | addr
  | wdata
  | srLast
  | val
  | rdata
  /-- The local `s` of a micro-sequence. -/
  | status
deriving DecidableEq, Repr

/-- Why the machine stops. -/
inductive Fault where
  /-- A read of a register or `RDATA` element that holds no value: "A model faults on such a read" (00_scope.md R18,
  10_state.md R44). Raised by a host read, and by the sequencer only in states no run reaches. Safe: the spec asks
  for it. -/
  | noValue (r : RegName)
deriving DecidableEq, Repr

/-- Why an instruction has no meaning. -/
inductive Refusal where
  /-- An instruction without a meaning, by its mnemonic. Raised by no arm of `exec`: every row has a meaning. Safe. -/
  | notModelled (mnemonic : String)
deriving DecidableEq, Repr

/-- The RDM at power-on (20_memory.md R101). -/
def Rdm.powerOn (cfg : Config) : Rdm where
  array := []
  bp0 := cfg.initSr.getLsbD 2
  bp1 := cfg.initSr.getLsbD 3
  wpen := cfg.initSr.getLsbD 7
  wel := false
  wip := false
  busyLeft := .polls 0
  pending := none
  dpd := false
  fb := []
  event := none
  out := 0#8

/-- The machine right after reset under a configuration (70_reset_and_hazards.md R330, R331), the device at
power-on, no input waiting. -/
def State.resetWith (cfg : Config) : State where
  csN := true
  seq := .idle
  upc := none
  op := none
  addr := none
  len := none
  wdata := none
  srLast := none
  val := none
  pollCnt := 0
  wphase := .idle
  done := false
  err := false
  errcode := 0#2
  rbit := false
  rdata := none
  cfg := cfg
  rdm := Rdm.powerOn cfg
  env := { acts := [], got := none, answers := [], byteDraws := [], busyDraws := [], drawCount := 0 }
  trace := []

/-- The machine right after reset (70_reset_and_hazards.md R330), under the configuration of log 2. -/
def State.reset : State := State.resetWith Config.initial

end Sys2Proof.Machine
end

