-- ==== Sys2Proof/Machine/Operands.lean ====
section
/-! DEFINITION. Operand assembly (30_encoding.md R144): address bytes, the sector address, the byte an `xfer` offers,
and the address the RDM takes from a frame (20_memory.md R113). -/

namespace Sys2Proof.Machine

/-- Byte `k` of an address, `a[8k+7:8k]` (00_scope.md R16). -/
def byteOf (a : Addr) (k : Nat) : Byte := a.extractLsb' (8 * k) 8

/-- The byte indices `send_address` sends, in order (42_address_framing.md R220). -/
def addressOrder (cfg : Config) : List Nat :=
  match cfg.profile with
  | .wide => [2, 1, 0]
  | .narrow => [1, 0]

/-- `sector_address(n) = (n << SECTOR_SHIFT) mod 2^AW` (45_erase_protection.md R262). -/
def sectorAddress (cfg : Config) (n : Addr) : Addr :=
  BitVec.ofNat 24 ((n.toNat <<< cfg.sectorShift) % 2 ^ cfg.aw)

/-- A register's value, a fault where it holds none (00_scope.md R18). -/
def valueOf {α : Type} (r : RegName) : Option α → Except Fault α
  | some v => .ok v
  | none => .error (.noValue r)

/-- The byte an `xfer` offers (30_encoding.md R144). -/
def State.source (s : State) : Src → Except Fault Byte
  | .lit b => .ok b
  | .filler => .ok s.cfg.filler
  | .addrByte k => (valueOf .addr s.addr).map fun a => byteOf a k
  | .sectorByte k => (valueOf .addr s.addr).map fun n => byteOf (sectorAddress s.cfg n) k
  | .wdata k => (valueOf .wdata s.wdata).bind fun l => valueOf .wdata l[k]?
  | .val => valueOf .val s.val

/-- Bytes as one number, the first most significant (20_memory.md R82, R113). -/
def bytesToNat (l : List Byte) : Nat := l.foldl (fun n b => n * 256 + b.toNat) 0

/-- The address of a frame whose bytes after the opcode are `tail`: `(FB[1] : ... : FB[NA]) mod DEVICE_SIZE`
(20_memory.md R113). -/
def frameAddress (cfg : Config) (tail : List Byte) : Nat := bytesToNat (tail.take cfg.na) % cfg.deviceSize

end Sys2Proof.Machine
end

