-- ==== Sys2Proof/Machine/MicroSeq.lean ====
section
/-! DEFINITION. The micro-sequences of 41 to 46, each as the list of its bus events and internal computations. The end of
a list is `complete()`. Loops over `NA` address bytes and `LEN` data bytes are written out, since "the sequencer knows
each frame's length from OP, PROFILE and LEN before it sends byte 0" (30_encoding.md R152); the await loop is unrolled as
the answers come (Sys2Proof/Machine/Sequencer.lean). -/

namespace Sys2Proof.Machine

/-- `xfer(b)` of a literal byte. -/
def sendLit (b : Byte) : Micro := .bus (.send (.lit b))

/-- `cs_assert()`. -/
def assertCs : Micro := .bus .csAssert

/-- `cs_deassert()` of a frame whose `CSH` moves `WPHASE` as given (10_state.md R38). -/
def deassertCs (moves : Option Wphase) : Micro := .bus (.csDeassert moves)

/-- `read_status()` (41_status_timing.md R200). -/
def readStatus : List Micro :=
  [assertCs, sendLit 0x05#8, .bus .recvStatus, .compute .keepStatus, deassertCs none]

/-- One turn of the await loop: a poll and its test (41_status_timing.md R205). -/
def awaitLoop : List Micro := readStatus ++ [.compute .pollTest]

/-- `await_write_complete()` (41_status_timing.md R205). -/
def awaitWriteComplete : List Micro := .compute .pollStart :: awaitLoop

/-- `send_address(ADDR)` (42_address_framing.md R220). -/
def sendAddress (cfg : Config) : List Micro := (addressOrder cfg).map fun k => .bus (.send (.addrByte k))

/-- `send_address(sector_address(ADDR))` (45_erase_protection.md R261, R262). -/
def sendSectorAddress (cfg : Config) : List Micro := (addressOrder cfg).map fun k => .bus (.send (.sectorByte k))

/-- `enable_write()` (43_write_path.md R230). -/
def enableWrite : List Micro := [assertCs, sendLit 0x06#8, deassertCs (some .writeEnabled)]

/-- `begin_write()` (43_write_path.md R231): the frame stays open. -/
def beginWrite : List Micro := awaitWriteComplete ++ enableWrite ++ [assertCs, sendLit 0x02#8]

/-- The await that follows a status write or an erase when `POLL_AFTER_ISSUE` (00_scope.md R13). -/
def awaitIfPolling (cfg : Config) : List Micro := if cfg.pollAfterIssue then awaitWriteComplete else []

/-- `write_status_register(VAL)` (43_write_path.md R236). -/
def writeStatusRegister (cfg : Config) : List Micro :=
  awaitWriteComplete ++ enableWrite
    ++ [assertCs, sendLit 0x01#8, .bus (.send .val), deassertCs (some .writing)]
    ++ awaitIfPolling cfg

/-- `status_rmw(f)` (45_erase_protection.md R263). -/
def statusRmw (cfg : Config) (f : StatusFn) : List Micro :=
  readStatus ++ [.compute (.computeVal f)] ++ writeStatusRegister cfg

/-- The body of an IS_* query of one status bit (41_status_timing.md R201 to R204). -/
def queryBit (bit : Nat) : List Micro := readStatus ++ [.compute (.takeBit bit)]

/-- `for i in 0 .. n-1: xfer(WDATA[i])` (43_write_path.md R234). -/
def sendData (n : Nat) : List Micro := (List.range n).map fun k => .bus (.send (.wdata k))

/-- `for i in 0 .. n-1: RDATA[i] <- xfer(FILLER)` (44_read_path.md R250). -/
def receiveData (n : Nat) : List Micro := (List.range n).map fun k => .bus (.recvData k)

/-- The body of WRITE (43_write_path.md R234). -/
def writeSeq (cfg : Config) (len : Nat) : List Micro :=
  beginWrite ++ sendAddress cfg ++ sendData len ++ [deassertCs (some .writing)] ++ awaitWriteComplete

/-- The body of READ (44_read_path.md R250). -/
def readSeq (cfg : Config) (len : Nat) : List Micro :=
  [assertCs, sendLit 0x03#8] ++ sendAddress cfg ++ receiveData len ++ [deassertCs none]

/-- The body of READ_ID (44_read_path.md R252): three dummy bytes in both profiles. -/
def readIdSeq : List Micro :=
  [assertCs, sendLit 0xAB#8, .bus (.send .filler), .bus (.send .filler), .bus (.send .filler),
    .bus (.recvData 0), deassertCs none]

/-- The body of ERASE_CHIP (45_erase_protection.md R260). -/
def eraseChipSeq (cfg : Config) : List Micro :=
  awaitWriteComplete ++ enableWrite ++ [assertCs, sendLit 0xC7#8, deassertCs (some .writing)] ++ awaitIfPolling cfg

/-- The body of ERASE_SECTOR (45_erase_protection.md R261). -/
def eraseSectorSeq (cfg : Config) : List Micro :=
  awaitWriteComplete ++ enableWrite ++ [assertCs, sendLit 0xD8#8] ++ sendSectorAddress cfg
    ++ [deassertCs (some .writing)] ++ awaitIfPolling cfg

/-- The body of DPD_ENTER (46_power.md R280). -/
def dpdEnterSeq : List Micro := [assertCs, sendLit 0xB9#8, deassertCs none]

/-- The body of DPD_RELEASE (46_power.md R281). -/
def dpdReleaseSeq : List Micro := [assertCs, sendLit 0xAB#8, deassertCs none, .bus (.wait .tRes)]

end Sys2Proof.Machine
end

