-- ==== Sys2Proof/Syntax.lean ====
section
/-! DEFINITION. The instructions: one constructor per row of spec/opcode_table.json. -/

namespace Sys2Proof

/-- The 17 host commands (30_encoding.md R141) and the 11 wire opcodes (R150).

A host command carries all three operands of ACCEPT (`ADDR`, `L`, `D`), because ACCEPT latches them even where
the command ignores them (10_state.md R42, 30_encoding.md R145). A wire instruction carries the bytes of its
frame after the opcode, in transmission order (R151); a frame that was cut short carries fewer. -/
inductive Instr where
  -- host commands, in the order of `OP`
  | write (addr : Addr) (len : Nat) (data : List Byte)
  | read (addr : Addr) (len : Nat) (data : List Byte)
  | readId (addr : Addr) (len : Nat) (data : List Byte)
  | dpdEnter (addr : Addr) (len : Nat) (data : List Byte)
  | dpdRelease (addr : Addr) (len : Nat) (data : List Byte)
  | eraseSector (addr : Addr) (len : Nat) (data : List Byte)
  | eraseChip (addr : Addr) (len : Nat) (data : List Byte)
  | protectNone (addr : Addr) (len : Nat) (data : List Byte)
  | protectUpperQuarter (addr : Addr) (len : Nat) (data : List Byte)
  | protectUpperHalf (addr : Addr) (len : Nat) (data : List Byte)
  | protectAll (addr : Addr) (len : Nat) (data : List Byte)
  | hwProtectEnable (addr : Addr) (len : Nat) (data : List Byte)
  | hwProtectDisable (addr : Addr) (len : Nat) (data : List Byte)
  | isWip (addr : Addr) (len : Nat) (data : List Byte)
  | isWpen (addr : Addr) (len : Nat) (data : List Byte)
  | isBp0 (addr : Addr) (len : Nat) (data : List Byte)
  | isBp1 (addr : Addr) (len : Nat) (data : List Byte)
  -- wire opcodes, in the order of the table
  | wireRead (tail : List Byte)
  | wireWrite (tail : List Byte)
  | wireWriteEnable (tail : List Byte)
  | wireWriteDisable (tail : List Byte)
  | wireReadStatus (tail : List Byte)
  | wireWriteStatus (tail : List Byte)
  | wirePageErase (tail : List Byte)
  | wireSectorErase (tail : List Byte)
  | wireChipErase (tail : List Byte)
  | wireReleaseReadId (tail : List Byte)
  | wireDeepPowerDown (tail : List Byte)
deriving DecidableEq, Repr

end Sys2Proof
end

