-- ==== Sys2Proof/Decode.lean ====
section
/-! DEFINITION. The two decoders of 30_encoding.md, total and rejecting by name, and the encoder. The host port takes
a triple (W, L, D) (R140 to R142); the wire takes a frame, whose byte 0 is the opcode (R150, R151). -/

namespace Sys2Proof

/-- Why a command word or a frame selects no instruction. -/
inductive DecodeError where
  /-- `W[7:5] ≠ 0` (R143, condition 1). -/
  | reservedBits (rsv : BitVec 3)
  /-- `OP` is 0x00 or 0x12 to 0x1F (R143, condition 2). -/
  | reservedOp (op : BitVec 5)
  /-- A frame of no bytes: it has no opcode (20_memory.md R103). -/
  | emptyFrame
  /-- Byte 0 of the frame is outside the opcode set (R150). -/
  | unknownOpcode (b : Byte)
deriving DecidableEq, Repr

/-- The `OP` field, `W[4:0]` (R140). -/
def opField (w : CmdWord) : BitVec 5 := w.extractLsb' 0 5

/-- The `RSV` field, `W[7:5]` (R140). -/
def rsvField (w : CmdWord) : BitVec 3 := w.extractLsb' 5 3

/-- The `ADDR` field, `W[31:8]` (R140). -/
def addrField (w : CmdWord) : Addr := w.extractLsb' 8 24

/-- The command word with the given fields and `RSV = 0` (R140, R146). -/
def hostWord (op : BitVec 5) (addr : Addr) : CmdWord := addr ++ (0#3 ++ op)

/-- Decoding a host command (R141, R142): selected exactly when `RSV = 0` and `OP` is assigned. -/
def decodeHost (w : CmdWord) (len : Nat) (data : List Byte) : Except DecodeError Instr :=
  if rsvField w ≠ 0#3 then .error (.reservedBits (rsvField w))
  else match opField w with
    | 0x01#5 => .ok (.write (addrField w) len data)
    | 0x02#5 => .ok (.read (addrField w) len data)
    | 0x03#5 => .ok (.readId (addrField w) len data)
    | 0x04#5 => .ok (.dpdEnter (addrField w) len data)
    | 0x05#5 => .ok (.dpdRelease (addrField w) len data)
    | 0x06#5 => .ok (.eraseSector (addrField w) len data)
    | 0x07#5 => .ok (.eraseChip (addrField w) len data)
    | 0x08#5 => .ok (.protectNone (addrField w) len data)
    | 0x09#5 => .ok (.protectUpperQuarter (addrField w) len data)
    | 0x0A#5 => .ok (.protectUpperHalf (addrField w) len data)
    | 0x0B#5 => .ok (.protectAll (addrField w) len data)
    | 0x0C#5 => .ok (.hwProtectEnable (addrField w) len data)
    | 0x0D#5 => .ok (.hwProtectDisable (addrField w) len data)
    | 0x0E#5 => .ok (.isWip (addrField w) len data)
    | 0x0F#5 => .ok (.isWpen (addrField w) len data)
    | 0x10#5 => .ok (.isBp0 (addrField w) len data)
    | 0x11#5 => .ok (.isBp1 (addrField w) len data)
    | op => .error (.reservedOp op)

/-- Decoding a wire frame by its byte 0 (R150; "the device learns the opcode from byte 0 alone", R154). -/
def decodeFrame : List Byte → Except DecodeError Instr
  | [] => .error .emptyFrame
  | op :: tail =>
    match op with
    | 0x03#8 => .ok (.wireRead tail)
    | 0x02#8 => .ok (.wireWrite tail)
    | 0x06#8 => .ok (.wireWriteEnable tail)
    | 0x04#8 => .ok (.wireWriteDisable tail)
    | 0x05#8 => .ok (.wireReadStatus tail)
    | 0x01#8 => .ok (.wireWriteStatus tail)
    | 0x42#8 => .ok (.wirePageErase tail)
    | 0xD8#8 => .ok (.wireSectorErase tail)
    | 0xC7#8 => .ok (.wireChipErase tail)
    | 0xAB#8 => .ok (.wireReleaseReadId tail)
    | 0xB9#8 => .ok (.wireDeepPowerDown tail)
    | b => .error (.unknownOpcode b)

/-- What stands on one of the two ports: a host command triple, or the bytes of a frame. -/
inductive Encoded where
  | host (w : CmdWord) (len : Nat) (data : List Byte)
  | frame (bytes : List Byte)
deriving DecidableEq, Repr

/-- The decoder of the port an encoding stands on. -/
def decode : Encoded → Except DecodeError Instr
  | .host w len data => decodeHost w len data
  | .frame bytes => decodeFrame bytes

/-- The encoder (R140, R141, R150, R151). -/
def encode : Instr → Encoded
  | .write addr len data => .host (hostWord 0x01#5 addr) len data
  | .read addr len data => .host (hostWord 0x02#5 addr) len data
  | .readId addr len data => .host (hostWord 0x03#5 addr) len data
  | .dpdEnter addr len data => .host (hostWord 0x04#5 addr) len data
  | .dpdRelease addr len data => .host (hostWord 0x05#5 addr) len data
  | .eraseSector addr len data => .host (hostWord 0x06#5 addr) len data
  | .eraseChip addr len data => .host (hostWord 0x07#5 addr) len data
  | .protectNone addr len data => .host (hostWord 0x08#5 addr) len data
  | .protectUpperQuarter addr len data => .host (hostWord 0x09#5 addr) len data
  | .protectUpperHalf addr len data => .host (hostWord 0x0A#5 addr) len data
  | .protectAll addr len data => .host (hostWord 0x0B#5 addr) len data
  | .hwProtectEnable addr len data => .host (hostWord 0x0C#5 addr) len data
  | .hwProtectDisable addr len data => .host (hostWord 0x0D#5 addr) len data
  | .isWip addr len data => .host (hostWord 0x0E#5 addr) len data
  | .isWpen addr len data => .host (hostWord 0x0F#5 addr) len data
  | .isBp0 addr len data => .host (hostWord 0x10#5 addr) len data
  | .isBp1 addr len data => .host (hostWord 0x11#5 addr) len data
  | .wireRead tail => .frame (0x03#8 :: tail)
  | .wireWrite tail => .frame (0x02#8 :: tail)
  | .wireWriteEnable tail => .frame (0x06#8 :: tail)
  | .wireWriteDisable tail => .frame (0x04#8 :: tail)
  | .wireReadStatus tail => .frame (0x05#8 :: tail)
  | .wireWriteStatus tail => .frame (0x01#8 :: tail)
  | .wirePageErase tail => .frame (0x42#8 :: tail)
  | .wireSectorErase tail => .frame (0xD8#8 :: tail)
  | .wireChipErase tail => .frame (0xC7#8 :: tail)
  | .wireReleaseReadId tail => .frame (0xAB#8 :: tail)
  | .wireDeepPowerDown tail => .frame (0xB9#8 :: tail)

/-- How many operand bytes a whole frame has at least in the `Wide` profile (R151): the zero bytes that stand for
operands the opcode table gives no bits. -/
def frameOperands (op : Byte) : Nat :=
  match op with
  | 0x03#8 => 3
  | 0x02#8 => 3
  | 0x05#8 => 1
  | 0x01#8 => 1
  | 0x42#8 => 3
  | 0xD8#8 => 3
  | _ => 0

/-- The frame whose bytes are the `nbits` bits of `w`, byte 0 the least significant, with zero bytes for the
operands above `nbits`. -/
def tableFrame (nbits w : Nat) : List Byte :=
  let given := (List.range (nbits / 8)).map fun k => BitVec.ofNat 8 (w >>> (8 * k))
  match given with
  | [] => []
  | op :: tail => op :: (tail ++ List.replicate (frameOperands op - tail.length) 0#8)

/-- An instruction read from a table word: the host port's decoder first, with `L = 0` and `D = []`; where it
selects no command, the wire's (log 8: six opcode-table rows of the wire have the bits of a host command). -/
def decodeTableWord (nbits w : Nat) : Option Instr :=
  match decodeHost (BitVec.ofNat 32 w) 0 [] with
  | .ok i => some i
  | .error _ =>
    match decodeFrame (tableFrame nbits w) with
    | .ok i => some i
    | .error _ => none

end Sys2Proof
end

