-- ==== Sys2Proof/Machine/Flags.lean ====
section
/-! DEFINITION. The status bytes and codes: `SEQ_STATUS` (10_state.md R41), the exception codes (60_exceptions.md R300),
the functions of the status read-modify-write (45_erase_protection.md R264 to R269) and the RDM's status byte
(20_memory.md R105). The block has no condition flags (41_status_timing.md). -/

namespace Sys2Proof.Machine

/-- The encoding of `WPHASE` (10_state.md R38): 0b11 is no value's. -/
def Wphase.code : Wphase → BitVec 2
  | .idle => 0b00#2
  | .writeEnabled => 0b01#2
  | .writing => 0b10#2

/-- `ERRCODE` of an exception (60_exceptions.md R300). -/
def Exn.code : Exn → BitVec 2
  | .illegalCommand => 1#2
  | .transportError => 2#2
  | .deviceNotResponding => 3#2

/-- `BUSY` (10_state.md R32). -/
def State.busy (s : State) : Bool := s.seq = .run

/-- The host-visible status word (10_state.md R41): bits 7:6 `WPHASE`, 5 `RBIT`, 4:3 `ERRCODE`, 2 `ERR`, 1 `DONE`,
0 `BUSY`. -/
def State.seqStatus (s : State) : Byte :=
  s.wphase.code ++ BitVec.ofBool s.rbit ++ s.errcode ++ BitVec.ofBool s.err ++ BitVec.ofBool s.done
    ++ BitVec.ofBool s.busy

/-- `f` of a status read-modify-write (45_erase_protection.md R264 to R269). -/
def StatusFn.apply : StatusFn → Byte → Byte
  | .protect bp, s => (s &&& 0xF3#8) ||| ((bp.setWidth 8) <<< 2)
  | .setWpen, s => s ||| 0x80#8
  | .clearWpen, s => s &&& 0x7F#8

/-- `NV.BP1:NV.BP0` (10_state.md R53). -/
def Rdm.bp (d : Rdm) : BitVec 2 := BitVec.ofBool d.bp1 ++ BitVec.ofBool d.bp0

/-- The RDM's status byte, `NV[7] : 0b000 : NV[3] : NV[2] : WEL : WIP` (20_memory.md R104, R105). -/
def Rdm.statusByte (d : Rdm) : Byte :=
  BitVec.ofBool d.wpen ++ 0b000#3 ++ BitVec.ofBool d.bp1 ++ BitVec.ofBool d.bp0 ++ BitVec.ofBool d.wel
    ++ BitVec.ofBool d.wip

/-- The protected addresses of a level (20_memory.md R111). Where `DEVICE_SIZE` is odd the quotient `DEVICE_SIZE/2` is
rounded down: the spec defines no division (00_scope.md R17). DESIGN CHOICE, unsafe for an odd size (log 13). -/
def protectedAt (cfg : Config) (bp : BitVec 2) (x : Nat) : Bool :=
  match bp with
  | 0b00#2 => false
  | 0b01#2 => cfg.deviceSize - cfg.deviceSize / 4 ≤ x
  | 0b10#2 => cfg.deviceSize / 2 ≤ x
  | _ => true

end Sys2Proof.Machine
end

