-- ==== Sys2Proof/Machine/Ops.lean ====
section
/-! DEFINITION. The named operations over registers, the bus and memory; taking an exception (60_exceptions.md R301)
and what ends it (R304); ACCEPT and COMPLETE (10_state.md R42, R43); the free draws (10_state.md R45,
20_memory.md R102, R104). -/

namespace Sys2Proof.Machine

/-! ### Memory: the device array -/

/-- The byte an address holds, none for ⊥ (20_memory.md R101). -/
def Memory.read : Memory → Nat → Option Byte
  | [], _ => none
  | (y, v) :: m, x => if y = x then some v else Memory.read m x

/-- `MemWrite(x, 1, v)` (20_memory.md R101), keeping the addresses strictly rising. -/
def Memory.write : Memory → Nat → Byte → Memory
  | [], x, v => [(x, v)]
  | (y, u) :: m, x, v =>
    if x < y then (x, v) :: (y, u) :: m
    else if x = y then (x, v) :: m
    else (y, u) :: Memory.write m x v

/-- Writes `v` to every address below `n` that `p` selects. -/
def Memory.fill (p : Nat → Bool) (v : Byte) : Nat → Memory → Memory
  | 0, m => m
  | n + 1, m => Memory.fill p v n (if p n then Memory.write m n v else m)

/-- Every address of the list lies above `lo` (when there is one), and they rise strictly. -/
def Memory.risesAbove : Option Nat → Memory → Bool
  | _, [] => true
  | none, (x, _) :: m => Memory.risesAbove (some x) m
  | some lo, (x, _) :: m => lo < x && Memory.risesAbove (some x) m

/-- The canonical form: addresses strictly rising. An unlisted address holds no value, so no entry can equal it. -/
def Memory.wf (m : Memory) : Bool := Memory.risesAbove none m

/-- Every listed address exists: it is below `size` (20_memory.md R80, R101). -/
def Memory.below (size : Nat) (m : Memory) : Bool := m.all fun c => c.1 < size

/-! ### Registers -/

/-- Records an event (00_scope.md R21). -/
def State.record (s : State) (e : Event) : State := { s with trace := s.trace ++ [e] }

/-- `UPC` to the point before `code` (10_state.md R40), its local `s` kept. -/
def State.goTo (s : State) (code : List Micro) : State :=
  { s with upc := some { code := code, s := s.upc.bind Upc.s } }

/-- The pseudocode's local `s <- b` (41_status_timing.md R200). -/
def State.setLocal (s : State) (b : Byte) : State :=
  { s with upc := s.upc.map fun u => { u with s := some b } }

/-- The pseudocode's local `s`. -/
def State.localStatus (s : State) : Except Fault Byte := valueOf .status (s.upc.bind Upc.s)

/-- `SR_LAST <- b` (10_state.md R35). -/
def State.setSrLast (s : State) (b : Byte) : State := { s with srLast := some b }

/-- `VAL <- b` (10_state.md R36). -/
def State.setVal (s : State) (b : Byte) : State := { s with val := some b }

/-- `RBIT <- b` (10_state.md R39). -/
def State.setRbit (s : State) (b : Bool) : State := { s with rbit := b }

/-- `POLL_CNT <- n` (10_state.md R37). -/
def State.setPollCnt (s : State) (n : Nat) : State := { s with pollCnt := n }

/-- `WPHASE <- w` (10_state.md R38). -/
def State.setWphase (s : State) (w : Wphase) : State := { s with wphase := w }

/-- `RDATA[k] <- b` (44_read_path.md R250, R252). -/
def State.setRdataAt (s : State) (k : Nat) (b : Byte) : State :=
  { s with rdata := s.rdata.map fun l => l.set k (some b) }

/-- `CS_N <- b` (10_state.md R31). -/
def State.setCsN (s : State) (b : Bool) : State := { s with csN := b }

/-- The RDM changed to `d`. -/
def State.setRdm (s : State) (d : Rdm) : State := { s with rdm := d }

/-- The host's coming acts become `l`. -/
def State.setActs (s : State) (l : List HostAct) : State := { s with env := { s.env with acts := l } }

/-- A host read delivers `v` (10_state.md R41, R44). -/
def State.deliver (s : State) (v : HostValue) : State := { s with env := { s.env with got := some v } }

/-! ### Free draws -/

/-- The transport's answer when no device model is attached (10_state.md R45): the next scripted answer, else the next
free value. -/
def State.drawAnswer (s : State) : Answer × State :=
  match s.env.answers with
  | a :: l => (a, { s with env := { s.env with answers := l } })
  | [] => (Config.freeAnswer s.env.drawCount, { s with env := { s.env with drawCount := s.env.drawCount + 1 } })

/-- The RDM's `draw`, any byte (20_memory.md R102). -/
def State.drawByte (s : State) : Byte × State :=
  match s.env.byteDraws with
  | b :: l => (b, { s with env := { s.env with byteDraws := l } })
  | [] => (Config.freeByte s.env.drawCount, { s with env := { s.env with drawCount := s.env.drawCount + 1 } })

/-- The length of a write cycle (20_memory.md R104). -/
def State.drawBusy (s : State) : BusyLen × State :=
  match s.env.busyDraws with
  | b :: l => (b, { s with env := { s.env with busyDraws := l } })
  | [] => (Config.freeBusy s.env.drawCount, { s with env := { s.env with drawCount := s.env.drawCount + 1 } })

/-! ### What the RDM sees of the wire (20_memory.md R100, R102, R103) -/

/-- On `CSL` the RDM sets `FB <- []` (20_memory.md R102). -/
def State.deviceSelect (s : State) : State :=
  if s.cfg.rdmAttached then s.setRdm { s.rdm with fb := [] } else s

/-- On `xfer(o)` the RDM appends `o` to `FB` and owes an answer (20_memory.md R102). -/
def State.deviceByte (s : State) (o : Byte) : State :=
  s.setRdm { s.rdm with fb := s.rdm.fb ++ [o], event := some .byte }

/-- On `CSH` the RDM has a frame to act on (20_memory.md R103). -/
def State.deviceDeselect (s : State) : State :=
  if s.cfg.rdmAttached then s.setRdm { s.rdm with event := some .frameEnd } else s

/-! ### Bus primitives (00_scope.md R19) -/

/-- `cs_assert()`. -/
def State.csAssert (s : State) : State := ((s.setCsN false).record .csl).deviceSelect

/-- `cs_deassert()`. -/
def State.csDeassert (s : State) : State := ((s.setCsN true).record .csh).deviceDeselect

/-- The duration a `WAIT` records (00_scope.md R11, R19). -/
def Config.duration (cfg : Config) : WaitKind → Duration
  | .pollDelay => .pollDelay cfg.pollDelay
  | .tRes => .tRes cfg.tRes

/-- `wait(d)`: an event that changes no register (00_scope.md R19). -/
def State.wait (s : State) (d : WaitKind) : State := s.record (.wait (Config.duration s.cfg d))

/-! ### Ending a command -/

/-- `resp` of `COMPLETE` (10_state.md R43). -/
def State.resp (s : State) : Resp := { seqStatus := s.seqStatus, srLast := s.srLast, rdata := s.rdata }

/-- The end common to `complete()` and the exceptions: `SEQ <- IDLE; DONE <- 1; record COMPLETE(resp)`
(10_state.md R43, 60_exceptions.md R301). -/
def State.finish (s : State) : State :=
  let t := { s with seq := .idle, done := true }
  t.record (.complete t.resp)

/-- `complete()` (10_state.md R43). -/
def State.complete (s : State) : State := s.finish

/-- TAKING AN EXCEPTION: `ERR <- 1; ERRCODE <- code`, then the end of the command (60_exceptions.md R300, R301;
10_state.md R42 for ILLEGAL_COMMAND). -/
def State.takeException (s : State) (e : Exn) : State := { s with err := true, errcode := e.code }.finish

/-- The abort (60_exceptions.md R301): an open frame is closed first, then the exception is taken. -/
def State.abort (s : State) (e : Exn) : State :=
  if s.csN then s.takeException e else s.csDeassert.takeException e

/-! ### ACCEPT (10_state.md R42) -/

/-- The latching part of ACCEPT. Clearing `DONE`, `ERR` and `ERRCODE` here is all the return from an exception there
is (60_exceptions.md R304). -/
def State.latch (s : State) (w : CmdWord) (len : Nat) (data : List Byte) : State :=
  { s.record (.accept w len data) with
    op := some (opField w), addr := some (addrField w), len := some len, wdata := some data,
    done := false, err := false, errcode := 0#2, rbit := false }

/-- The refusal of an illegal command: `RDATA <- []`, then ILLEGAL_COMMAND, with no bus event (10_state.md R42). -/
def State.refuse (s : State) : State := { s with rdata := some [] }.takeException .illegalCommand

/-- The start of a legal command's micro-sequence (10_state.md R42). -/
def State.start (s : State) (rdata : List (Option Byte)) (code : List Micro) : State :=
  { s with rdata := some rdata, pollCnt := 0, seq := .run, upc := some { code := code, s := none } }

/-- ACCEPT(W, L, D) of a command whose operands are legal or not (10_state.md R42). While `SEQ = RUN` the step does
not exist: the host holds, and nothing changes. -/
def accept (w : CmdWord) (len : Nat) (data : List Byte) (legal : Bool) (rdata : List (Option Byte))
    (code : List Micro) (s : State) : State :=
  match s.seq with
  | .run => s
  | .idle => if legal then (s.latch w len data).start rdata code else (s.latch w len data).refuse

/-! ### Reset (70_reset_and_hazards.md R330, R332) -/

/-- Reset applied to a machine in any state: an open frame's `CSH` is recorded, every register takes its reset value, no
`COMPLETE`; the configuration stays, and the device and the inputs go on. -/
def State.applyReset (s : State) : State :=
  let t := if s.csN then s else s.csDeassert
  { State.resetWith t.cfg with rdm := t.rdm, env := t.env, trace := t.trace }

end Sys2Proof.Machine
end

