-- ==== Sys2Proof/Machine/Sequencer.lean ====
section
/-! DEFINITION. One step of the sequencer (10_state.md R40): internal computation up to the next bus event, that event,
and `UPC` to the point after it; or `complete()`, or an abort. -/

namespace Sys2Proof.Machine

/-- The three outcomes of a step of this machine. -/
abbrev Out := Host.Outcome State Fault Refusal

/-- What a step performs once internal computation is done (10_state.md R40). -/
inductive Action where
  | event (b : BusOp) (rest : List Micro)
  | complete
  | raise (e : Exn)
deriving DecidableEq, Repr

/-- `POLL_LIMIT = some k and POLL_CNT >= k` (41_status_timing.md R205). -/
def State.limitReached (s : State) : Bool :=
  match s.cfg.pollLimit with
  | none => false
  | some k => k ≤ s.pollCnt

/-- Runs a micro-sequence through its internal computation to the next action (10_state.md R40; the await's test,
41_status_timing.md R205, R206). -/
def nextAction : List Micro → State → Except Fault (State × Action)
  | [], s => .ok (s, .complete)
  | .bus b :: rest, s => .ok (s, .event b rest)
  | .raise e :: _, s => .ok (s, .raise e)
  | .compute .keepStatus :: rest, s => s.localStatus.bind fun b => nextAction rest (s.setSrLast b)
  | .compute (.takeBit k) :: rest, s => s.localStatus.bind fun b => nextAction rest (s.setRbit (b.getLsbD k))
  | .compute (.computeVal f) :: rest, s => s.localStatus.bind fun b => nextAction rest (s.setVal (f.apply b))
  | .compute .pollStart :: rest, s => nextAction rest (s.setPollCnt 0)
  | .compute .pollTest :: rest, s => s.localStatus.bind fun b =>
    if b.getLsbD 0 then
      let t := s.setPollCnt (s.pollCnt + 1)
      if t.limitReached then .ok (t, .raise .deviceNotResponding)
      else .ok (t, .event (.wait .pollDelay) (awaitLoop ++ rest))
    else nextAction rest (s.setWphase .idle)

/-- `xfer(o)`: the exchange with the transport (10_state.md R45). With the RDM attached, it reacts to the byte (`react`)
and its answer is the transport's; else the answer is a free draw. -/
def exchange (react : State → Out) (o : Byte) (s : State) (received : Answer → State → State) : Out :=
  if s.cfg.rdmAttached then
    match react (s.deviceByte o) with
    | .next t => .next (received (.byte t.rdm.out) (t.record (.xfer o (.byte t.rdm.out))))
    | .fault f => .fault f
    | .refused r => .refused r
  else .next (received s.drawAnswer.1 (s.drawAnswer.2.record (.xfer o s.drawAnswer.1)))

/-- After an exchange: a transport error raises TRANSPORT_ERROR at once, the abort being the next step
(10_state.md R46, 60_exceptions.md R301); a byte is kept as `keep` says. -/
def afterXfer (rest : List Micro) (keep : Byte → State → State) (a : Answer) (s : State) : State :=
  match a with
  | .byte i => (keep i s).goTo rest
  | .err => s.goTo [.raise .transportError]

/-- Performs a bus event, `rest` being what follows it (00_scope.md R19; 10_state.md R38 for the `CSH`). -/
def performEvent (react : State → Out) (b : BusOp) (rest : List Micro) (s : State) : Out :=
  match b with
  | .csAssert => .next (s.csAssert.goTo rest)
  | .csDeassert none => .next (s.csDeassert.goTo rest)
  | .csDeassert (some w) => .next ((s.csDeassert.setWphase w).goTo rest)
  | .send src =>
    match s.source src with
    | .ok o => exchange react o s (afterXfer rest fun _ t => t)
    | .error f => .fault f
  | .recvStatus => exchange react s.cfg.filler s (afterXfer rest fun i t => t.setLocal i)
  | .recvData k => exchange react s.cfg.filler s (afterXfer rest fun i t => t.setRdataAt k i)
  | .wait d => .next ((s.wait d).goTo rest)

/-- Performs an action. -/
def perform (react : State → Out) (a : Action) (s : State) : Out :=
  match a with
  | .event b rest => performEvent react b rest s
  | .complete => .next s.complete
  | .raise e => .next (s.abort e)

/-- One step of the running sequencer (10_state.md R40). -/
def seqStep (react : State → Out) (s : State) : Out :=
  match s.upc with
  | none => .fault (.noValue .upc)
  | some u =>
    match nextAction u.code s with
    | .ok (t, a) => perform react a t
    | .error f => .fault f

end Sys2Proof.Machine
end

