-- ==== Sys2Proof/WellFormed.lean ====
section
/-! DEFINITION. Which instructions are well formed: for a host command, conditions 3 and 4 of
30_encoding.md R143 (conditions 1 and 2 concern words that decode to no command); for a wire instruction, that its
frame is a whole frame of its format (R151). -/

namespace Sys2Proof

/-- Whole, legal instructions under a configuration (30_encoding.md R143, R151). -/
def Instr.wellFormed (cfg : Config) : Instr → Bool
  | .write _ len data => len ≤ cfg.maxLen && data.length = len
  | .read _ len _ => len ≤ cfg.maxLen
  | .readId _ _ _ => true
  | .dpdEnter _ _ _ => true
  | .dpdRelease _ _ _ => true
  | .eraseSector _ _ _ => true
  | .eraseChip _ _ _ => true
  | .protectNone _ _ _ => true
  | .protectUpperQuarter _ _ _ => true
  | .protectUpperHalf _ _ _ => true
  | .protectAll _ _ _ => true
  | .hwProtectEnable _ _ _ => true
  | .hwProtectDisable _ _ _ => true
  | .isWip _ _ _ => true
  | .isWpen _ _ _ => true
  | .isBp0 _ _ _ => true
  | .isBp1 _ _ _ => true
  | .wireRead tail => cfg.na ≤ tail.length            -- F5
  | .wireWrite tail => cfg.na ≤ tail.length           -- F4
  | .wireWriteEnable tail => tail.length = 0          -- F0
  | .wireWriteDisable tail => tail.length = 0         -- F0
  | .wireReadStatus tail => tail.length = 1           -- F2
  | .wireWriteStatus tail => tail.length = 1          -- F1
  | .wirePageErase tail => tail.length = cfg.na       -- F3
  | .wireSectorErase tail => tail.length = cfg.na     -- F3
  | .wireChipErase tail => tail.length = 0            -- F0
  | .wireReleaseReadId tail => tail.length = 0 || tail.length = 4  -- F0 or F6
  | .wireDeepPowerDown tail => tail.length = 0        -- F0

end Sys2Proof
end

