-- ==== Sys2Proof/Machine/EraseProtect.lean ====
section
/-! DEFINITION. Erase and protection (45_erase_protection.md R260 to R269): ACCEPT (10_state.md R42), which starts the micro-sequence. -/

namespace Sys2Proof.Machine

/-- ERASE_SECTOR (45_erase_protection.md R261). -/
def execEraseSector (addr : Addr) (len : Nat) (data : List Byte) (s : State) : Out :=
  .next (accept (hostWord 0x06#5 addr) len data ((Instr.eraseSector addr len data).wellFormed s.cfg)
    [] (eraseSectorSeq s.cfg) s)

/-- ERASE_CHIP (45_erase_protection.md R260). -/
def execEraseChip (addr : Addr) (len : Nat) (data : List Byte) (s : State) : Out :=
  .next (accept (hostWord 0x07#5 addr) len data ((Instr.eraseChip addr len data).wellFormed s.cfg)
    [] (eraseChipSeq s.cfg) s)

/-- PROTECT_NONE (45_erase_protection.md R264): `BP1:BP0 <- 00`. -/
def execProtectNone (addr : Addr) (len : Nat) (data : List Byte) (s : State) : Out :=
  .next (accept (hostWord 0x08#5 addr) len data ((Instr.protectNone addr len data).wellFormed s.cfg)
    [] (statusRmw s.cfg (.protect 0b00#2)) s)

/-- PROTECT_UPPER_QUARTER (45_erase_protection.md R265): `BP1:BP0 <- 01`. -/
def execProtectUpperQuarter (addr : Addr) (len : Nat) (data : List Byte) (s : State) : Out :=
  .next (accept (hostWord 0x09#5 addr) len data ((Instr.protectUpperQuarter addr len data).wellFormed s.cfg)
    [] (statusRmw s.cfg (.protect 0b01#2)) s)

/-- PROTECT_UPPER_HALF (45_erase_protection.md R266): `BP1:BP0 <- 10`. -/
def execProtectUpperHalf (addr : Addr) (len : Nat) (data : List Byte) (s : State) : Out :=
  .next (accept (hostWord 0x0A#5 addr) len data ((Instr.protectUpperHalf addr len data).wellFormed s.cfg)
    [] (statusRmw s.cfg (.protect 0b10#2)) s)

/-- PROTECT_ALL (45_erase_protection.md R267): `BP1:BP0 <- 11`. -/
def execProtectAll (addr : Addr) (len : Nat) (data : List Byte) (s : State) : Out :=
  .next (accept (hostWord 0x0B#5 addr) len data ((Instr.protectAll addr len data).wellFormed s.cfg)
    [] (statusRmw s.cfg (.protect 0b11#2)) s)

/-- HW_PROTECT_ENABLE (45_erase_protection.md R268): `WPEN <- 1`. -/
def execHwProtectEnable (addr : Addr) (len : Nat) (data : List Byte) (s : State) : Out :=
  .next (accept (hostWord 0x0C#5 addr) len data ((Instr.hwProtectEnable addr len data).wellFormed s.cfg)
    [] (statusRmw s.cfg .setWpen) s)

/-- HW_PROTECT_DISABLE (45_erase_protection.md R269): `WPEN <- 0`. -/
def execHwProtectDisable (addr : Addr) (len : Nat) (data : List Byte) (s : State) : Out :=
  .next (accept (hostWord 0x0D#5 addr) len data ((Instr.hwProtectDisable addr len data).wellFormed s.cfg)
    [] (statusRmw s.cfg .clearWpen) s)

end Sys2Proof.Machine
end

