-- ==== Sys2Proof/Machine/Power.lean ====
section
/-! DEFINITION. Power management (46_power.md R280, R281): ACCEPT (10_state.md R42), which starts the micro-sequence. -/

namespace Sys2Proof.Machine

/-- DPD_ENTER (46_power.md R280). -/
def execDpdEnter (addr : Addr) (len : Nat) (data : List Byte) (s : State) : Out :=
  .next (accept (hostWord 0x04#5 addr) len data ((Instr.dpdEnter addr len data).wellFormed s.cfg)
    [] dpdEnterSeq s)

/-- DPD_RELEASE (46_power.md R281). -/
def execDpdRelease (addr : Addr) (len : Nat) (data : List Byte) (s : State) : Out :=
  .next (accept (hostWord 0x05#5 addr) len data ((Instr.dpdRelease addr len data).wellFormed s.cfg)
    [] dpdReleaseSeq s)

end Sys2Proof.Machine
end

