-- ==== Sys2Proof/Machine/ReadPath.lean ====
section
/-! DEFINITION. The read path's host commands (44_read_path.md R250, R252): ACCEPT (10_state.md R42), which starts the micro-sequence with `RDATA` all ⊥. -/

namespace Sys2Proof.Machine

/-- READ (44_read_path.md R250). -/
def execRead (addr : Addr) (len : Nat) (data : List Byte) (s : State) : Out :=
  .next (accept (hostWord 0x02#5 addr) len data ((Instr.read addr len data).wellFormed s.cfg)
    (List.replicate len none) (readSeq s.cfg len) s)

/-- READ_ID (44_read_path.md R252). -/
def execReadId (addr : Addr) (len : Nat) (data : List Byte) (s : State) : Out :=
  .next (accept (hostWord 0x03#5 addr) len data ((Instr.readId addr len data).wellFormed s.cfg)
    [none] readIdSeq s)

end Sys2Proof.Machine
end

