-- ==== Sys2Proof/Machine/Status.lean ====
section
/-! DEFINITION. The status queries (41_status_timing.md R201 to R204): ACCEPT of the command (10_state.md R42), which starts its micro-sequence. -/

namespace Sys2Proof.Machine

/-- IS_WIP (41_status_timing.md R201): `RBIT <- s[0]`. -/
def execIsWip (addr : Addr) (len : Nat) (data : List Byte) (s : State) : Out :=
  .next (accept (hostWord 0x0E#5 addr) len data ((Instr.isWip addr len data).wellFormed s.cfg)
    [] (queryBit 0) s)

/-- IS_WPEN (41_status_timing.md R202): `RBIT <- s[7]`. -/
def execIsWpen (addr : Addr) (len : Nat) (data : List Byte) (s : State) : Out :=
  .next (accept (hostWord 0x0F#5 addr) len data ((Instr.isWpen addr len data).wellFormed s.cfg)
    [] (queryBit 7) s)

/-- IS_BP0 (41_status_timing.md R203): `RBIT <- s[2]`. -/
def execIsBp0 (addr : Addr) (len : Nat) (data : List Byte) (s : State) : Out :=
  .next (accept (hostWord 0x10#5 addr) len data ((Instr.isBp0 addr len data).wellFormed s.cfg)
    [] (queryBit 2) s)

/-- IS_BP1 (41_status_timing.md R204): `RBIT <- s[3]`. -/
def execIsBp1 (addr : Addr) (len : Nat) (data : List Byte) (s : State) : Out :=
  .next (accept (hostWord 0x11#5 addr) len data ((Instr.isBp1 addr len data).wellFormed s.cfg)
    [] (queryBit 3) s)

end Sys2Proof.Machine
end

