-- ==== Sys2Proof/Machine/Device.lean ====
section
/-! DEFINITION. The reference device model's operations (20_memory.md R100 to R115): its write cycle, the effects a cycle
applies, its answers and its reactions. Each wire instruction's own part is in Sys2Proof/Machine/Wire.lean. -/

namespace Sys2Proof.Machine

/-! ### Effects of a write cycle -/

/-- The address byte `i` of a data write at `a` goes to: it wraps in the page (20_memory.md R106). -/
def pageAddress (cfg : Config) (a i : Nat) : Nat :=
  a - a % cfg.pageSize + (a % cfg.pageSize + i) % cfg.pageSize

/-- `MemWrite(x, 1, v)` for an `x` that exists and is not protected (20_memory.md R101, R106, R109). -/
def writeUnprotected (cfg : Config) (bp : BitVec 2) (m : Memory) (x : Nat) (v : Byte) : Memory :=
  if x < cfg.deviceSize && !protectedAt cfg bp x then Memory.write m x v else m

/-- `write(a, data)` from byte index `i` on: "in order; a later i overwrites an earlier one" (20_memory.md R106). -/
def writePage (cfg : Config) (bp : BitVec 2) (a : Nat) : Nat → List Byte → Memory → Memory
  | _, [], m => m
  | i, v :: data, m => writePage cfg bp a (i + 1) data (writeUnprotected cfg bp m (pageAddress cfg a i) v)

/-- `ERASED_VALUE` at every existing, unprotected address of a range (20_memory.md R109). -/
def eraseWhere (cfg : Config) (bp : BitVec 2) (p : Nat → Bool) (m : Memory) : Memory :=
  Memory.fill (fun x => p x && !protectedAt cfg bp x) cfg.erasedValue cfg.deviceSize m

/-- The array after an effect (20_memory.md R106, R109). -/
def Effect.onArray (cfg : Config) (bp : BitVec 2) (m : Memory) : Effect → Memory
  | .write a data => writePage cfg bp a 0 data m
  | .writeStatus _ => m
  | .eraseSector a => eraseWhere cfg bp (fun x => x >>> cfg.sectorShift = a >>> cfg.sectorShift) m
  | .erasePage a => eraseWhere cfg bp (fun x => x - x % cfg.pageSize = a - a % cfg.pageSize) m
  | .eraseAll => eraseWhere cfg bp (fun _ => true) m

/-- The RDM after an effect: the array, or for a status write `NV`, bits 1:0 and 6:4 of the value ignored
(20_memory.md R107). -/
def Effect.apply (cfg : Config) (bp : BitVec 2) (d : Rdm) : Effect → Rdm
  | .writeStatus v => { d with bp0 := v.getLsbD 2, bp1 := v.getLsbD 3, wpen := v.getLsbD 7 }
  | e => { d with array := e.onArray cfg bp d.array }

/-- `apply PENDING; PENDING <- none; WIP <- 0; WEL <- 0` (20_memory.md R104). -/
def Rdm.endCycle (cfg : Config) (d : Rdm) : Rdm :=
  let t := match d.pending with
    | some c => c.effect.apply cfg c.bp d
    | none => d
  { t with pending := none, wip := false, wel := false }

/-- The state change of `status_byte()` (20_memory.md R104). -/
def Rdm.poll (cfg : Config) (d : Rdm) : Rdm :=
  if d.wip then
    match d.busyLeft with
    | .polls 0 => d.endCycle cfg
    | .polls (n + 1) => { d with busyLeft := .polls n }
    | .forever => d
  else d

/-- `start_cycle(e)` (20_memory.md R104), the level judged now (R111). -/
def State.startCycle (s : State) (e : Effect) : State :=
  let (b, t) := s.drawBusy
  t.setRdm { t.rdm with wip := true, pending := some { effect := e, bp := t.rdm.bp }, busyLeft := b }

/-! ### Answers -/

/-- The RDM drives `b`. -/
def State.drive (s : State) (b : Byte) : State := s.setRdm { s.rdm with out := b }

/-- `return draw` (20_memory.md R102). -/
def State.driveDraw (s : State) : State :=
  let (b, t) := s.drawByte
  t.drive b

/-- `return status_byte()` (20_memory.md R102, R104). -/
def State.driveStatus (s : State) : State :=
  let d := s.rdm.poll s.cfg
  (s.setRdm d).drive d.statusByte

/-- `return ARRAY[x] if ARRAY[x] != ⊥ else draw` (20_memory.md R102). -/
def State.driveCell (s : State) (x : Nat) : State :=
  match s.rdm.array.read x with
  | some b => s.drive b
  | none => s.driveDraw

/-! ### Reacting -/

/-- The event has been reacted to. -/
def State.clearEvent (s : State) : State := s.setRdm { s.rdm with event := none }

/-- The RDM's reaction to the byte at index `j` of a frame (20_memory.md R102): in deep power-down all opcodes but 0xAB
answer a draw, and so does the opcode byte; else the opcode's own answer. -/
def State.answerByte (s : State) (wakes : Bool) (j : Nat) (answer : State → State) : State :=
  if (s.rdm.dpd && !wakes) || j = 0 then s.driveDraw else answer s

/-- The RDM's reaction to the `CSH` that ends a frame (20_memory.md R103): in deep power-down only 0xAB acts, and it
wakes; while busy nothing acts; else the opcode's own act. -/
def State.endFrame (s : State) (wakes : Bool) (act : State → State) : State :=
  if s.rdm.dpd then (if wakes then s.setRdm { s.rdm with dpd := false } else s)
  else if s.rdm.wip then s
  else act s

/-- The RDM's reaction to what it has not reacted to yet (20_memory.md R102, R103): `wakes` for opcode 0xAB, `j` the index
of the frame's last byte. With nothing to react to, nothing happens. -/
def State.react (s : State) (wakes : Bool) (j : Nat) (answer act : State → State) : State :=
  match s.rdm.event with
  | none => s
  | some .byte => (s.answerByte wakes j answer).clearEvent
  | some .frameEnd => (s.endFrame wakes act).clearEvent

/-- A frame that selects no instruction (R102 "otherwise: return draw", R103 "any other byte: nothing"; an empty frame is
ignored). -/
def State.reactUnknown (s : State) : State := s.react false (s.rdm.fb.length - 1) State.driveDraw id

end Sys2Proof.Machine
end

