-- ==== Sys2Proof/Machine/Wire.lean ====
section
/-! DEFINITION. The wire opcodes (30_encoding.md R150), as the device that receives them runs them: what the reference
device model answers to the last byte of the frame so far (20_memory.md R102), or what it does at the frame's `CSH`
(R103). `tail` is the frame's bytes after the opcode, so the last byte's index in the frame is `tail.length`. -/

namespace Sys2Proof.Machine

/-- `if WEL = 1 and ...: start_cycle(e)` (20_memory.md R103). -/
def State.cycleIf (s : State) (enough : Bool) (e : Effect) : State :=
  if s.rdm.wel && enough then s.startCycle e else s

/-- READ, 0x03: data byte `k = j - 1 - NA` from `ARRAY[(a + k) mod DEVICE_SIZE]` (20_memory.md R102, R108); nothing at
`CSH` (R103). -/
def execWireRead (tail : List Byte) (s : State) : Out :=
  .next (s.react false tail.length
    (fun t =>
      if t.cfg.na + 1 ≤ tail.length && !t.rdm.wip then
        t.driveCell ((frameAddress t.cfg tail + (tail.length - 1 - t.cfg.na)) % t.cfg.deviceSize)
      else t.driveDraw)
    id)

/-- WRITE, 0x02: `start_cycle(write(a, ...))` when enabled and at least one data byte came (20_memory.md R103). -/
def execWireWrite (tail : List Byte) (s : State) : Out :=
  .next (s.react false tail.length State.driveDraw fun t =>
    t.cycleIf (t.cfg.na + 1 ≤ tail.length) (.write (frameAddress t.cfg tail) (tail.drop t.cfg.na)))

/-- WRITE-ENABLE, 0x06: `WEL <- 1` (20_memory.md R103). -/
def execWireWriteEnable (tail : List Byte) (s : State) : Out :=
  .next (s.react false tail.length State.driveDraw fun t => t.setRdm { t.rdm with wel := true })

/-- WRITE-DISABLE, 0x04: `WEL <- 0` (20_memory.md R103). The sequencer never sends it (30_encoding.md R153). -/
def execWireWriteDisable (tail : List Byte) (s : State) : Out :=
  .next (s.react false tail.length State.driveDraw fun t => t.setRdm { t.rdm with wel := false })

/-- READ-STATUS, 0x05: every byte after the opcode is `status_byte()`, busy or not (20_memory.md R102, R104). -/
def execWireReadStatus (tail : List Byte) (s : State) : Out :=
  .next (s.react false tail.length State.driveStatus id)

/-- WRITE-STATUS, 0x01: `start_cycle(write_status(FB[1]))` when enabled and the byte came (20_memory.md R103). -/
def execWireWriteStatus (tail : List Byte) (s : State) : Out :=
  .next (s.react false tail.length State.driveDraw fun t =>
    match tail with
    | [] => t
    | v :: _ => t.cycleIf true (.writeStatus v))

/-- PAGE-ERASE, 0x42: `start_cycle(erase_page(a))` when enabled and the address came (20_memory.md R103). The sequencer
never sends it (30_encoding.md R153). -/
def execWirePageErase (tail : List Byte) (s : State) : Out :=
  .next (s.react false tail.length State.driveDraw fun t =>
    t.cycleIf (t.cfg.na ≤ tail.length) (.erasePage (frameAddress t.cfg tail)))

/-- SECTOR-ERASE, 0xD8: `start_cycle(erase_sector(a))` when enabled and the address came (20_memory.md R103). -/
def execWireSectorErase (tail : List Byte) (s : State) : Out :=
  .next (s.react false tail.length State.driveDraw fun t =>
    t.cycleIf (t.cfg.na ≤ tail.length) (.eraseSector (frameAddress t.cfg tail)))

/-- CHIP-ERASE, 0xC7: `start_cycle(erase_all)` when enabled (20_memory.md R103). -/
def execWireChipErase (tail : List Byte) (s : State) : Out :=
  .next (s.react false tail.length State.driveDraw fun t => t.cycleIf true .eraseAll)

/-- RELEASE/READ-ID, 0xAB: bytes from index 4 on answer `MFR_ID` (20_memory.md R102, R114), and the `CSH` ends deep
power-down (R103). -/
def execWireReleaseReadId (tail : List Byte) (s : State) : Out :=
  .next (s.react true tail.length
    (fun t => if 4 ≤ tail.length && !t.rdm.wip then t.drive t.cfg.mfrId else t.driveDraw)
    id)

/-- DEEP-POWER-DOWN, 0xB9: `DPD <- true` (20_memory.md R103). -/
def execWireDeepPowerDown (tail : List Byte) (s : State) : Out :=
  .next (s.react false tail.length State.driveDraw fun t => t.setRdm { t.rdm with dpd := true })

end Sys2Proof.Machine
end

