-- ==== Sys2Proof/Machine/WritePath.lean ====
section
/-! DEFINITION. The write path's host command (43_write_path.md R234): ACCEPT (10_state.md R42), which starts its micro-sequence. -/

namespace Sys2Proof.Machine

/-- WRITE (43_write_path.md R234). -/
def execWrite (addr : Addr) (len : Nat) (data : List Byte) (s : State) : Out :=
  .next (accept (hostWord 0x01#5 addr) len data ((Instr.write addr len data).wellFormed s.cfg)
    [] (writeSeq s.cfg len) s)

end Sys2Proof.Machine
end

