-- ==== Sys2Proof/Machine/Dispatch.lean ====
section
/-! DEFINITION. One arm per constructor of `Instr`. -/

namespace Sys2Proof.Machine

-- exec: what an instruction does. A host command is accepted; a wire instruction is run by the device.
def exec (i : Instr) (s : State) : Host.Outcome State Fault Refusal :=
  match i with
  | .write addr len data => Sys2Proof.Machine.execWrite addr len data s
  | .read addr len data => Sys2Proof.Machine.execRead addr len data s
  | .readId addr len data => Sys2Proof.Machine.execReadId addr len data s
  | .dpdEnter addr len data => Sys2Proof.Machine.execDpdEnter addr len data s
  | .dpdRelease addr len data => Sys2Proof.Machine.execDpdRelease addr len data s
  | .eraseSector addr len data => Sys2Proof.Machine.execEraseSector addr len data s
  | .eraseChip addr len data => Sys2Proof.Machine.execEraseChip addr len data s
  | .protectNone addr len data => Sys2Proof.Machine.execProtectNone addr len data s
  | .protectUpperQuarter addr len data => Sys2Proof.Machine.execProtectUpperQuarter addr len data s
  | .protectUpperHalf addr len data => Sys2Proof.Machine.execProtectUpperHalf addr len data s
  | .protectAll addr len data => Sys2Proof.Machine.execProtectAll addr len data s
  | .hwProtectEnable addr len data => Sys2Proof.Machine.execHwProtectEnable addr len data s
  | .hwProtectDisable addr len data => Sys2Proof.Machine.execHwProtectDisable addr len data s
  | .isWip addr len data => Sys2Proof.Machine.execIsWip addr len data s
  | .isWpen addr len data => Sys2Proof.Machine.execIsWpen addr len data s
  | .isBp0 addr len data => Sys2Proof.Machine.execIsBp0 addr len data s
  | .isBp1 addr len data => Sys2Proof.Machine.execIsBp1 addr len data s
  | .wireRead tail => Sys2Proof.Machine.execWireRead tail s
  | .wireWrite tail => Sys2Proof.Machine.execWireWrite tail s
  | .wireWriteEnable tail => Sys2Proof.Machine.execWireWriteEnable tail s
  | .wireWriteDisable tail => Sys2Proof.Machine.execWireWriteDisable tail s
  | .wireReadStatus tail => Sys2Proof.Machine.execWireReadStatus tail s
  | .wireWriteStatus tail => Sys2Proof.Machine.execWireWriteStatus tail s
  | .wirePageErase tail => Sys2Proof.Machine.execWirePageErase tail s
  | .wireSectorErase tail => Sys2Proof.Machine.execWireSectorErase tail s
  | .wireChipErase tail => Sys2Proof.Machine.execWireChipErase tail s
  | .wireReleaseReadId tail => Sys2Proof.Machine.execWireReleaseReadId tail s
  | .wireDeepPowerDown tail => Sys2Proof.Machine.execWireDeepPowerDown tail s

end Sys2Proof.Machine
end

