-- ==== Sys2Proof/Machine/Turn.lean ====
section
/-! DEFINITION. Whose turn it is and what it does, over `run`, the meaning of an instruction: the device's reaction, the
host's next act, or the sequencer's step. -/

namespace Sys2Proof.Machine

/-- The RDM reacts by running the instruction of its frame so far (20_memory.md R102, R103). -/
def deviceTurn (run : Instr → State → Out) (s : State) : Out :=
  match decodeFrame s.rdm.fb with
  | .ok i => run i s
  | .error _ => .next s.reactUnknown

/-- The sequencer's turn: a step while `SEQ = RUN` (10_state.md R40), nothing while `SEQ = IDLE`. -/
def sequencerTurn (run : Instr → State → Out) (s : State) : Out :=
  match s.seq with
  | .run => seqStep (deviceTurn run) s
  | .idle => .next s

/-- ACCEPT(W, L, D) while `SEQ = IDLE` (10_state.md R42): the command the word selects, or the refusal of a word that
selects none (30_encoding.md R142, R143). -/
def acceptWord (run : Instr → State → Out) (w : CmdWord) (len : Nat) (data : List Byte) (s : State) : Out :=
  match decodeHost w len data with
  | .ok i => run i s
  | .error _ => .next (accept w len data false [] [] s)

/-- What a host read delivers (10_state.md R41, R44): a fault where there is no value. -/
def State.hostRead (s : State) : HostReg → Except Fault HostValue
  | .seqStatus => .ok (.byte s.seqStatus)
  | .csN => .ok (.bit s.csN)
  | .srLast => (valueOf .srLast s.srLast).map .byte
  | .rdataAt k => (valueOf .rdata s.rdata).bind fun l => (valueOf .rdata (l[k]?.join)).map .byte

/-- A cycle of the device's power: the RDM at its power-on values (20_memory.md R101), `FB` = [] among them. Inside an
open frame too, of which the spec says nothing: the frame's next byte is then the device's byte 0. DESIGN CHOICE, unsafe
(log 14). -/
def State.cycleDevicePower (s : State) : State := s.setRdm (Rdm.powerOn s.cfg)

/-- A host act at the head of the list, `rest` being the acts after it. While `SEQ = RUN` an ACCEPT or a wait for the end
holds, and the sequencer has its turn (10_state.md R42, R44). -/
def hostTurn (run : Instr → State → Out) (act : HostAct) (rest : List HostAct) (s : State) : Out :=
  match act with
  | .accept w len data =>
    match s.seq with
    | .idle => acceptWord run w len data (s.setActs rest)
    | .run => sequencerTurn run s
  | .read r =>
    match s.hostRead r with
    | .ok v => .next ((s.setActs rest).deliver v)
    | .error f => .fault f
  | .awaitDone =>
    match s.seq with
    | .idle => .next (s.setActs rest)
    | .run => sequencerTurn run s
  | .letRun 0 => .next (s.setActs rest)
  | .letRun (n + 1) => sequencerTurn run (s.setActs (.letRun n :: rest))
  | .reset => .next (s.setActs rest).applyReset
  | .devicePowerCycle => .next (s.setActs rest).cycleDevicePower

/-- One turn of the machine. The device's reaction comes before anything else can happen (20_memory.md R100); then the
host's next act; then the sequencer. -/
def turn (run : Instr → State → Out) (s : State) : Out :=
  match s.rdm.event with
  | some _ => deviceTurn run s
  | none =>
    match s.env.acts with
    | [] => sequencerTurn run s
    | act :: rest => hostTurn run act rest s

end Sys2Proof.Machine
end

