-- ==== Sys2Proof/Machine/Step.lean ====
section
/-! DEFINITION. One step of the machine, and where a step finds its next instruction. -/

namespace Sys2Proof.Machine

/-- One step: one turn of the device, the host or the sequencer, each instruction meaning what `exec` says. -/
def step (s : State) : Host.Outcome State Fault Refusal := turn exec s

/-- The instruction of a table word placed where the next step finds it (log 8). A host command stands at the head of the
host's acts with the sequencer idle and the device owing no reaction. A wire instruction is a frame that has just ended
at an attached device. -/
def State.withFetchWord (s : State) (nbits w : Nat) : State :=
  match decodeHost (BitVec.ofNat 32 w) 0 [] with
  | .ok _ =>
    { s with seq := .idle, rdm := { s.rdm with event := none },
             env := { s.env with acts := .accept (BitVec.ofNat 32 w) 0 [] :: s.env.acts } }
  | .error _ =>
    { s with cfg := { s.cfg with rdmAttached := true },
             rdm := { s.rdm with fb := tableFrame nbits w, event := some .frameEnd } }

end Sys2Proof.Machine
end

