-- ==== Sys2Proof/Safety.lean ====
section
/-! DEFINITION. The terms claims use: what a wire trace of a command looks like, and what a sound state is (the
response registers, the device, the array, and the running command's micro-sequence against the registers and the
trace). -/

namespace Sys2Proof.Safety

open Sys2Proof.Machine

/-! ### Traces -/

/-- Bus events, as against host events (00_scope.md R19, R21). -/
def isBusEvent : Event → Bool
  | .csl => true
  | .csh => true
  | .xfer _ _ => true
  | .wait _ => true
  | .accept _ _ _ => false
  | .complete _ => false

/-- How many bus events a list of events holds (70_reset_and_hazards.md R351). -/
def busCount (l : List Event) : Nat := (l.filter isBusEvent).length

/-- The bytes of an address on the wire (42_address_framing.md R220). -/
def addressBytes (cfg : Config) (a : Addr) : List Byte :=
  match cfg.profile with
  | .wide => [a.extractLsb' 16 8, a.extractLsb' 8 8, a.extractLsb' 0 8]
  | .narrow => [a.extractLsb' 8 8, a.extractLsb' 0 8]

/-- The exchanges of the bytes sent with the bytes received. -/
def exchanges (sent got : List Byte) : List Event := List.zipWith (fun o i => Event.xfer o (.byte i)) sent got

/-- A whole frame (30_encoding.md R151): `CSL`, its exchanges, `CSH`. -/
def frameEvents (sent got : List Byte) : List Event := [Event.csl] ++ exchanges sent got ++ [Event.csh]

/-- One status poll, frame F2: `x` answers the opcode and `v` the filler (41_status_timing.md R200). -/
def pollEvents (cfg : Config) (p : Byte × Byte) : List Event := frameEvents [0x05#8, cfg.filler] [p.1, p.2]

/-- An await that sees the busy polls `busy` and then the poll `last` (41_status_timing.md R205). -/
def awaitEvents (cfg : Config) (busy : List (Byte × Byte)) (last : Byte × Byte) : List Event :=
  busy.flatMap (fun p => pollEvents cfg p ++ [.wait (.pollDelay cfg.pollDelay)]) ++ pollEvents cfg last

/-- The transport's answers to those polls. -/
def awaitAnswers (busy : List (Byte × Byte)) (last : Byte × Byte) : List Byte :=
  (busy ++ [last]).flatMap fun p => [p.1, p.2]

/-- The polls of an await that exits: bit 0 set in each busy byte, clear in the last (41_status_timing.md R205), and fewer
busy bytes than the poll limit (R206). -/
def awaitExits (cfg : Config) (busy : List (Byte × Byte)) (last : Byte × Byte) : Prop :=
  (∀ p ∈ busy, p.2.getLsbD 0 = true) ∧ last.2.getLsbD 0 = false ∧ ∀ k, cfg.pollLimit = some k → busy.length < k

/-- The bus events of an await with `b` busy bytes, `A(b)` (70_reset_and_hazards.md R351). -/
def awaitCount (b : Nat) : Nat := 4 * (b + 1) + b

/-- The machine waits for a command from a host with nothing else to do, over a transport with no device model: its next
answers are the bytes `l` and then `rest`. -/
structure Ready (s : State) (l : List Byte) (rest : List Answer) : Prop where
  idle : s.seq = .idle
  csHigh : s.csN = true
  noActs : s.env.acts = []
  noEvent : s.rdm.event = none
  freeTransport : s.cfg.rdmAttached = false
  answers : s.env.answers = l.map Answer.byte ++ rest

/-- `n` steps of the machine, stopping at the first fault or refusal. -/
def runs : Nat → State → Out
  | 0, s => .next s
  | n + 1, s =>
    match step s with
    | .next t => runs n t
    | .fault f => .fault f
    | .refused r => .refused r

/-- A state after the command `(op, addr, len, data)` was accepted at `s` and completed without an exception, the
transport's answers left being `rest`: what every command that sends no status read and returns nothing leaves
(10_state.md R42, R43). `UPC` and the trace are those of `u`. -/
def ended (s : State) (op : BitVec 5) (addr : Addr) (len : Nat) (data : List Byte) (rest : List Answer) (u : State) :
    State :=
  { s with
    csN := true, seq := .idle, upc := u.upc,
    op := some op, addr := some addr, len := some len, wdata := some data,
    pollCnt := 0, done := true, err := false, errcode := 0#2, rbit := false, rdata := some [],
    env := { s.env with answers := rest }, trace := u.trace }

/-- The trace of a command: its ACCEPT, its bus events, its COMPLETE (20_memory.md R91). -/
def commandTrace (s : State) (op : BitVec 5) (addr : Addr) (len : Nat) (data : List Byte) (bus : List Event) (u : State) :
    List Event :=
  s.trace ++ [.accept (hostWord op addr) len data] ++ bus ++ [.complete u.resp]

/-- The micro-sequence ACCEPT starts for a command (10_state.md R42, 30_encoding.md R141). -/
def startOf (cfg : Config) : Instr → List Micro
  | .write _ len _ => writeSeq cfg len
  | .read _ len _ => readSeq cfg len
  | .readId _ _ _ => readIdSeq
  | .dpdEnter _ _ _ => dpdEnterSeq
  | .dpdRelease _ _ _ => dpdReleaseSeq
  | .eraseSector _ _ _ => eraseSectorSeq cfg
  | .eraseChip _ _ _ => eraseChipSeq cfg
  | .protectNone _ _ _ => statusRmw cfg (.protect 0#2)
  | .protectUpperQuarter _ _ _ => statusRmw cfg (.protect 1#2)
  | .protectUpperHalf _ _ _ => statusRmw cfg (.protect 2#2)
  | .protectAll _ _ _ => statusRmw cfg (.protect 3#2)
  | .hwProtectEnable _ _ _ => statusRmw cfg .setWpen
  | .hwProtectDisable _ _ _ => statusRmw cfg .clearWpen
  | .isWip _ _ _ => queryBit 0
  | .isWpen _ _ _ => queryBit 7
  | .isBp0 _ _ _ => queryBit 2
  | .isBp1 _ _ _ => queryBit 3
  | _ => []

/-- `RDATA` as ACCEPT sets it for a legal command (10_state.md R42). -/
def rdataOf : Instr → List (Option Byte)
  | .read _ len _ => List.replicate len none
  | .readId _ _ _ => [none]
  | _ => []

/-- `illegal(W, L, D)`, condition by condition (30_encoding.md R143). -/
def illegal (cfg : Config) (w : CmdWord) (len : Nat) (data : List Byte) : Prop :=
  w.extractLsb' 5 3 ≠ 0#3
  ∨ (w.extractLsb' 0 5 = 0x00#5 ∨ 0x12 ≤ (w.extractLsb' 0 5).toNat)
  ∨ ((w.extractLsb' 0 5 = 0x02#5 ∨ w.extractLsb' 0 5 = 0x01#5) ∧ cfg.maxLen < len)
  ∨ (w.extractLsb' 0 5 = 0x01#5 ∧ data.length ≠ len)

/-! ### Sound states -/

/-- The response registers agree (10_state.md R39, R42, R43). -/
structure ResponseSound (s : State) : Prop where
  running : s.seq = .run → s.done = false ∧ s.err = false
  code : s.err = false ↔ s.errcode = 0#2
  ended : s.err = true → s.done = true

/-- The RDM between steps (20_memory.md R100, R103, R104): it owes a reaction only when attached and only to the end of a
frame; it is busy exactly when an effect is pending, and then the latch is set and the device is not powered down. -/
structure DeviceSound (s : State) : Prop where
  attached : s.rdm.event ≠ none → s.cfg.rdmAttached = true
  noByte : s.rdm.event ≠ some .byte
  busy : s.rdm.wip = s.rdm.pending.isSome
  latched : s.rdm.wip = true → s.rdm.wel = true
  awake : s.rdm.wip = true → s.rdm.dpd = false

/-- The device array is in its canonical form and holds only addresses that exist (20_memory.md R80, R101). -/
structure MemorySound (s : State) : Prop where
  canonical : Memory.wf s.rdm.array = true
  inside : Memory.below s.cfg.deviceSize s.rdm.array = true

/-- What the trace says of the frame on the wire: whether its opcode comes next, and the opcode sent last. -/
structure FrameView where
  first : Bool
  opcode : Option Byte
deriving DecidableEq, Repr

/-- One event more. -/
def FrameView.see (v : FrameView) : Event → FrameView
  | .csl => { first := true, opcode := none }
  | .xfer o _ => if v.first then { first := false, opcode := some o } else v
  | _ => { v with first := false }

/-- The frame view of a trace. -/
def frameView (l : List Event) : FrameView := l.foldl FrameView.see { first := false, opcode := none }

/-- The opcodes of write-class frames the sequencer sends (00_scope.md R22, 10_state.md R38). -/
def writeClass (b : Byte) : Bool := b = 0x02#8 || b = 0x01#8 || b = 0xD8#8 || b = 0xC7#8

/-- The opcodes the sequencer sends (30_encoding.md R150, R153). -/
def sentOpcode (b : Byte) : Bool :=
  writeClass b || b = 0x03#8 || b = 0x06#8 || b = 0x05#8 || b = 0xAB#8 || b = 0xB9#8

/-- What the `CSH` of a frame with this opcode does to `WPHASE` (10_state.md R38). -/
def phaseMove (b : Byte) : Option Wphase :=
  if b = 0x06#8 then some .writeEnabled else if writeClass b then some .writing else none

/-- What is known of the registers at a point of a micro-sequence. -/
structure Known where
  /-- `CS_N`. -/
  csHigh : Bool
  /-- The frame on the wire. -/
  view : FrameView
  /-- `WPHASE`. -/
  wphase : Wphase
  /-- The local `s` holds a value. -/
  status : Bool
  /-- The local `s` is `SR_LAST`, and nothing has been computed from it but an await's test. -/
  fresh : Bool
  /-- `SR_LAST` has bit 0 clear. -/
  settled : Bool
  /-- `VAL` holds a value. -/
  val : Bool
  /-- `WDATA` has at least this many bytes. -/
  dataLen : Nat
deriving DecidableEq, Repr

/-- The byte is there to be sent, and where an opcode comes next it is one the sequencer sends (30_encoding.md R153), a
write-class one only when enabled and settled (43_write_path.md R237, R238). -/
def Known.maySend (k : Known) : Src → Bool
  | .lit b => !k.view.first || (sentOpcode b && (!writeClass b || (k.wphase = .writeEnabled && k.settled)))
  | .filler => !k.view.first
  | .addrByte _ => !k.view.first
  | .sectorByte _ => !k.view.first
  | .wdata i => !k.view.first && i < k.dataLen
  | .val => !k.view.first && k.val

/-- What is known after sending. -/
def Known.sent (k : Known) : Src → Known
  | .lit b => if k.view.first then { k with view := { first := false, opcode := some b } } else k
  | _ => k

/-- A micro-sequence that keeps the wire protocol from a point where `k` is known: frames open and close in turn, nothing
is used before it holds a value, a `CSH` moves `WPHASE` as its frame's opcode says (10_state.md R38), no computation
comes between the frame of a poll and the await's test (41_status_timing.md R205), and it ends with `CS_N` = 1 (10_state.md
R43). -/
def sound : Known → List Micro → Bool
  | k, [] => k.csHigh
  | _, .raise _ :: _ => true
  | k, .compute .keepStatus :: r => !k.csHigh && k.status && sound { k with fresh := true, settled := false } r
  | k, .compute (.takeBit _) :: r => k.status && sound { k with fresh := false } r
  | k, .compute (.computeVal _) :: r => k.status && sound { k with val := true, fresh := false } r
  | k, .compute .pollStart :: r => sound { k with fresh := false } r
  | k, .compute .pollTest :: r =>
    k.status && k.fresh && k.csHigh && !k.view.first && sound { k with wphase := .idle, settled := true } r
  | k, .bus .csAssert :: r => k.csHigh && sound { k with csHigh := false, view := { first := true, opcode := none } } r
  | k, .bus (.csDeassert m) :: r =>
    !k.csHigh && !k.view.first && m = k.view.opcode.bind phaseMove
      && sound { k with csHigh := true, wphase := m.getD k.wphase } r
  | k, .bus (.send o) :: r => !k.csHigh && k.maySend o && sound (k.sent o) r
  | k, .bus .recvStatus :: r =>
    !k.csHigh && !k.view.first && sound { k with status := true, fresh := false } r
  | k, .bus (.recvData _) :: r => !k.csHigh && !k.view.first && sound k r
  | k, .bus (.wait _) :: r => k.csHigh && !k.view.first && sound k r

/-- `k` is true of a state whose `UPC` is `u`. -/
structure Known.Describes (k : Known) (s : State) (u : Upc) : Prop where
  csHigh : s.csN = k.csHigh
  view : frameView s.trace = k.view
  wphase : s.wphase = k.wphase
  status : k.status = true → u.s.isSome = true
  fresh : k.fresh = true → u.s = s.srLast
  settled : k.settled = true → ∃ v, s.srLast = some v ∧ v.getLsbD 0 = false
  val : k.val = true → s.val.isSome = true
  addr : s.addr.isSome = true
  data : ∃ l, s.wdata = some l ∧ k.dataLen ≤ l.length
  rdata : ∃ l, s.rdata = some l

/-- The running command's micro-sequence is sound; with none running no frame is open (10_state.md R43). -/
structure SequencerSound (s : State) : Prop where
  idle : s.seq = .idle → s.csN = true
  running : s.seq = .run → ∃ u k, s.upc = some u ∧ Known.Describes k s u ∧ sound k u.code = true

end Sys2Proof.Safety
end

