-- ==== Sys2Proof/Certificates/Slice0/Obligations.lean ====
section
/-! DEFINITION. The statements about the model, for the provers. -/

open Sys2Proof Sys2Proof.Machine Sys2Proof.Safety

/-! ### Encoding -/

/-- Decoding what the encoder writes gives the instruction back, every operand at every value
(30_encoding.md R140, R141, R150, R151). -/
def Obligations.DecodeOfEncodeIsTheInstruction : Prop :=
  ∀ i : Instr, decode (encode i) = .ok i

/-- What decodes to an instruction is that instruction's encoding: no bit of an encoding is dropped. -/
def Obligations.EncodeOfDecodedIsTheEncoding : Prop :=
  ∀ (e : Encoded) (i : Instr), decode e = .ok i → encode i = e

/-- 30_encoding.md R142: a command is selected exactly when `RSV = 0` and `OP` is one of the 17 assigned values, and
`W[31:8]` never affects which: two words with the same low byte select commands that encode with the same low byte. -/
def Obligations.CommandSelectedByLowByte : Prop :=
  (∀ (w : CmdWord) (len : Nat) (data : List Byte),
    (∃ i, decodeHost w len data = .ok i) ↔
      (w.extractLsb' 5 3 = 0#3 ∧ 0x01 ≤ (w.extractLsb' 0 5).toNat ∧ (w.extractLsb' 0 5).toNat ≤ 0x11)) ∧
  ∀ (w : CmdWord) (len : Nat) (data : List Byte) (i : Instr), decodeHost w len data = .ok i →
    encode i = .host (hostWord (w.extractLsb' 0 5) (w.extractLsb' 8 24)) len data ∧
    ∀ (v : CmdWord), v.extractLsb' 0 8 = w.extractLsb' 0 8 →
      ∃ j, decodeHost v len data = .ok j ∧
        encode j = .host (hostWord (w.extractLsb' 0 5) (v.extractLsb' 8 24)) len data

/-- A frame selects a wire instruction exactly when its byte 0 is one of the opcode set (30_encoding.md R150, R154). -/
def Obligations.FrameSelectedByOpcode : Prop :=
  ∀ fb : List Byte,
    (∃ i, decodeFrame fb = .ok i) ↔
      ∃ op tail, fb = op :: tail ∧
        op ∈ [0x03#8, 0x02#8, 0x06#8, 0x04#8, 0x05#8, 0x01#8, 0x42#8, 0xD8#8, 0xC7#8, 0xAB#8, 0xB9#8]

/-- A few words of the test vectors (95_test_vectors.md 2.6, 2.9, E1) decode to what they stand for. -/
def Obligations.WordsOfTheSpecDecode : Prop :=
  decodeHost 0x00100001#32 3 [0xAA#8, 0xBB#8, 0xCC#8] = .ok (.write 0x001000#24 3 [0xAA#8, 0xBB#8, 0xCC#8]) ∧
  decodeHost 0x00100002#32 3 [] = .ok (.read 0x001000#24 3 []) ∧
  decodeHost 0x0001FF06#32 0 [] = .ok (.eraseSector 511#24 0 []) ∧
  decodeHost 0xFFFFFF0E#32 5 [1#8, 2#8] = .ok (.isWip 0xFFFFFF#24 5 [1#8, 2#8]) ∧
  decodeHost 0x12345608#32 0 [] = .ok (.protectNone 0x123456#24 0 []) ∧
  decodeHost 0x00000021#32 1 [0#8] = .error (.reservedBits 1#3) ∧
  decodeHost 0x00000012#32 0 [] = .error (.reservedOp 0x12#5) ∧
  decodeFrame [0xD8#8, 0x00#8, 0x80#8, 0x00#8] = .ok (.wireSectorErase [0x00#8, 0x80#8, 0x00#8])

/-! ### What a step runs -/

/-- A step with a command at the head of the host's acts, the sequencer idle and the device owing no reaction, runs the
instruction the word decodes to, the act taken from the list. -/
def Obligations.StepRunsTheAcceptedCommand : Prop :=
  ∀ (s : State) (w : CmdWord) (len : Nat) (data : List Byte) (rest : List HostAct) (i : Instr),
    s.rdm.event = none → s.seq = .idle → s.env.acts = .accept w len data :: rest →
    decodeHost w len data = .ok i →
    step s = exec i { s with env := { s.env with acts := rest } }

/-- A step of a machine whose device owes a reaction runs the instruction its frame decodes to. -/
def Obligations.StepRunsTheWireInstruction : Prop :=
  ∀ (s : State) (i : Instr), s.rdm.event ≠ none → decodeFrame s.rdm.fb = .ok i → step s = exec i s

/-! ### ACCEPT -/

/-- Every one of the 17 host commands, accepted while idle with legal operands: the latch, the response registers and the
start of its own micro-sequence, and nothing else (10_state.md R42). -/
def Obligations.LegalCommandIsAccepted : Prop :=
  ∀ (s : State) (w : CmdWord) (len : Nat) (data : List Byte) (i : Instr),
    decodeHost w len data = .ok i → s.seq = .idle → ¬ illegal s.cfg w len data →
    exec i s = .next { s with
      op := some (w.extractLsb' 0 5), addr := some (w.extractLsb' 8 24), len := some len, wdata := some data,
      done := false, err := false, errcode := 0#2, rbit := false,
      rdata := some (rdataOf i), pollCnt := 0, seq := .run,
      upc := some { code := startOf s.cfg i, s := none },
      trace := s.trace ++ [.accept w len data] }

/-- 30_encoding.md R143: an illegal command is refused at ACCEPT with `ERRCODE` = 1, no bus event occurs, and no state
other than the command latch and the response registers changes; `RDATA` becomes the empty list. -/
def Obligations.IllegalCommandIsRefused : Prop :=
  ∀ (s : State) (w : CmdWord) (len : Nat) (data : List Byte) (rest : List HostAct),
    s.rdm.event = none → s.seq = .idle → s.env.acts = .accept w len data :: rest → illegal s.cfg w len data →
    ∃ t, step s = .next t ∧
      t = { s with
        op := some (w.extractLsb' 0 5), addr := some (w.extractLsb' 8 24), len := some len, wdata := some data,
        done := true, err := true, errcode := 1#2, rbit := false, rdata := some [],
        env := { s.env with acts := rest },
        trace := s.trace ++ [.accept w len data, .complete t.resp] }

/-- While a command runs the host has no ACCEPT step (10_state.md R42): the act stays, no ACCEPT is recorded, and the
commands themselves change nothing. -/
def Obligations.HostHoldsWhileBusy : Prop :=
  (∀ (s t : State) (w : CmdWord) (len : Nat) (data : List Byte) (rest : List HostAct),
    s.seq = .run → s.env.acts = .accept w len data :: rest → step s = .next t →
    t.env.acts = s.env.acts ∧ ∃ l, t.trace = s.trace ++ l ∧ ∀ w' n' d', Event.accept w' n' d' ∉ l) ∧
  ∀ (s : State) (w : CmdWord) (len : Nat) (data : List Byte) (i : Instr),
    decodeHost w len data = .ok i → s.seq = .run → exec i s = .next s

/-- 10_state.md R43: when the pseudocode reaches `complete()`, internal computation having led to `c`, the step completes
the command; `CS_N` is 1 there and `ERR` stays 0. -/
def Obligations.EndOfPseudocodeCompletes : Prop :=
  ∀ (s c : State) (u : Upc), SequencerSound s → ResponseSound s → s.rdm.event = none → s.env.acts = [] →
    s.seq = .run → s.upc = some u → nextAction u.code s = .ok (c, .complete) →
    ∃ t, step s = .next t ∧
      t = { c with seq := .idle, done := true,
                   trace := c.trace ++ [.complete { seqStatus := t.seqStatus, srLast := c.srLast, rdata := c.rdata }] } ∧
      t.csN = true ∧ t.err = false

/-! ### Commands from ACCEPT to COMPLETE, the transport answering any bytes -/

/-- IS_WIP, IS_WPEN, IS_BP0 and IS_BP1 (41_status_timing.md R201 to R204): one F2 frame, `SR_LAST` the byte received,
`RBIT` its bit, everything else as ACCEPT and COMPLETE leave it. -/
def Obligations.StatusQueriesComplete : Prop :=
  ∀ (s : State) (addr : Addr) (len : Nat) (data : List Byte) (x v : Byte) (rest : List Answer),
    Ready s [x, v] rest →
    ∀ c ∈ [(Instr.isWip addr len data, 0x0E#5, 0), (Instr.isWpen addr len data, 0x0F#5, 7),
           (Instr.isBp0 addr len data, 0x10#5, 2), (Instr.isBp1 addr len data, 0x11#5, 3)],
      ∃ t u, exec c.1 s = .next t ∧ runs 5 t = .next u ∧
        u.trace = commandTrace s c.2.1 addr len data (pollEvents s.cfg (x, v)) u ∧
        u = { ended s c.2.1 addr len data rest u with srLast := some v, rbit := v.getLsbD c.2.2 }

/-- READ (44_read_path.md R250): one F5 frame, `RDATA` the bytes received after the address, no other register but the
latch and the response registers written. -/
def Obligations.ReadCompletes : Prop :=
  ∀ (s : State) (addr : Addr) (len : Nat) (data head got : List Byte) (rest : List Answer),
    Ready s (head ++ got) rest → len ≤ s.cfg.maxLen → head.length = 1 + s.cfg.na → got.length = len →
    ∃ t u, exec (.read addr len data) s = .next t ∧ runs (3 + s.cfg.na + len + 1) t = .next u ∧
      u.trace = commandTrace s 0x02#5 addr len data
        (frameEvents ([0x03#8] ++ addressBytes s.cfg addr ++ List.replicate len s.cfg.filler) (head ++ got)) u ∧
      u = { ended s 0x02#5 addr len data rest u with rdata := some (got.map some) }

/-- READ_ID (44_read_path.md R252): one F6 frame with three dummy bytes in either profile, `RDATA` the fifth byte
received. -/
def Obligations.ReadIdCompletes : Prop :=
  ∀ (s : State) (addr : Addr) (len : Nat) (data : List Byte) (a b c d v : Byte) (rest : List Answer),
    Ready s [a, b, c, d, v] rest →
    ∃ t u, exec (.readId addr len data) s = .next t ∧ runs 8 t = .next u ∧
      u.trace = commandTrace s 0x03#5 addr len data
        (frameEvents [0xAB#8, s.cfg.filler, s.cfg.filler, s.cfg.filler, s.cfg.filler] [a, b, c, d, v]) u ∧
      u = { ended s 0x03#5 addr len data rest u with rdata := some [some v] }

/-- DPD_ENTER and DPD_RELEASE (46_power.md R280, R281): one F0 frame each, the release followed by `WAIT(T_RES)`; no
register but the latch and the response registers written. -/
def Obligations.PowerCommandsComplete : Prop :=
  ∀ (s : State) (addr : Addr) (len : Nat) (data : List Byte) (x : Byte) (rest : List Answer), Ready s [x] rest →
    (∃ t u, exec (.dpdEnter addr len data) s = .next t ∧ runs 4 t = .next u ∧
      u.trace = commandTrace s 0x04#5 addr len data (frameEvents [0xB9#8] [x]) u ∧
      u = ended s 0x04#5 addr len data rest u) ∧
    ∃ t u, exec (.dpdRelease addr len data) s = .next t ∧ runs 5 t = .next u ∧
      u.trace = commandTrace s 0x05#5 addr len data (frameEvents [0xAB#8] [x] ++ [.wait (.tRes s.cfg.tRes)]) u ∧
      u = ended s 0x05#5 addr len data rest u

/-- WRITE (43_write_path.md R234, bus events counted as 70_reset_and_hazards.md R351): an await, the enable frame, one F4
frame with every data byte, a second await whatever `POLL_AFTER_ISSUE` is. `b1` and `b2` are the busy polls of the
awaits, `l1` and `l2` the polls that end them. -/
def Obligations.WriteCompletes : Prop :=
  ∀ (s : State) (addr : Addr) (len : Nat) (data got : List Byte) (e : Byte) (b1 b2 : List (Byte × Byte))
    (l1 l2 : Byte × Byte) (rest : List Answer),
    Ready s (awaitAnswers b1 l1 ++ [e] ++ got ++ awaitAnswers b2 l2) rest →
    awaitExits s.cfg b1 l1 → awaitExits s.cfg b2 l2 →
    len ≤ s.cfg.maxLen → data.length = len → got.length = 1 + s.cfg.na + len →
    ∃ t u, exec (.write addr len data) s = .next t ∧
      runs (awaitCount b1.length + 3 + (3 + s.cfg.na + len) + awaitCount b2.length + 1) t = .next u ∧
      u.trace = commandTrace s 0x01#5 addr len data
        (awaitEvents s.cfg b1 l1 ++ frameEvents [0x06#8] [e]
          ++ frameEvents ([0x02#8] ++ addressBytes s.cfg addr ++ data) got ++ awaitEvents s.cfg b2 l2) u ∧
      u = { ended s 0x01#5 addr len data rest u with
            srLast := some l2.2, pollCnt := b2.length, wphase := .idle }

/-- ERASE_CHIP and ERASE_SECTOR with `POLL_AFTER_ISSUE` (45_erase_protection.md R260, R261): an await, the enable frame, the
erase frame, an await. -/
def Obligations.ErasesCompletePolling : Prop :=
  ∀ (s : State) (addr : Addr) (len : Nat) (data got : List Byte) (e : Byte) (b1 b2 : List (Byte × Byte))
    (l1 l2 : Byte × Byte) (rest : List Answer),
    Ready s (awaitAnswers b1 l1 ++ [e] ++ got ++ awaitAnswers b2 l2) rest →
    awaitExits s.cfg b1 l1 → awaitExits s.cfg b2 l2 → s.cfg.pollAfterIssue = true →
    (got.length = 1 →
      ∃ t u, exec (.eraseChip addr len data) s = .next t ∧
        runs (awaitCount b1.length + 3 + 3 + awaitCount b2.length + 1) t = .next u ∧
        u.trace = commandTrace s 0x07#5 addr len data
          (awaitEvents s.cfg b1 l1 ++ frameEvents [0x06#8] [e] ++ frameEvents [0xC7#8] got
            ++ awaitEvents s.cfg b2 l2) u ∧
        u = { ended s 0x07#5 addr len data rest u with
              srLast := some l2.2, pollCnt := b2.length, wphase := .idle }) ∧
    (got.length = 1 + s.cfg.na →
      ∃ t u, exec (.eraseSector addr len data) s = .next t ∧
        runs (awaitCount b1.length + 3 + (3 + s.cfg.na) + awaitCount b2.length + 1) t = .next u ∧
        u.trace = commandTrace s 0x06#5 addr len data
          (awaitEvents s.cfg b1 l1 ++ frameEvents [0x06#8] [e]
            ++ frameEvents ([0xD8#8] ++ addressBytes s.cfg (sectorAddress s.cfg addr)) got
            ++ awaitEvents s.cfg b2 l2) u ∧
        u = { ended s 0x06#5 addr len data rest u with
              srLast := some l2.2, pollCnt := b2.length, wphase := .idle })

/-- The same without `POLL_AFTER_ISSUE` (00_scope.md R13): they end as soon as chip-select is deasserted, with `WPHASE` =
WRITING. -/
def Obligations.ErasesCompleteWithoutPolling : Prop :=
  ∀ (s : State) (addr : Addr) (len : Nat) (data got : List Byte) (e : Byte) (b1 : List (Byte × Byte))
    (l1 : Byte × Byte) (rest : List Answer),
    Ready s (awaitAnswers b1 l1 ++ [e] ++ got) rest → awaitExits s.cfg b1 l1 → s.cfg.pollAfterIssue = false →
    (got.length = 1 →
      ∃ t u, exec (.eraseChip addr len data) s = .next t ∧
        runs (awaitCount b1.length + 3 + 3 + 1) t = .next u ∧
        u.trace = commandTrace s 0x07#5 addr len data
          (awaitEvents s.cfg b1 l1 ++ frameEvents [0x06#8] [e] ++ frameEvents [0xC7#8] got) u ∧
        u = { ended s 0x07#5 addr len data rest u with
              srLast := some l1.2, pollCnt := b1.length, wphase := .writing }) ∧
    (got.length = 1 + s.cfg.na →
      ∃ t u, exec (.eraseSector addr len data) s = .next t ∧
        runs (awaitCount b1.length + 3 + (3 + s.cfg.na) + 1) t = .next u ∧
        u.trace = commandTrace s 0x06#5 addr len data
          (awaitEvents s.cfg b1 l1 ++ frameEvents [0x06#8] [e]
            ++ frameEvents ([0xD8#8] ++ addressBytes s.cfg (sectorAddress s.cfg addr)) got) u ∧
        u = { ended s 0x06#5 addr len data rest u with
              srLast := some l1.2, pollCnt := b1.length, wphase := .writing })

/-- PROTECT_NONE, _UPPER_QUARTER, _UPPER_HALF, _ALL and HW_PROTECT_ENABLE, _DISABLE with `POLL_AFTER_ISSUE`
(45_erase_protection.md R263 to R269): a fresh status read of `v`, an await, the enable frame, the status write of
`VAL = f(v)`, an await. -/
def Obligations.ProtectionCommandsCompletePolling : Prop :=
  ∀ (s : State) (addr : Addr) (len : Nat) (data : List Byte) (x v e c d : Byte) (b1 b2 : List (Byte × Byte))
    (l1 l2 : Byte × Byte) (rest : List Answer),
    Ready s ([x, v] ++ awaitAnswers b1 l1 ++ [e, c, d] ++ awaitAnswers b2 l2) rest →
    awaitExits s.cfg b1 l1 → awaitExits s.cfg b2 l2 → s.cfg.pollAfterIssue = true →
    ∀ p ∈ [(Instr.protectNone addr len data, 0x08#5, (v &&& 0xF3#8) ||| 0x00#8),
           (Instr.protectUpperQuarter addr len data, 0x09#5, (v &&& 0xF3#8) ||| 0x04#8),
           (Instr.protectUpperHalf addr len data, 0x0A#5, (v &&& 0xF3#8) ||| 0x08#8),
           (Instr.protectAll addr len data, 0x0B#5, (v &&& 0xF3#8) ||| 0x0C#8),
           (Instr.hwProtectEnable addr len data, 0x0C#5, v ||| 0x80#8),
           (Instr.hwProtectDisable addr len data, 0x0D#5, v &&& 0x7F#8)],
      ∃ t u, exec p.1 s = .next t ∧
        runs (4 + awaitCount b1.length + 3 + 4 + awaitCount b2.length + 1) t = .next u ∧
        u.trace = commandTrace s p.2.1 addr len data
          (pollEvents s.cfg (x, v) ++ awaitEvents s.cfg b1 l1 ++ frameEvents [0x06#8] [e]
            ++ frameEvents [0x01#8, p.2.2] [c, d] ++ awaitEvents s.cfg b2 l2) u ∧
        u = { ended s p.2.1 addr len data rest u with
              srLast := some l2.2, val := some p.2.2, pollCnt := b2.length, wphase := .idle }

/-- The same six without `POLL_AFTER_ISSUE` (43_write_path.md R236): no closing await, `WPHASE` = WRITING. -/
def Obligations.ProtectionCommandsCompleteWithoutPolling : Prop :=
  ∀ (s : State) (addr : Addr) (len : Nat) (data : List Byte) (x v e c d : Byte) (b1 : List (Byte × Byte))
    (l1 : Byte × Byte) (rest : List Answer),
    Ready s ([x, v] ++ awaitAnswers b1 l1 ++ [e, c, d]) rest → awaitExits s.cfg b1 l1 →
    s.cfg.pollAfterIssue = false →
    ∀ p ∈ [(Instr.protectNone addr len data, 0x08#5, (v &&& 0xF3#8) ||| 0x00#8),
           (Instr.protectUpperQuarter addr len data, 0x09#5, (v &&& 0xF3#8) ||| 0x04#8),
           (Instr.protectUpperHalf addr len data, 0x0A#5, (v &&& 0xF3#8) ||| 0x08#8),
           (Instr.protectAll addr len data, 0x0B#5, (v &&& 0xF3#8) ||| 0x0C#8),
           (Instr.hwProtectEnable addr len data, 0x0C#5, v ||| 0x80#8),
           (Instr.hwProtectDisable addr len data, 0x0D#5, v &&& 0x7F#8)],
      ∃ t u, exec p.1 s = .next t ∧
        runs (4 + awaitCount b1.length + 3 + 4 + 1) t = .next u ∧
        u.trace = commandTrace s p.2.1 addr len data
          (pollEvents s.cfg (x, v) ++ awaitEvents s.cfg b1 l1 ++ frameEvents [0x06#8] [e]
            ++ frameEvents [0x01#8, p.2.2] [c, d]) u ∧
        u = { ended s p.2.1 addr len data rest u with
              srLast := some l1.2, val := some p.2.2, pollCnt := b1.length, wphase := .writing }

/-! ### The await and the exceptions -/

/-- A machine whose sequencer is about to run `code`, over a transport with no device model whose next answers are `l` and
then `rest`, the host having nothing to do. -/
structure RunsOver (s : State) (code : List Micro) (l : List Answer) (rest : List Answer) : Prop where
  running : s.seq = .run
  position : ∃ u, s.upc = some u ∧ u.code = code
  noActs : s.env.acts = []
  noEvent : s.rdm.event = none
  freeTransport : s.cfg.rdmAttached = false
  answers : s.env.answers = l ++ rest

/-- 41_status_timing.md R207: with `POLL_LIMIT = none`, an await that never reads bit 0 = 0 does not end: after any number
of busy polls the command still runs, at the same point of its await, with nothing but polls and waits in between. -/
def Obligations.AwaitOfBusyDeviceNeverEnds : Prop :=
  ∀ (s : State) (code : List Micro) (polls : List (Byte × Byte)) (rest : List Answer),
    RunsOver s (awaitLoop ++ code) (polls.flatMap fun p => [.byte p.1, .byte p.2]) rest →
    s.csN = true → s.cfg.pollLimit = none → (∀ p ∈ polls, p.2.getLsbD 0 = true) →
    ∃ t, runs (5 * polls.length) s = .next t ∧ RunsOver t (awaitLoop ++ code) [] rest ∧
      t.pollCnt = s.pollCnt + polls.length ∧ t.done = s.done ∧ t.wphase = s.wphase ∧
      t.trace = s.trace ++ polls.flatMap (fun p => pollEvents s.cfg p ++ [.wait (.pollDelay s.cfg.pollDelay)])

/-- 41_status_timing.md R205, R206, at the test of the await: a busy byte counts, and either raises
DEVICE_NOT_RESPONDING at once, with no `WAIT` and no `CSH` added, or waits; a settled byte ends the await with `WPHASE` =
IDLE, and the same step goes on: to the `CSL` that opens the enable frame after a leading await (43_write_path.md R231), to
`complete()` after a closing one, or to a `WAIT`. -/
def Obligations.AwaitTestDecides : Prop :=
  ∀ (s : State) (code : List Micro) (v : Byte), RunsOver s (.compute .pollTest :: code) [] s.env.answers →
    s.csN = true → (∃ u, s.upc = some u ∧ u.s = some v) →
    (∀ k, v.getLsbD 0 = true → s.cfg.pollLimit = some k → k ≤ s.pollCnt + 1 →
      ∃ t, step s = .next t ∧
        t = { s with pollCnt := s.pollCnt + 1, seq := .idle, done := true, err := true, errcode := 3#2,
                     trace := s.trace ++ [.complete t.resp] }) ∧
    (v.getLsbD 0 = true → (∀ k, s.cfg.pollLimit = some k → s.pollCnt + 1 < k) →
      step s = .next { s with pollCnt := s.pollCnt + 1, upc := some { code := awaitLoop ++ code, s := some v },
                              trace := s.trace ++ [.wait (.pollDelay s.cfg.pollDelay)] }) ∧
    (v.getLsbD 0 = false → ∀ r, code = .bus .csAssert :: r →
      step s = .next { s with wphase := .idle, csN := false, upc := some { code := r, s := some v },
                              trace := s.trace ++ [.csl] }) ∧
    (v.getLsbD 0 = false → ∀ b r, code = .bus (.wait b) :: r →
      step s = .next { s with wphase := .idle, upc := some { code := r, s := some v },
                              trace := s.trace ++ [.wait (Config.duration s.cfg b)] }) ∧
    (v.getLsbD 0 = false → code = [] →
      ∃ t, step s = .next t ∧
        t = { s with wphase := .idle, seq := .idle, done := true, trace := s.trace ++ [.complete t.resp] })

/-- 10_state.md R46 and 60_exceptions.md R301: a transport error at any `xfer` records the event and raises
TRANSPORT_ERROR at once; the next step is the abort, which closes the frame if it is open and leaves `WPHASE`, `SR_LAST`,
`VAL`, `POLL_CNT`, `RDATA` and everything else as they were. -/
def Obligations.TransportErrorAborts : Prop :=
  ∀ (s : State) (b : BusOp) (code : List Micro) (o : Byte) (rest : List Answer),
    RunsOver s (.bus b :: code) [.err] rest →
    ((∃ src, b = .send src ∧ s.source src = .ok o) ∨ ((b = .recvStatus ∨ ∃ k, b = .recvData k) ∧ o = s.cfg.filler)) →
    ∃ t v, step s = .next t ∧ step t = .next v ∧
      t = { s with upc := t.upc, env := { s.env with answers := rest }, trace := s.trace ++ [.xfer o .err] } ∧
      v = { t with csN := true, seq := .idle, done := true, err := true, errcode := 2#2,
                   trace := t.trace ++ (if s.csN then [] else [.csh]) ++ [.complete v.resp] }

/-! ### Registers and operands -/

/-- 10_state.md R41: the fields of `SEQ_STATUS`. -/
def Obligations.SeqStatusFields : Prop :=
  ∀ s : State,
    s.seqStatus.getLsbD 0 = decide (s.seq = .run) ∧ s.seqStatus.getLsbD 1 = s.done ∧
    s.seqStatus.getLsbD 2 = s.err ∧ s.seqStatus.extractLsb' 3 2 = s.errcode ∧ s.seqStatus.getLsbD 5 = s.rbit ∧
    s.seqStatus.extractLsb' 6 2 =
      (match s.wphase with | .idle => 0b00#2 | .writeEnabled => 0b01#2 | .writing => 0b10#2)

/-- 45_erase_protection.md R264 to R269, bit by bit: a protection level sets bits 3:2 and keeps every other bit; the WPEN
functions set or clear bit 7 and keep every other bit (10_state.md R54: bits 6:4 go back as read). -/
def Obligations.StatusFunctionsChangeOnlyTheirBits : Prop :=
  ∀ (bp : BitVec 2) (s : Byte) (k : Nat), k < 8 →
    ((StatusFn.protect bp).apply s).getLsbD k =
      (if k = 2 then bp.getLsbD 0 else if k = 3 then bp.getLsbD 1 else s.getLsbD k) ∧
    (StatusFn.setWpen.apply s).getLsbD k = (if k = 7 then true else s.getLsbD k) ∧
    (StatusFn.clearWpen.apply s).getLsbD k = (if k = 7 then false else s.getLsbD k)

/-- 45_erase_protection.md R262: `sector_address(n) = (n << SECTOR_SHIFT) mod 2^AW`; the result does not depend on the
width in which the shift is computed, as long as that width is at least `AW`, and the bytes an erase sends are those of the
unreduced shift too. -/
def Obligations.SectorAddressWraps : Prop :=
  ∀ (cfg : Config) (n : Addr),
    (sectorAddress cfg n).toNat = (n.toNat * 2 ^ cfg.sectorShift) % 2 ^ cfg.aw ∧
    (∀ w, cfg.aw ≤ w → (sectorAddress cfg n).toNat = ((n.toNat * 2 ^ cfg.sectorShift) % 2 ^ w) % 2 ^ cfg.aw) ∧
    addressBytes cfg (sectorAddress cfg n) =
      addressBytes cfg (BitVec.ofNat 24 (n.toNat * 2 ^ cfg.sectorShift))

/-- 42_address_framing.md R220, R221: the address on the wire is `ADDR mod 2^AW`, most significant byte first, in exactly
`NA` bytes; in `Narrow` bits 23:16 are not sent. -/
def Obligations.AddressFraming : Prop :=
  ∀ (s : State) (a : Addr), s.addr = some a →
    (sendAddress s.cfg).map (fun m => match m with | .bus (.send o) => s.source o | _ => .error (.noValue .addr)) =
      (addressBytes s.cfg a).map .ok ∧
    (addressBytes s.cfg a).length = s.cfg.na ∧
    bytesToNat (addressBytes s.cfg a) = a.toNat % 2 ^ s.cfg.aw

/-- 00_scope.md R18, 10_state.md R41, R44: host reads have no effect on the machine, deliver the value, and fault where
the register or the element of `RDATA` holds none. (That an index past the end of the list reads as no value is the model's
choice, log 5.) -/
def Obligations.HostReadsDeliverOrFault : Prop :=
  ∀ (s : State) (r : HostReg) (rest : List HostAct), s.rdm.event = none → s.env.acts = .read r :: rest →
    (∀ v, s.hostRead r = .ok v → step s = .next { s with env := { s.env with acts := rest, got := some v } }) ∧
    (r = .seqStatus → s.hostRead r = .ok (.byte s.seqStatus)) ∧
    (r = .csN → s.hostRead r = .ok (.bit s.csN)) ∧
    (∀ v, r = .srLast → s.srLast = some v → s.hostRead r = .ok (.byte v)) ∧
    (r = .srLast → s.srLast = none → step s = .fault (.noValue .srLast)) ∧
    (∀ k l v, r = .rdataAt k → s.rdata = some l → l[k]? = some (some v) → s.hostRead r = .ok (.byte v)) ∧
    (∀ k l, r = .rdataAt k → s.rdata = some l → l[k]? = some none → step s = .fault (.noValue .rdata)) ∧
    (∀ k l, r = .rdataAt k → s.rdata = some l → l[k]? = none → step s = .fault (.noValue .rdata)) ∧
    (∀ k, r = .rdataAt k → s.rdata = none → step s = .fault (.noValue .rdata))

/-! ### Reset -/

/-- 70_reset_and_hazards.md R330, under any configuration: the registers with a reset value, and those that hold none. -/
def Obligations.ResetValues : Prop :=
  ∀ cfg : Config,
    (State.resetWith cfg).csN = true ∧ (State.resetWith cfg).seq = .idle ∧ (State.resetWith cfg).pollCnt = 0 ∧
    (State.resetWith cfg).wphase = .idle ∧ (State.resetWith cfg).done = false ∧ (State.resetWith cfg).err = false ∧
    (State.resetWith cfg).errcode = 0#2 ∧ (State.resetWith cfg).rbit = false ∧
    (State.resetWith cfg).upc = none ∧ (State.resetWith cfg).op = none ∧ (State.resetWith cfg).addr = none ∧
    (State.resetWith cfg).len = none ∧ (State.resetWith cfg).wdata = none ∧ (State.resetWith cfg).srLast = none ∧
    (State.resetWith cfg).val = none ∧ (State.resetWith cfg).rdata = none ∧
    (State.resetWith cfg).cfg = cfg

/-- 70_reset_and_hazards.md R332: reset at any time, also while a command runs: no `COMPLETE`, a `CSH` exactly when a
frame was open, every register at its reset value, the configuration kept, and the device going on with what it was
doing. -/
def Obligations.ResetAbandonsTheCommand : Prop :=
  ∀ (s : State) (rest : List HostAct), s.rdm.event = none → s.env.acts = .reset :: rest →
    ∃ t, step s = .next t ∧
      t = { State.resetWith s.cfg with
            rdm := { s.rdm with event := if s.csN = false ∧ s.cfg.rdmAttached = true then some .frameEnd else none },
            env := { s.env with acts := rest },
            trace := s.trace ++ (if s.csN then [] else [.csh]) }

/-! ### The wire instructions, as the reference device model runs them -/

/-- A state whose device has a frame to act on and is free to act: not busy, not powered down. -/
structure FrameArrived (s : State) : Prop where
  event : s.rdm.event = some .frameEnd
  idle : s.rdm.wip = false
  awake : s.rdm.dpd = false

/-- WRITE-ENABLE and WRITE-DISABLE (20_memory.md R103): `WEL` is set, or cleared, and nothing else changes. -/
def Obligations.EnableAndDisableMoveTheLatch : Prop :=
  ∀ (s : State) (tail : List Byte), FrameArrived s →
    exec (.wireWriteEnable tail) s = .next { s with rdm := { s.rdm with wel := true, event := none } } ∧
    exec (.wireWriteDisable tail) s = .next { s with rdm := { s.rdm with wel := false, event := none } }

/-- DEEP-POWER-DOWN (20_memory.md R103), and RELEASE/READ-ID, busy or not: the first enters the mode, the second leaves
it, and nothing else changes. -/
def Obligations.PowerDownAndRelease : Prop :=
  ∀ (s : State) (tail : List Byte),
    (FrameArrived s →
      exec (.wireDeepPowerDown tail) s = .next { s with rdm := { s.rdm with dpd := true, event := none } }) ∧
    (s.rdm.event = some .frameEnd →
      exec (.wireReleaseReadId tail) s = .next { s with rdm := { s.rdm with dpd := false, event := none } })

/-- WRITE, WRITE-STATUS, PAGE-ERASE, SECTOR-ERASE and CHIP-ERASE with the latch set and their bytes received
(20_memory.md R103, R104, R111, R113): the device is busy for a drawn number of polls with its effect pending, judged by
the protection level of now; neither the array nor any register of the block has changed. -/
def Obligations.WriteClassFramesStartACycle : Prop :=
  ∀ (s : State) (tail : List Byte) (n : BusyLen) (l : List BusyLen), FrameArrived s → s.rdm.wel = true →
    s.env.busyDraws = n :: l →
    ∀ c ∈ [(Instr.wireWrite tail, s.cfg.na + 1,
              Effect.write (frameAddress s.cfg tail) (tail.drop s.cfg.na)),
           (Instr.wireWriteStatus tail, 1, Effect.writeStatus (tail.headD 0#8)),
           (Instr.wirePageErase tail, s.cfg.na, Effect.erasePage (frameAddress s.cfg tail)),
           (Instr.wireSectorErase tail, s.cfg.na, Effect.eraseSector (frameAddress s.cfg tail)),
           (Instr.wireChipErase tail, 0, Effect.eraseAll)],
      c.2.1 ≤ tail.length →
      exec c.1 s = .next { s with
        rdm := { s.rdm with
          wip := true, pending := some { effect := c.2.2, bp := s.rdm.bp }, busyLeft := n, event := none },
        env := { s.env with busyDraws := l } }

/-- The same five with the latch clear, or with too few bytes received (20_memory.md R103, R115): nothing happens. -/
def Obligations.WriteClassFramesNeedTheLatch : Prop :=
  ∀ (s : State) (tail : List Byte), FrameArrived s →
    ∀ c ∈ [(Instr.wireWrite tail, s.cfg.na + 1), (Instr.wireWriteStatus tail, 1),
           (Instr.wirePageErase tail, s.cfg.na), (Instr.wireSectorErase tail, s.cfg.na),
           (Instr.wireChipErase tail, 0)],
      s.rdm.wel = false ∨ tail.length < c.2 →
      exec c.1 s = .next { s with rdm := { s.rdm with event := none } }

/-- READ and READ-STATUS frames do nothing at their end (20_memory.md R103), and while the device is busy, or powered down
for any opcode but 0xAB, no frame does anything. -/
def Obligations.FrameEndsThatDoNothing : Prop :=
  ∀ (s : State) (tail : List Byte) (fb : List Byte) (i : Instr), s.rdm.event = some .frameEnd →
    exec (.wireRead tail) s = .next { s with rdm := { s.rdm with event := none } } ∧
    exec (.wireReadStatus tail) s = .next { s with rdm := { s.rdm with event := none } } ∧
    (decodeFrame fb = .ok i → s.rdm.dpd = false → s.rdm.wip = true →
      exec i s = .next { s with rdm := { s.rdm with event := none } }) ∧
    (decodeFrame fb = .ok i → s.rdm.dpd = true → (∀ l, fb ≠ 0xAB#8 :: l) →
      exec i s = .next { s with rdm := { s.rdm with event := none } })

/-- READ's data byte `k` answers `ARRAY[(a + k) mod DEVICE_SIZE]` where that holds a byte, a draw where it holds ⊥
(20_memory.md R102, R108). -/
def Obligations.ReadAnswersTheArray : Prop :=
  ∀ (s : State) (tail : List Byte) (k : Nat), s.rdm.event = some .byte → s.rdm.dpd = false → s.rdm.wip = false →
    tail.length = s.cfg.na + 1 + k →
    (∀ v, s.rdm.array.read ((frameAddress s.cfg tail + k) % s.cfg.deviceSize) = some v →
      exec (.wireRead tail) s = .next { s with rdm := { s.rdm with out := v, event := none } }) ∧
    (∀ d l, s.rdm.array.read ((frameAddress s.cfg tail + k) % s.cfg.deviceSize) = none →
      s.env.byteDraws = d :: l →
      exec (.wireRead tail) s =
        .next { s with rdm := { s.rdm with out := d, event := none }, env := { s.env with byteDraws := l } })

/-- READ-STATUS answers the status byte, `NV[7] : 0b000 : NV[3] : NV[2] : WEL : WIP`, after the poll has counted down or
ended the write cycle (20_memory.md R104, R105). -/
def Obligations.ReadStatusAnswersAndCounts : Prop :=
  ∀ (s : State) (tail : List Byte), s.rdm.event = some .byte → s.rdm.dpd = false → tail ≠ [] →
    ∃ d : Rdm, exec (.wireReadStatus tail) s = .next { s with rdm := d } ∧
      d.out.getLsbD 0 = d.wip ∧ d.out.getLsbD 1 = d.wel ∧ d.out.getLsbD 2 = d.bp0 ∧ d.out.getLsbD 3 = d.bp1 ∧
      d.out.extractLsb' 4 3 = 0#3 ∧ d.out.getLsbD 7 = d.wpen ∧
      (s.rdm.wip = false → d = { s.rdm with out := d.out, event := none }) ∧
      (∀ n, s.rdm.wip = true → s.rdm.busyLeft = .polls (n + 1) →
        d = { s.rdm with busyLeft := .polls n, out := d.out, event := none }) ∧
      (s.rdm.wip = true → s.rdm.busyLeft = .forever → d = { s.rdm with out := d.out, event := none }) ∧
      (∀ c, s.rdm.wip = true → s.rdm.busyLeft = .polls 0 → s.rdm.pending = some c →
        d = { c.effect.apply s.cfg c.bp s.rdm with
              pending := none, wip := false, wel := false, out := d.out, event := none })

/-- RELEASE/READ-ID answers `MFR_ID` from the fifth byte on, powered down or not, unless busy (20_memory.md R102, R114). -/
def Obligations.ReadIdAnswersTheId : Prop :=
  ∀ (s : State) (tail : List Byte), s.rdm.event = some .byte → s.rdm.wip = false → 4 ≤ tail.length →
    exec (.wireReleaseReadId tail) s = .next { s with rdm := { s.rdm with out := s.cfg.mfrId, event := none } }

/-- Every byte the statements before this one give no answer for is answered by a draw (20_memory.md R102): the opcode
byte, every byte to a powered-down device but for 0xAB, every byte of an opcode that answers nothing, the address bytes of
READ, the dummies of 0xAB, the data and ID bytes of a busy device, and every byte of a frame whose opcode is none of the
set. -/
def Obligations.OtherBytesAnswerADraw : Prop :=
  ∀ (s : State) (d : Byte) (l : List Byte), s.rdm.event = some .byte → s.env.byteDraws = d :: l →
    (∀ fb i, decodeFrame fb = .ok i →
      fb.length = 1 ∨ (s.rdm.dpd = true ∧ ∀ r, fb ≠ 0xAB#8 :: r) ∨
        (∀ r, fb ≠ 0x05#8 :: r ∧ fb ≠ 0x03#8 :: r ∧ fb ≠ 0xAB#8 :: r) →
      exec i s = .next { s with rdm := { s.rdm with out := d, event := none }, env := { s.env with byteDraws := l } }) ∧
    (∀ tail : List Byte, tail.length ≤ s.cfg.na ∨ s.rdm.wip = true →
      exec (.wireRead tail) s =
        .next { s with rdm := { s.rdm with out := d, event := none }, env := { s.env with byteDraws := l } }) ∧
    (∀ tail : List Byte, tail.length ≤ 3 ∨ s.rdm.wip = true →
      exec (.wireReleaseReadId tail) s =
        .next { s with rdm := { s.rdm with out := d, event := none }, env := { s.env with byteDraws := l } }) ∧
    (∀ op tail, s.rdm.fb = op :: tail →
      op ∉ [0x03#8, 0x02#8, 0x06#8, 0x04#8, 0x05#8, 0x01#8, 0x42#8, 0xD8#8, 0xC7#8, 0xAB#8, 0xB9#8] →
      step s = .next { s with rdm := { s.rdm with out := d, event := none }, env := { s.env with byteDraws := l } })

/-! ### The effects of a write cycle on the device array -/

/-- A data write (20_memory.md R106): each byte goes to its address, wrapped in the page; where several go to one address
the last is there, if the address is not protected; every address that is none of these, or is protected, reads as
before. -/
def Obligations.PageWriteStoresTheBytes : Prop :=
  ∀ (cfg : Config) (bp : BitVec 2) (d : Rdm) (a : Nat) (data : List Byte),
    cfg.wf = true → a < cfg.deviceSize →
    (∀ i, pageAddress cfg a i = a - a % cfg.pageSize + (a % cfg.pageSize + i) % cfg.pageSize) ∧
    (∀ i v, data[i]? = some v → protectedAt cfg bp (pageAddress cfg a i) = false →
      (∀ j, i < j → j < data.length → pageAddress cfg a j ≠ pageAddress cfg a i) →
      ((Effect.write a data).apply cfg bp d).array.read (pageAddress cfg a i) = some v) ∧
    (∀ x, (∀ i, i < data.length → x ≠ pageAddress cfg a i) ∨ protectedAt cfg bp x = true →
      ((Effect.write a data).apply cfg bp d).array.read x = d.array.read x) ∧
    { (Effect.write a data).apply cfg bp d with array := d.array } = d

/-- 20_memory.md R109: every existing, unprotected address of the range reads `ERASED_VALUE`, whose default is 0xFF, every
other address as before. -/
def Obligations.EraseClearsItsRange : Prop :=
  ∀ (cfg : Config) (bp : BitVec 2) (d : Rdm) (a x : Nat),
    ((Effect.eraseSector a).apply cfg bp d).array.read x =
      (if x < cfg.deviceSize ∧ x / 2 ^ cfg.sectorShift = a / 2 ^ cfg.sectorShift ∧ protectedAt cfg bp x = false
       then some cfg.erasedValue else d.array.read x) ∧
    ((Effect.erasePage a).apply cfg bp d).array.read x =
      (if x < cfg.deviceSize ∧ x - x % cfg.pageSize = a - a % cfg.pageSize ∧ protectedAt cfg bp x = false
       then some cfg.erasedValue else d.array.read x) ∧
    (Effect.eraseAll.apply cfg bp d).array.read x =
      (if x < cfg.deviceSize ∧ protectedAt cfg bp x = false then some cfg.erasedValue else d.array.read x) ∧
    Config.initial.erasedValue = 0xFF#8

/-- 20_memory.md R107: a status write sets `NV.BP0`, `NV.BP1` and `NV.WPEN` from bits 2, 3 and 7 and ignores the other
bits. -/
def Obligations.StatusWriteSetsNv : Prop :=
  ∀ (cfg : Config) (bp : BitVec 2) (d : Rdm) (v : Byte),
    (Effect.writeStatus v).apply cfg bp d =
      { d with bp0 := v.getLsbD 2, bp1 := v.getLsbD 3, wpen := v.getLsbD 7 }

/-- 20_memory.md R111: the protected addresses of each level, and the level that counts: `NV` as it stands when the cycle
starts, whatever it is when the effect is applied. That `DEVICE_SIZE/2` rounds down for an odd size is the model's choice
(log 13), as the quotients of natural numbers here do. -/
def Obligations.ProtectedRanges : Prop :=
  ∀ (cfg : Config) (x : Nat) (s : State) (d : Rdm) (e : Effect) (c : Cycle),
    (s.startCycle e).rdm.pending = some { effect := e, bp := BitVec.ofBool s.rdm.bp1 ++ BitVec.ofBool s.rdm.bp0 } ∧
    (d.pending = some c → (d.endCycle cfg).array = (c.effect.apply cfg c.bp d).array) ∧
    protectedAt cfg 0b00#2 x = false ∧
    protectedAt cfg 0b01#2 x = decide (cfg.deviceSize - cfg.deviceSize / 4 ≤ x) ∧
    protectedAt cfg 0b10#2 x = decide (cfg.deviceSize / 2 ≤ x) ∧
    protectedAt cfg 0b11#2 x = true

/-- The device array changes in one way only (20_memory.md R80, R103, R104, R111): a write cycle that ends, at an address
that exists and was not protected when the cycle started. (A cycle of the device's power, an act of the world outside, is
the exception.) -/
def Obligations.ArrayChangesOnlyByAWriteCycle : Prop :=
  ∀ (s t : State) (x : Nat), step s = .next t → t.rdm.array.read x ≠ s.rdm.array.read x →
    (∃ rest, s.env.acts = .devicePowerCycle :: rest) ∨
    ∃ c, s.rdm.pending = some c ∧ s.rdm.wip = true ∧ s.rdm.busyLeft = .polls 0 ∧ x < s.cfg.deviceSize ∧
      protectedAt s.cfg c.bp x = false

/-! ### Invariants of every step -/

/-- Every step keeps the device array in its canonical form, with addresses that exist only. -/
def Obligations.MemoryStaysSound : Prop :=
  ∀ s t : State, MemorySound s → step s = .next t → MemorySound t

/-- Every step keeps the response registers in agreement (10_state.md R39). -/
def Obligations.ResponseStaysSound : Prop :=
  ∀ s t : State, ResponseSound s → step s = .next t → ResponseSound t

/-- Every step keeps the device sound (20_memory.md R103, R104). -/
def Obligations.DeviceStaysSound : Prop :=
  ∀ s t : State, DeviceSound s → step s = .next t → DeviceSound t

/-- Every step keeps the sequencer sound: its frames open and close in turn, so that `CS_N` is 1 whenever no command runs
(10_state.md R43), and nothing is used before it holds a value. -/
def Obligations.SequencerStaysSound : Prop :=
  ∀ s t : State, SequencerSound s → step s = .next t → SequencerSound t

/-- All four hold after reset, under any configuration; the machine's own reset state is reset under the configuration of
log 2, a DESIGN CHOICE of the model where the spec leaves a parameter open. -/
def Obligations.ResetIsSound : Prop :=
  (∀ cfg : Config, MemorySound (State.resetWith cfg) ∧ ResponseSound (State.resetWith cfg) ∧
    DeviceSound (State.resetWith cfg) ∧ SequencerSound (State.resetWith cfg)) ∧
  State.reset = State.resetWith Config.initial

/-- A machine whose sequencer is sound stops in one way only: a host read of a register that holds no value
(00_scope.md R18). -/
def Obligations.OnlyHostReadsStopTheMachine : Prop :=
  ∀ s : State, SequencerSound s →
    (∀ r, step s ≠ .refused r) ∧
    ∀ f, step s = .fault f → ∃ r rest, s.env.acts = .read r :: rest ∧ s.hostRead r = .error f

/-- 43_write_path.md R237, R238 and 30_encoding.md R153: the byte sent right after a `CSL` is an opcode the sequencer
sends, and a write-class one only with `WPHASE` = WRITE_ENABLED and the last status byte read showing WIP = 0. -/
def Obligations.WriteClassOpcodesAreEnabledAndSettled : Prop :=
  ∀ (s t : State) (o : Byte) (a : Answer), SequencerSound s → step s = .next t →
    t.trace = s.trace ++ [.xfer o a] → (frameView s.trace).first = true →
    sentOpcode o = true ∧
    (writeClass o = true → t.wphase = .writeEnabled ∧ ∃ v, t.srLast = some v ∧ v.getLsbD 0 = false)

/-- 10_state.md R38: `WPHASE` moves at reset, at the `CSH` that ends an enable frame or a write-class frame, and when an
await reads a status byte with bit 0 = 0 and exits, which is at its test and nowhere else; no other event changes it. -/
def Obligations.WphaseMovesOnlyAsListed : Prop :=
  ∀ s t : State, SequencerSound s → step s = .next t →
    (t.wphase = s.wphase ∨
      (t.wphase = .idle ∧ ∃ rest, s.env.acts = .reset :: rest) ∨
      (∃ b, t.trace = s.trace ++ [.csh] ∧ s.seq = .run ∧ (frameView s.trace).opcode = some b ∧
        some t.wphase = phaseMove b) ∨
      (t.wphase = .idle ∧ s.seq = .run ∧ ∃ u v r, s.upc = some u ∧ u.code = .compute .pollTest :: r ∧
        u.s = some v ∧ v.getLsbD 0 = false)) ∧
    ∀ b, t.trace = s.trace ++ [.csh] → s.seq = .run → t.seq = .run → (frameView s.trace).opcode = some b →
      t.wphase = (phaseMove b).getD s.wphase

/-- 10_state.md R30: no step changes the configuration. -/
def Obligations.ConfigurationNeverChanges : Prop :=
  ∀ s t : State, step s = .next t → t.cfg = s.cfg

/-- 10_state.md R40: a step performs at most one bus event, and the trace only grows. -/
def Obligations.AtMostOneBusEventPerStep : Prop :=
  ∀ s t : State, step s = .next t → ∃ l, t.trace = s.trace ++ l ∧ busCount l ≤ 1

/-- 10_state.md R35: `SR_LAST` is written only by a running command's `read_status`, with the byte it received, or emptied
by reset; ACCEPT does not clear it. -/
def Obligations.SrLastWrittenByStatusReadsOnly : Prop :=
  ∀ s t : State, step s = .next t → t.srLast ≠ s.srLast →
    (t.srLast = none ∧ ∃ rest, s.env.acts = .reset :: rest) ∨
    (s.seq = .run ∧ ∃ u v, s.upc = some u ∧ u.s = some v ∧ t.srLast = some v)

/-! ### A write and a read of the attached device -/

/-- The round trip of 95_test_vectors.md E6, with the condition of 90_conflicts.md C10: on an attached device that is idle,
awake and does not protect address `a`, WRITE of one byte `v` at `a` and then READ of one byte at `a` both complete without
an error and leave `RDATA` = [v], for every number of busy polls of the write cycle. `t` is the state where the WRITE is
complete and the host still holds the READ. -/
def Obligations.WriteThenReadReturnsTheByte : Prop :=
  ∀ (s : State) (a : Addr) (v : Byte) (n : Nat) (l : List BusyLen),
    s.cfg.wf = true → s.cfg.rdmAttached = true → s.cfg.pollLimit = none → a.toNat < s.cfg.deviceSize →
    s.seq = .idle → s.csN = true → s.rdm.event = none → s.rdm.wip = false → s.rdm.dpd = false →
    s.rdm.pending = none → protectedAt s.cfg s.rdm.bp a.toNat = false → s.env.busyDraws = .polls n :: l →
    s.env.acts = [.accept (hostWord 0x01#5 a) 1 [v], .accept (hostWord 0x02#5 a) 1 []] →
    ∃ j t k u, runs j s = .next t ∧ t.seq = .idle ∧ t.env.acts = [.accept (hostWord 0x02#5 a) 1 []] ∧
      t.done = true ∧ t.err = false ∧ runs k t = .next u ∧ u.seq = .idle ∧ u.env.acts = [] ∧ u.done = true ∧
      u.err = false ∧ u.rdata = some [some v] ∧ u.rdm.array.read a.toNat = some v
end

