-- ==== Sys2Proof/Laws/Decode.lean ====
section
/-! SUPPORT. The fields of a command word that the encoder wrote, and back. -/

namespace Sys2Proof

/-- The bits of a command word, from its fields (30_encoding.md R140). -/
theorem getLsbD_hostWord (op : BitVec 5) (addr : Addr) (i : Nat) :
    (hostWord op addr).getLsbD i =
      if i < 5 then op.getLsbD i else if i < 8 then false else addr.getLsbD (i - 8) := by
  change BitVec.getLsbD (w := 24 + (3 + 5)) (addr ++ (0#3 ++ op)) i = _
  rw [BitVec.getLsbD_append, BitVec.getLsbD_append]
  by_cases h5 : i < 5
  · simp [h5, show i < 8 by omega]
  · by_cases h8 : i < 8 <;> simp [h5, h8]

@[simp] theorem opField_hostWord (op : BitVec 5) (addr : Addr) : opField (hostWord op addr) = op := by
  unfold opField
  ext i hi
  simp [getLsbD_hostWord, hi]

@[simp] theorem rsvField_hostWord (op : BitVec 5) (addr : Addr) : rsvField (hostWord op addr) = 0#3 := by
  unfold rsvField
  ext i hi
  simp [getLsbD_hostWord, show 5 + i < 8 by omega]

@[simp] theorem addrField_hostWord (op : BitVec 5) (addr : Addr) : addrField (hostWord op addr) = addr := by
  unfold addrField
  ext i hi
  simp [getLsbD_hostWord, hi, show ¬ 8 + i < 5 by omega]

/-- A command word with `RSV = 0` is the word of its fields. -/
theorem hostWord_fields (w : CmdWord) (h : rsvField w = 0#3) : hostWord (opField w) (addrField w) = w := by
  have hb : ∀ j, j < 3 → w.getLsbD (5 + j) = false := by
    intro j hj
    have := congrArg (fun v : BitVec 3 => v.getLsbD j) h
    simpa [rsvField, hj] using this
  apply BitVec.eq_of_getLsbD_eq
  intro i hi
  rw [getLsbD_hostWord]
  by_cases h5 : i < 5
  · simp [h5, opField]
  · by_cases h8 : i < 8
    · have := hb (i - 5) (by omega)
      rw [show 5 + (i - 5) = i by omega] at this
      simp [h5, h8, this]
    · simp [h5, h8, addrField, show i - 8 < 24 by omega, show 8 + (i - 8) = i by omega]

end Sys2Proof
end

