-- ==== Sys2Proof/Laws/Memory.lean ====
section
/-! SUPPORT. The laws of the device array: read after write, and that every memory operation keeps the canonical form
and the bound on addresses. -/

namespace Sys2Proof.Machine

/-- A list of cells that rises above `lo` rises above anything no greater. -/
theorem Memory.risesAbove_mono {lo lo' : Nat} (h : lo' ≤ lo) :
    ∀ m : Memory, Memory.risesAbove (some lo) m = true → Memory.risesAbove (some lo') m = true
  | [], _ => rfl
  | (x, _) :: m, hm => by
    simp only [Memory.risesAbove, Bool.and_eq_true, decide_eq_true_eq] at hm ⊢
    exact ⟨by omega, hm.2⟩

/-- A list of cells that rises above something rises. -/
theorem Memory.wf_of_risesAbove {lo : Nat} : ∀ {m : Memory}, Memory.risesAbove (some lo) m = true → m.wf = true
  | [], _ => rfl
  | (x, _) :: m, h => by
    simp only [Memory.risesAbove, Bool.and_eq_true, decide_eq_true_eq] at h
    simpa [Memory.wf, Memory.risesAbove] using h.2

/-- An address at or below the bound of a rising list is not listed. -/
theorem Memory.read_of_risesAbove {lo x : Nat} (hx : x ≤ lo) :
    ∀ {m : Memory}, Memory.risesAbove (some lo) m = true → Memory.read m x = none
  | [], _ => rfl
  | (y, v) :: m, h => by
    simp only [Memory.risesAbove, Bool.and_eq_true, decide_eq_true_eq] at h
    have hne : y ≠ x := by omega
    simp only [Memory.read, if_neg hne]
    exact Memory.read_of_risesAbove hx (Memory.risesAbove_mono (by omega) m h.2)

theorem Memory.risesAbove_write {lo x : Nat} (v : Byte) (hx : lo < x) :
    ∀ {m : Memory}, Memory.risesAbove (some lo) m = true → Memory.risesAbove (some lo) (Memory.write m x v) = true
  | [], _ => by simp [Memory.write, Memory.risesAbove, hx]
  | (y, u) :: m, h => by
    simp only [Memory.risesAbove, Bool.and_eq_true, decide_eq_true_eq] at h
    unfold Memory.write
    split
    · simp [Memory.risesAbove, *]
    · split
      · next heq => subst heq; simp [Memory.risesAbove, *]
      · simp only [Memory.risesAbove, Bool.and_eq_true, decide_eq_true_eq]
        exact ⟨h.1, Memory.risesAbove_write v (by omega) h.2⟩

/-- A write keeps the canonical form. -/
theorem Memory.wf_write (m : Memory) (x : Nat) (v : Byte) (h : m.wf = true) : (Memory.write m x v).wf = true := by
  match m with
  | [] => rfl
  | (y, u) :: m =>
    simp only [Memory.wf, Memory.risesAbove] at h
    unfold Memory.write
    split
    · simp [Memory.wf, Memory.risesAbove, *]
    · split
      · next heq => subst heq; simpa [Memory.wf, Memory.risesAbove] using h
      · simpa [Memory.wf, Memory.risesAbove] using Memory.risesAbove_write v (by omega) h

/-- A read of the address just written gives the byte written. -/
@[simp] theorem Memory.read_write_same (m : Memory) (x : Nat) (v : Byte) : Memory.read (Memory.write m x v) x = some v := by
  induction m with
  | nil => simp [Memory.write, Memory.read]
  | cons c m ih =>
    obtain ⟨y, u⟩ := c
    unfold Memory.write
    split
    · simp [Memory.read]
    · split
      · simp [Memory.read]
      · next hne => simp [Memory.read, ih, Ne.symm hne]

/-- A write leaves every other address alone. -/
theorem Memory.read_write_other (m : Memory) {x y : Nat} (v : Byte) (hxy : y ≠ x) :
    Memory.read (Memory.write m x v) y = Memory.read m y := by
  induction m with
  | nil => simp [Memory.write, Memory.read, Ne.symm hxy]
  | cons c m ih =>
    obtain ⟨z, u⟩ := c
    unfold Memory.write
    split
    · simp [Memory.read, Ne.symm hxy]
    · split
      · next heq => subst heq; simp [Memory.read, Ne.symm hxy]
      · simp [Memory.read, ih]

/-- A write to an existing address keeps every listed address existing. -/
theorem Memory.below_write {size : Nat} (m : Memory) {x : Nat} (v : Byte) (hx : x < size)
    (h : Memory.below size m = true) : Memory.below size (Memory.write m x v) = true := by
  induction m with
  | nil => simp [Memory.write, Memory.below, hx]
  | cons c m ih =>
    obtain ⟨y, u⟩ := c
    simp only [Memory.below, List.all_cons, Bool.and_eq_true, decide_eq_true_eq] at h ih ⊢
    unfold Memory.write
    split
    · simp [hx, h.1, h.2]
    · split
      · simp [hx, h.2]
      · simp [h.1, ih h.2]

theorem Memory.wf_fill (p : Nat → Bool) (v : Byte) (n : Nat) :
    ∀ m : Memory, m.wf = true → (Memory.fill p v n m).wf = true := by
  induction n with
  | zero => exact fun m h => h
  | succ n ih =>
    intro m h
    refine ih _ ?_
    split
    · exact Memory.wf_write m n v h
    · exact h

theorem Memory.below_fill {size : Nat} (p : Nat → Bool) (v : Byte) (n : Nat) (hn : n ≤ size) :
    ∀ m : Memory, Memory.below size m = true → Memory.below size (Memory.fill p v n m) = true := by
  induction n with
  | zero => exact fun m h => h
  | succ n ih =>
    intro m h
    refine ih (by omega) _ ?_
    split
    · exact Memory.below_write m v (by omega) h
    · exact h

/-- A fill writes `v` to exactly the selected addresses below its bound. -/
theorem Memory.read_fill (p : Nat → Bool) (v : Byte) (n x : Nat) :
    ∀ m : Memory, Memory.read (Memory.fill p v n m) x = if x < n ∧ p x = true then some v else Memory.read m x := by
  induction n with
  | zero => simp [Memory.fill]
  | succ n ih =>
    intro m
    rw [Memory.fill, ih]
    rcases Nat.lt_trichotomy x n with h | h | h
    · have h1 : Memory.read (if p n = true then Memory.write m n v else m) x = Memory.read m x := by
        split
        · exact Memory.read_write_other m v (by omega)
        · rfl
      simp [h, h1, Nat.lt_succ_of_lt h]
    · subst h
      by_cases hp : p x = true <;> simp [hp]
    · have h1 : Memory.read (if p n = true then Memory.write m n v else m) x = Memory.read m x := by
        split
        · exact Memory.read_write_other m v (by omega)
        · rfl
      have h2 : ¬ x < n := by omega
      have h3 : ¬ x < n + 1 := by omega
      simp [h1, h2, h3]

/-! ### The operations of the device on its array -/

theorem writeUnprotected_wf (cfg : Config) (bp : BitVec 2) (m : Memory) (x : Nat) (v : Byte) (h : m.wf = true) :
    (writeUnprotected cfg bp m x v).wf = true := by
  unfold writeUnprotected
  split
  · exact Memory.wf_write m x v h
  · exact h

theorem writeUnprotected_below (cfg : Config) (bp : BitVec 2) (m : Memory) (x : Nat) (v : Byte)
    (h : Memory.below cfg.deviceSize m = true) : Memory.below cfg.deviceSize (writeUnprotected cfg bp m x v) = true := by
  unfold writeUnprotected
  split
  · next hx =>
    simp only [Bool.and_eq_true, decide_eq_true_eq] at hx
    exact Memory.below_write m v hx.1 h
  · exact h

theorem writePage_wf (cfg : Config) (bp : BitVec 2) (a : Nat) (data : List Byte) :
    ∀ (i : Nat) (m : Memory), m.wf = true → (writePage cfg bp a i data m).wf = true := by
  induction data with
  | nil => exact fun _ _ h => h
  | cons v data ih => exact fun i m h => ih _ _ (writeUnprotected_wf cfg bp m _ v h)

theorem writePage_below (cfg : Config) (bp : BitVec 2) (a : Nat) (data : List Byte) :
    ∀ (i : Nat) (m : Memory), Memory.below cfg.deviceSize m = true →
      Memory.below cfg.deviceSize (writePage cfg bp a i data m) = true := by
  induction data with
  | nil => exact fun _ _ h => h
  | cons v data ih => exact fun i m h => ih _ _ (writeUnprotected_below cfg bp m _ v h)

/-- Every effect of a write cycle keeps the canonical form of the array. -/
theorem Effect.onArray_wf (cfg : Config) (bp : BitVec 2) (m : Memory) (e : Effect) (h : m.wf = true) :
    (e.onArray cfg bp m).wf = true := by
  cases e with
  | write a data => exact writePage_wf cfg bp a data 0 m h
  | writeStatus v => exact h
  | eraseSector a => exact Memory.wf_fill _ _ _ m h
  | erasePage a => exact Memory.wf_fill _ _ _ m h
  | eraseAll => exact Memory.wf_fill _ _ _ m h

/-- Every effect of a write cycle keeps the array inside the device. -/
theorem Effect.onArray_below (cfg : Config) (bp : BitVec 2) (m : Memory) (e : Effect)
    (h : Memory.below cfg.deviceSize m = true) : Memory.below cfg.deviceSize (e.onArray cfg bp m) = true := by
  cases e with
  | write a data => exact writePage_below cfg bp a data 0 m h
  | writeStatus v => exact h
  | eraseSector a => exact Memory.below_fill _ _ _ (Nat.le_refl _) m h
  | erasePage a => exact Memory.below_fill _ _ _ (Nat.le_refl _) m h
  | eraseAll => exact Memory.below_fill _ _ _ (Nat.le_refl _) m h

end Sys2Proof.Machine
end

