-- ==== Sys2Proof/Laws/State.lean ====
section
/-! SUPPORT. What each update of the state does to each field: one lemma per field per update. -/

namespace Sys2Proof.Machine

/-! ### `State.record` -/

@[simp] theorem State.record_csN (s : State) (e : Event) : (s.record e).csN = s.csN := rfl
@[simp] theorem State.record_seq (s : State) (e : Event) : (s.record e).seq = s.seq := rfl
@[simp] theorem State.record_upc (s : State) (e : Event) : (s.record e).upc = s.upc := rfl
@[simp] theorem State.record_op (s : State) (e : Event) : (s.record e).op = s.op := rfl
@[simp] theorem State.record_addr (s : State) (e : Event) : (s.record e).addr = s.addr := rfl
@[simp] theorem State.record_len (s : State) (e : Event) : (s.record e).len = s.len := rfl
@[simp] theorem State.record_wdata (s : State) (e : Event) : (s.record e).wdata = s.wdata := rfl
@[simp] theorem State.record_srLast (s : State) (e : Event) : (s.record e).srLast = s.srLast := rfl
@[simp] theorem State.record_val (s : State) (e : Event) : (s.record e).val = s.val := rfl
@[simp] theorem State.record_pollCnt (s : State) (e : Event) : (s.record e).pollCnt = s.pollCnt := rfl
@[simp] theorem State.record_wphase (s : State) (e : Event) : (s.record e).wphase = s.wphase := rfl
@[simp] theorem State.record_done (s : State) (e : Event) : (s.record e).done = s.done := rfl
@[simp] theorem State.record_err (s : State) (e : Event) : (s.record e).err = s.err := rfl
@[simp] theorem State.record_errcode (s : State) (e : Event) : (s.record e).errcode = s.errcode := rfl
@[simp] theorem State.record_rbit (s : State) (e : Event) : (s.record e).rbit = s.rbit := rfl
@[simp] theorem State.record_rdata (s : State) (e : Event) : (s.record e).rdata = s.rdata := rfl
@[simp] theorem State.record_cfg (s : State) (e : Event) : (s.record e).cfg = s.cfg := rfl
@[simp] theorem State.record_rdm (s : State) (e : Event) : (s.record e).rdm = s.rdm := rfl
@[simp] theorem State.record_env (s : State) (e : Event) : (s.record e).env = s.env := rfl
@[simp] theorem State.record_trace (s : State) (e : Event) : (s.record e).trace = s.trace ++ [e] := rfl

/-! ### `State.goTo` -/

@[simp] theorem State.goTo_csN (s : State) (code : List Micro) : (s.goTo code).csN = s.csN := rfl
@[simp] theorem State.goTo_seq (s : State) (code : List Micro) : (s.goTo code).seq = s.seq := rfl
@[simp] theorem State.goTo_upc (s : State) (code : List Micro) : (s.goTo code).upc = some { code := code, s := s.upc.bind Upc.s } := rfl
@[simp] theorem State.goTo_op (s : State) (code : List Micro) : (s.goTo code).op = s.op := rfl
@[simp] theorem State.goTo_addr (s : State) (code : List Micro) : (s.goTo code).addr = s.addr := rfl
@[simp] theorem State.goTo_len (s : State) (code : List Micro) : (s.goTo code).len = s.len := rfl
@[simp] theorem State.goTo_wdata (s : State) (code : List Micro) : (s.goTo code).wdata = s.wdata := rfl
@[simp] theorem State.goTo_srLast (s : State) (code : List Micro) : (s.goTo code).srLast = s.srLast := rfl
@[simp] theorem State.goTo_val (s : State) (code : List Micro) : (s.goTo code).val = s.val := rfl
@[simp] theorem State.goTo_pollCnt (s : State) (code : List Micro) : (s.goTo code).pollCnt = s.pollCnt := rfl
@[simp] theorem State.goTo_wphase (s : State) (code : List Micro) : (s.goTo code).wphase = s.wphase := rfl
@[simp] theorem State.goTo_done (s : State) (code : List Micro) : (s.goTo code).done = s.done := rfl
@[simp] theorem State.goTo_err (s : State) (code : List Micro) : (s.goTo code).err = s.err := rfl
@[simp] theorem State.goTo_errcode (s : State) (code : List Micro) : (s.goTo code).errcode = s.errcode := rfl
@[simp] theorem State.goTo_rbit (s : State) (code : List Micro) : (s.goTo code).rbit = s.rbit := rfl
@[simp] theorem State.goTo_rdata (s : State) (code : List Micro) : (s.goTo code).rdata = s.rdata := rfl
@[simp] theorem State.goTo_cfg (s : State) (code : List Micro) : (s.goTo code).cfg = s.cfg := rfl
@[simp] theorem State.goTo_rdm (s : State) (code : List Micro) : (s.goTo code).rdm = s.rdm := rfl
@[simp] theorem State.goTo_env (s : State) (code : List Micro) : (s.goTo code).env = s.env := rfl
@[simp] theorem State.goTo_trace (s : State) (code : List Micro) : (s.goTo code).trace = s.trace := rfl

/-! ### `State.setLocal` -/

@[simp] theorem State.setLocal_csN (s : State) (b : Byte) : (s.setLocal b).csN = s.csN := rfl
@[simp] theorem State.setLocal_seq (s : State) (b : Byte) : (s.setLocal b).seq = s.seq := rfl
@[simp] theorem State.setLocal_upc (s : State) (b : Byte) : (s.setLocal b).upc = s.upc.map fun u => { u with s := some b } := rfl
@[simp] theorem State.setLocal_op (s : State) (b : Byte) : (s.setLocal b).op = s.op := rfl
@[simp] theorem State.setLocal_addr (s : State) (b : Byte) : (s.setLocal b).addr = s.addr := rfl
@[simp] theorem State.setLocal_len (s : State) (b : Byte) : (s.setLocal b).len = s.len := rfl
@[simp] theorem State.setLocal_wdata (s : State) (b : Byte) : (s.setLocal b).wdata = s.wdata := rfl
@[simp] theorem State.setLocal_srLast (s : State) (b : Byte) : (s.setLocal b).srLast = s.srLast := rfl
@[simp] theorem State.setLocal_val (s : State) (b : Byte) : (s.setLocal b).val = s.val := rfl
@[simp] theorem State.setLocal_pollCnt (s : State) (b : Byte) : (s.setLocal b).pollCnt = s.pollCnt := rfl
@[simp] theorem State.setLocal_wphase (s : State) (b : Byte) : (s.setLocal b).wphase = s.wphase := rfl
@[simp] theorem State.setLocal_done (s : State) (b : Byte) : (s.setLocal b).done = s.done := rfl
@[simp] theorem State.setLocal_err (s : State) (b : Byte) : (s.setLocal b).err = s.err := rfl
@[simp] theorem State.setLocal_errcode (s : State) (b : Byte) : (s.setLocal b).errcode = s.errcode := rfl
@[simp] theorem State.setLocal_rbit (s : State) (b : Byte) : (s.setLocal b).rbit = s.rbit := rfl
@[simp] theorem State.setLocal_rdata (s : State) (b : Byte) : (s.setLocal b).rdata = s.rdata := rfl
@[simp] theorem State.setLocal_cfg (s : State) (b : Byte) : (s.setLocal b).cfg = s.cfg := rfl
@[simp] theorem State.setLocal_rdm (s : State) (b : Byte) : (s.setLocal b).rdm = s.rdm := rfl
@[simp] theorem State.setLocal_env (s : State) (b : Byte) : (s.setLocal b).env = s.env := rfl
@[simp] theorem State.setLocal_trace (s : State) (b : Byte) : (s.setLocal b).trace = s.trace := rfl

/-! ### `State.setSrLast` -/

@[simp] theorem State.setSrLast_csN (s : State) (b : Byte) : (s.setSrLast b).csN = s.csN := rfl
@[simp] theorem State.setSrLast_seq (s : State) (b : Byte) : (s.setSrLast b).seq = s.seq := rfl
@[simp] theorem State.setSrLast_upc (s : State) (b : Byte) : (s.setSrLast b).upc = s.upc := rfl
@[simp] theorem State.setSrLast_op (s : State) (b : Byte) : (s.setSrLast b).op = s.op := rfl
@[simp] theorem State.setSrLast_addr (s : State) (b : Byte) : (s.setSrLast b).addr = s.addr := rfl
@[simp] theorem State.setSrLast_len (s : State) (b : Byte) : (s.setSrLast b).len = s.len := rfl
@[simp] theorem State.setSrLast_wdata (s : State) (b : Byte) : (s.setSrLast b).wdata = s.wdata := rfl
@[simp] theorem State.setSrLast_srLast (s : State) (b : Byte) : (s.setSrLast b).srLast = some b := rfl
@[simp] theorem State.setSrLast_val (s : State) (b : Byte) : (s.setSrLast b).val = s.val := rfl
@[simp] theorem State.setSrLast_pollCnt (s : State) (b : Byte) : (s.setSrLast b).pollCnt = s.pollCnt := rfl
@[simp] theorem State.setSrLast_wphase (s : State) (b : Byte) : (s.setSrLast b).wphase = s.wphase := rfl
@[simp] theorem State.setSrLast_done (s : State) (b : Byte) : (s.setSrLast b).done = s.done := rfl
@[simp] theorem State.setSrLast_err (s : State) (b : Byte) : (s.setSrLast b).err = s.err := rfl
@[simp] theorem State.setSrLast_errcode (s : State) (b : Byte) : (s.setSrLast b).errcode = s.errcode := rfl
@[simp] theorem State.setSrLast_rbit (s : State) (b : Byte) : (s.setSrLast b).rbit = s.rbit := rfl
@[simp] theorem State.setSrLast_rdata (s : State) (b : Byte) : (s.setSrLast b).rdata = s.rdata := rfl
@[simp] theorem State.setSrLast_cfg (s : State) (b : Byte) : (s.setSrLast b).cfg = s.cfg := rfl
@[simp] theorem State.setSrLast_rdm (s : State) (b : Byte) : (s.setSrLast b).rdm = s.rdm := rfl
@[simp] theorem State.setSrLast_env (s : State) (b : Byte) : (s.setSrLast b).env = s.env := rfl
@[simp] theorem State.setSrLast_trace (s : State) (b : Byte) : (s.setSrLast b).trace = s.trace := rfl

/-! ### `State.setVal` -/

@[simp] theorem State.setVal_csN (s : State) (b : Byte) : (s.setVal b).csN = s.csN := rfl
@[simp] theorem State.setVal_seq (s : State) (b : Byte) : (s.setVal b).seq = s.seq := rfl
@[simp] theorem State.setVal_upc (s : State) (b : Byte) : (s.setVal b).upc = s.upc := rfl
@[simp] theorem State.setVal_op (s : State) (b : Byte) : (s.setVal b).op = s.op := rfl
@[simp] theorem State.setVal_addr (s : State) (b : Byte) : (s.setVal b).addr = s.addr := rfl
@[simp] theorem State.setVal_len (s : State) (b : Byte) : (s.setVal b).len = s.len := rfl
@[simp] theorem State.setVal_wdata (s : State) (b : Byte) : (s.setVal b).wdata = s.wdata := rfl
@[simp] theorem State.setVal_srLast (s : State) (b : Byte) : (s.setVal b).srLast = s.srLast := rfl
@[simp] theorem State.setVal_val (s : State) (b : Byte) : (s.setVal b).val = some b := rfl
@[simp] theorem State.setVal_pollCnt (s : State) (b : Byte) : (s.setVal b).pollCnt = s.pollCnt := rfl
@[simp] theorem State.setVal_wphase (s : State) (b : Byte) : (s.setVal b).wphase = s.wphase := rfl
@[simp] theorem State.setVal_done (s : State) (b : Byte) : (s.setVal b).done = s.done := rfl
@[simp] theorem State.setVal_err (s : State) (b : Byte) : (s.setVal b).err = s.err := rfl
@[simp] theorem State.setVal_errcode (s : State) (b : Byte) : (s.setVal b).errcode = s.errcode := rfl
@[simp] theorem State.setVal_rbit (s : State) (b : Byte) : (s.setVal b).rbit = s.rbit := rfl
@[simp] theorem State.setVal_rdata (s : State) (b : Byte) : (s.setVal b).rdata = s.rdata := rfl
@[simp] theorem State.setVal_cfg (s : State) (b : Byte) : (s.setVal b).cfg = s.cfg := rfl
@[simp] theorem State.setVal_rdm (s : State) (b : Byte) : (s.setVal b).rdm = s.rdm := rfl
@[simp] theorem State.setVal_env (s : State) (b : Byte) : (s.setVal b).env = s.env := rfl
@[simp] theorem State.setVal_trace (s : State) (b : Byte) : (s.setVal b).trace = s.trace := rfl

/-! ### `State.setRbit` -/

@[simp] theorem State.setRbit_csN (s : State) (b : Bool) : (s.setRbit b).csN = s.csN := rfl
@[simp] theorem State.setRbit_seq (s : State) (b : Bool) : (s.setRbit b).seq = s.seq := rfl
@[simp] theorem State.setRbit_upc (s : State) (b : Bool) : (s.setRbit b).upc = s.upc := rfl
@[simp] theorem State.setRbit_op (s : State) (b : Bool) : (s.setRbit b).op = s.op := rfl
@[simp] theorem State.setRbit_addr (s : State) (b : Bool) : (s.setRbit b).addr = s.addr := rfl
@[simp] theorem State.setRbit_len (s : State) (b : Bool) : (s.setRbit b).len = s.len := rfl
@[simp] theorem State.setRbit_wdata (s : State) (b : Bool) : (s.setRbit b).wdata = s.wdata := rfl
@[simp] theorem State.setRbit_srLast (s : State) (b : Bool) : (s.setRbit b).srLast = s.srLast := rfl
@[simp] theorem State.setRbit_val (s : State) (b : Bool) : (s.setRbit b).val = s.val := rfl
@[simp] theorem State.setRbit_pollCnt (s : State) (b : Bool) : (s.setRbit b).pollCnt = s.pollCnt := rfl
@[simp] theorem State.setRbit_wphase (s : State) (b : Bool) : (s.setRbit b).wphase = s.wphase := rfl
@[simp] theorem State.setRbit_done (s : State) (b : Bool) : (s.setRbit b).done = s.done := rfl
@[simp] theorem State.setRbit_err (s : State) (b : Bool) : (s.setRbit b).err = s.err := rfl
@[simp] theorem State.setRbit_errcode (s : State) (b : Bool) : (s.setRbit b).errcode = s.errcode := rfl
@[simp] theorem State.setRbit_rbit (s : State) (b : Bool) : (s.setRbit b).rbit = b := rfl
@[simp] theorem State.setRbit_rdata (s : State) (b : Bool) : (s.setRbit b).rdata = s.rdata := rfl
@[simp] theorem State.setRbit_cfg (s : State) (b : Bool) : (s.setRbit b).cfg = s.cfg := rfl
@[simp] theorem State.setRbit_rdm (s : State) (b : Bool) : (s.setRbit b).rdm = s.rdm := rfl
@[simp] theorem State.setRbit_env (s : State) (b : Bool) : (s.setRbit b).env = s.env := rfl
@[simp] theorem State.setRbit_trace (s : State) (b : Bool) : (s.setRbit b).trace = s.trace := rfl

/-! ### `State.setPollCnt` -/

@[simp] theorem State.setPollCnt_csN (s : State) (n : Nat) : (s.setPollCnt n).csN = s.csN := rfl
@[simp] theorem State.setPollCnt_seq (s : State) (n : Nat) : (s.setPollCnt n).seq = s.seq := rfl
@[simp] theorem State.setPollCnt_upc (s : State) (n : Nat) : (s.setPollCnt n).upc = s.upc := rfl
@[simp] theorem State.setPollCnt_op (s : State) (n : Nat) : (s.setPollCnt n).op = s.op := rfl
@[simp] theorem State.setPollCnt_addr (s : State) (n : Nat) : (s.setPollCnt n).addr = s.addr := rfl
@[simp] theorem State.setPollCnt_len (s : State) (n : Nat) : (s.setPollCnt n).len = s.len := rfl
@[simp] theorem State.setPollCnt_wdata (s : State) (n : Nat) : (s.setPollCnt n).wdata = s.wdata := rfl
@[simp] theorem State.setPollCnt_srLast (s : State) (n : Nat) : (s.setPollCnt n).srLast = s.srLast := rfl
@[simp] theorem State.setPollCnt_val (s : State) (n : Nat) : (s.setPollCnt n).val = s.val := rfl
@[simp] theorem State.setPollCnt_pollCnt (s : State) (n : Nat) : (s.setPollCnt n).pollCnt = n := rfl
@[simp] theorem State.setPollCnt_wphase (s : State) (n : Nat) : (s.setPollCnt n).wphase = s.wphase := rfl
@[simp] theorem State.setPollCnt_done (s : State) (n : Nat) : (s.setPollCnt n).done = s.done := rfl
@[simp] theorem State.setPollCnt_err (s : State) (n : Nat) : (s.setPollCnt n).err = s.err := rfl
@[simp] theorem State.setPollCnt_errcode (s : State) (n : Nat) : (s.setPollCnt n).errcode = s.errcode := rfl
@[simp] theorem State.setPollCnt_rbit (s : State) (n : Nat) : (s.setPollCnt n).rbit = s.rbit := rfl
@[simp] theorem State.setPollCnt_rdata (s : State) (n : Nat) : (s.setPollCnt n).rdata = s.rdata := rfl
@[simp] theorem State.setPollCnt_cfg (s : State) (n : Nat) : (s.setPollCnt n).cfg = s.cfg := rfl
@[simp] theorem State.setPollCnt_rdm (s : State) (n : Nat) : (s.setPollCnt n).rdm = s.rdm := rfl
@[simp] theorem State.setPollCnt_env (s : State) (n : Nat) : (s.setPollCnt n).env = s.env := rfl
@[simp] theorem State.setPollCnt_trace (s : State) (n : Nat) : (s.setPollCnt n).trace = s.trace := rfl

/-! ### `State.setWphase` -/

@[simp] theorem State.setWphase_csN (s : State) (w : Wphase) : (s.setWphase w).csN = s.csN := rfl
@[simp] theorem State.setWphase_seq (s : State) (w : Wphase) : (s.setWphase w).seq = s.seq := rfl
@[simp] theorem State.setWphase_upc (s : State) (w : Wphase) : (s.setWphase w).upc = s.upc := rfl
@[simp] theorem State.setWphase_op (s : State) (w : Wphase) : (s.setWphase w).op = s.op := rfl
@[simp] theorem State.setWphase_addr (s : State) (w : Wphase) : (s.setWphase w).addr = s.addr := rfl
@[simp] theorem State.setWphase_len (s : State) (w : Wphase) : (s.setWphase w).len = s.len := rfl
@[simp] theorem State.setWphase_wdata (s : State) (w : Wphase) : (s.setWphase w).wdata = s.wdata := rfl
@[simp] theorem State.setWphase_srLast (s : State) (w : Wphase) : (s.setWphase w).srLast = s.srLast := rfl
@[simp] theorem State.setWphase_val (s : State) (w : Wphase) : (s.setWphase w).val = s.val := rfl
@[simp] theorem State.setWphase_pollCnt (s : State) (w : Wphase) : (s.setWphase w).pollCnt = s.pollCnt := rfl
@[simp] theorem State.setWphase_wphase (s : State) (w : Wphase) : (s.setWphase w).wphase = w := rfl
@[simp] theorem State.setWphase_done (s : State) (w : Wphase) : (s.setWphase w).done = s.done := rfl
@[simp] theorem State.setWphase_err (s : State) (w : Wphase) : (s.setWphase w).err = s.err := rfl
@[simp] theorem State.setWphase_errcode (s : State) (w : Wphase) : (s.setWphase w).errcode = s.errcode := rfl
@[simp] theorem State.setWphase_rbit (s : State) (w : Wphase) : (s.setWphase w).rbit = s.rbit := rfl
@[simp] theorem State.setWphase_rdata (s : State) (w : Wphase) : (s.setWphase w).rdata = s.rdata := rfl
@[simp] theorem State.setWphase_cfg (s : State) (w : Wphase) : (s.setWphase w).cfg = s.cfg := rfl
@[simp] theorem State.setWphase_rdm (s : State) (w : Wphase) : (s.setWphase w).rdm = s.rdm := rfl
@[simp] theorem State.setWphase_env (s : State) (w : Wphase) : (s.setWphase w).env = s.env := rfl
@[simp] theorem State.setWphase_trace (s : State) (w : Wphase) : (s.setWphase w).trace = s.trace := rfl

/-! ### `State.setRdataAt` -/

@[simp] theorem State.setRdataAt_csN (s : State) (k : Nat) (b : Byte) : (s.setRdataAt k b).csN = s.csN := rfl
@[simp] theorem State.setRdataAt_seq (s : State) (k : Nat) (b : Byte) : (s.setRdataAt k b).seq = s.seq := rfl
@[simp] theorem State.setRdataAt_upc (s : State) (k : Nat) (b : Byte) : (s.setRdataAt k b).upc = s.upc := rfl
@[simp] theorem State.setRdataAt_op (s : State) (k : Nat) (b : Byte) : (s.setRdataAt k b).op = s.op := rfl
@[simp] theorem State.setRdataAt_addr (s : State) (k : Nat) (b : Byte) : (s.setRdataAt k b).addr = s.addr := rfl
@[simp] theorem State.setRdataAt_len (s : State) (k : Nat) (b : Byte) : (s.setRdataAt k b).len = s.len := rfl
@[simp] theorem State.setRdataAt_wdata (s : State) (k : Nat) (b : Byte) : (s.setRdataAt k b).wdata = s.wdata := rfl
@[simp] theorem State.setRdataAt_srLast (s : State) (k : Nat) (b : Byte) : (s.setRdataAt k b).srLast = s.srLast := rfl
@[simp] theorem State.setRdataAt_val (s : State) (k : Nat) (b : Byte) : (s.setRdataAt k b).val = s.val := rfl
@[simp] theorem State.setRdataAt_pollCnt (s : State) (k : Nat) (b : Byte) : (s.setRdataAt k b).pollCnt = s.pollCnt := rfl
@[simp] theorem State.setRdataAt_wphase (s : State) (k : Nat) (b : Byte) : (s.setRdataAt k b).wphase = s.wphase := rfl
@[simp] theorem State.setRdataAt_done (s : State) (k : Nat) (b : Byte) : (s.setRdataAt k b).done = s.done := rfl
@[simp] theorem State.setRdataAt_err (s : State) (k : Nat) (b : Byte) : (s.setRdataAt k b).err = s.err := rfl
@[simp] theorem State.setRdataAt_errcode (s : State) (k : Nat) (b : Byte) : (s.setRdataAt k b).errcode = s.errcode := rfl
@[simp] theorem State.setRdataAt_rbit (s : State) (k : Nat) (b : Byte) : (s.setRdataAt k b).rbit = s.rbit := rfl
@[simp] theorem State.setRdataAt_rdata (s : State) (k : Nat) (b : Byte) : (s.setRdataAt k b).rdata = s.rdata.map fun l => l.set k (some b) := rfl
@[simp] theorem State.setRdataAt_cfg (s : State) (k : Nat) (b : Byte) : (s.setRdataAt k b).cfg = s.cfg := rfl
@[simp] theorem State.setRdataAt_rdm (s : State) (k : Nat) (b : Byte) : (s.setRdataAt k b).rdm = s.rdm := rfl
@[simp] theorem State.setRdataAt_env (s : State) (k : Nat) (b : Byte) : (s.setRdataAt k b).env = s.env := rfl
@[simp] theorem State.setRdataAt_trace (s : State) (k : Nat) (b : Byte) : (s.setRdataAt k b).trace = s.trace := rfl

/-! ### `State.setCsN` -/

@[simp] theorem State.setCsN_csN (s : State) (b : Bool) : (s.setCsN b).csN = b := rfl
@[simp] theorem State.setCsN_seq (s : State) (b : Bool) : (s.setCsN b).seq = s.seq := rfl
@[simp] theorem State.setCsN_upc (s : State) (b : Bool) : (s.setCsN b).upc = s.upc := rfl
@[simp] theorem State.setCsN_op (s : State) (b : Bool) : (s.setCsN b).op = s.op := rfl
@[simp] theorem State.setCsN_addr (s : State) (b : Bool) : (s.setCsN b).addr = s.addr := rfl
@[simp] theorem State.setCsN_len (s : State) (b : Bool) : (s.setCsN b).len = s.len := rfl
@[simp] theorem State.setCsN_wdata (s : State) (b : Bool) : (s.setCsN b).wdata = s.wdata := rfl
@[simp] theorem State.setCsN_srLast (s : State) (b : Bool) : (s.setCsN b).srLast = s.srLast := rfl
@[simp] theorem State.setCsN_val (s : State) (b : Bool) : (s.setCsN b).val = s.val := rfl
@[simp] theorem State.setCsN_pollCnt (s : State) (b : Bool) : (s.setCsN b).pollCnt = s.pollCnt := rfl
@[simp] theorem State.setCsN_wphase (s : State) (b : Bool) : (s.setCsN b).wphase = s.wphase := rfl
@[simp] theorem State.setCsN_done (s : State) (b : Bool) : (s.setCsN b).done = s.done := rfl
@[simp] theorem State.setCsN_err (s : State) (b : Bool) : (s.setCsN b).err = s.err := rfl
@[simp] theorem State.setCsN_errcode (s : State) (b : Bool) : (s.setCsN b).errcode = s.errcode := rfl
@[simp] theorem State.setCsN_rbit (s : State) (b : Bool) : (s.setCsN b).rbit = s.rbit := rfl
@[simp] theorem State.setCsN_rdata (s : State) (b : Bool) : (s.setCsN b).rdata = s.rdata := rfl
@[simp] theorem State.setCsN_cfg (s : State) (b : Bool) : (s.setCsN b).cfg = s.cfg := rfl
@[simp] theorem State.setCsN_rdm (s : State) (b : Bool) : (s.setCsN b).rdm = s.rdm := rfl
@[simp] theorem State.setCsN_env (s : State) (b : Bool) : (s.setCsN b).env = s.env := rfl
@[simp] theorem State.setCsN_trace (s : State) (b : Bool) : (s.setCsN b).trace = s.trace := rfl

/-! ### `State.setRdm` -/

@[simp] theorem State.setRdm_csN (s : State) (d : Rdm) : (s.setRdm d).csN = s.csN := rfl
@[simp] theorem State.setRdm_seq (s : State) (d : Rdm) : (s.setRdm d).seq = s.seq := rfl
@[simp] theorem State.setRdm_upc (s : State) (d : Rdm) : (s.setRdm d).upc = s.upc := rfl
@[simp] theorem State.setRdm_op (s : State) (d : Rdm) : (s.setRdm d).op = s.op := rfl
@[simp] theorem State.setRdm_addr (s : State) (d : Rdm) : (s.setRdm d).addr = s.addr := rfl
@[simp] theorem State.setRdm_len (s : State) (d : Rdm) : (s.setRdm d).len = s.len := rfl
@[simp] theorem State.setRdm_wdata (s : State) (d : Rdm) : (s.setRdm d).wdata = s.wdata := rfl
@[simp] theorem State.setRdm_srLast (s : State) (d : Rdm) : (s.setRdm d).srLast = s.srLast := rfl
@[simp] theorem State.setRdm_val (s : State) (d : Rdm) : (s.setRdm d).val = s.val := rfl
@[simp] theorem State.setRdm_pollCnt (s : State) (d : Rdm) : (s.setRdm d).pollCnt = s.pollCnt := rfl
@[simp] theorem State.setRdm_wphase (s : State) (d : Rdm) : (s.setRdm d).wphase = s.wphase := rfl
@[simp] theorem State.setRdm_done (s : State) (d : Rdm) : (s.setRdm d).done = s.done := rfl
@[simp] theorem State.setRdm_err (s : State) (d : Rdm) : (s.setRdm d).err = s.err := rfl
@[simp] theorem State.setRdm_errcode (s : State) (d : Rdm) : (s.setRdm d).errcode = s.errcode := rfl
@[simp] theorem State.setRdm_rbit (s : State) (d : Rdm) : (s.setRdm d).rbit = s.rbit := rfl
@[simp] theorem State.setRdm_rdata (s : State) (d : Rdm) : (s.setRdm d).rdata = s.rdata := rfl
@[simp] theorem State.setRdm_cfg (s : State) (d : Rdm) : (s.setRdm d).cfg = s.cfg := rfl
@[simp] theorem State.setRdm_rdm (s : State) (d : Rdm) : (s.setRdm d).rdm = d := rfl
@[simp] theorem State.setRdm_env (s : State) (d : Rdm) : (s.setRdm d).env = s.env := rfl
@[simp] theorem State.setRdm_trace (s : State) (d : Rdm) : (s.setRdm d).trace = s.trace := rfl

/-! ### `State.setActs` -/

@[simp] theorem State.setActs_csN (s : State) (l : List HostAct) : (s.setActs l).csN = s.csN := rfl
@[simp] theorem State.setActs_seq (s : State) (l : List HostAct) : (s.setActs l).seq = s.seq := rfl
@[simp] theorem State.setActs_upc (s : State) (l : List HostAct) : (s.setActs l).upc = s.upc := rfl
@[simp] theorem State.setActs_op (s : State) (l : List HostAct) : (s.setActs l).op = s.op := rfl
@[simp] theorem State.setActs_addr (s : State) (l : List HostAct) : (s.setActs l).addr = s.addr := rfl
@[simp] theorem State.setActs_len (s : State) (l : List HostAct) : (s.setActs l).len = s.len := rfl
@[simp] theorem State.setActs_wdata (s : State) (l : List HostAct) : (s.setActs l).wdata = s.wdata := rfl
@[simp] theorem State.setActs_srLast (s : State) (l : List HostAct) : (s.setActs l).srLast = s.srLast := rfl
@[simp] theorem State.setActs_val (s : State) (l : List HostAct) : (s.setActs l).val = s.val := rfl
@[simp] theorem State.setActs_pollCnt (s : State) (l : List HostAct) : (s.setActs l).pollCnt = s.pollCnt := rfl
@[simp] theorem State.setActs_wphase (s : State) (l : List HostAct) : (s.setActs l).wphase = s.wphase := rfl
@[simp] theorem State.setActs_done (s : State) (l : List HostAct) : (s.setActs l).done = s.done := rfl
@[simp] theorem State.setActs_err (s : State) (l : List HostAct) : (s.setActs l).err = s.err := rfl
@[simp] theorem State.setActs_errcode (s : State) (l : List HostAct) : (s.setActs l).errcode = s.errcode := rfl
@[simp] theorem State.setActs_rbit (s : State) (l : List HostAct) : (s.setActs l).rbit = s.rbit := rfl
@[simp] theorem State.setActs_rdata (s : State) (l : List HostAct) : (s.setActs l).rdata = s.rdata := rfl
@[simp] theorem State.setActs_cfg (s : State) (l : List HostAct) : (s.setActs l).cfg = s.cfg := rfl
@[simp] theorem State.setActs_rdm (s : State) (l : List HostAct) : (s.setActs l).rdm = s.rdm := rfl
@[simp] theorem State.setActs_env (s : State) (l : List HostAct) : (s.setActs l).env = { s.env with acts := l } := rfl
@[simp] theorem State.setActs_trace (s : State) (l : List HostAct) : (s.setActs l).trace = s.trace := rfl

/-! ### `State.deliver` -/

@[simp] theorem State.deliver_csN (s : State) (v : HostValue) : (s.deliver v).csN = s.csN := rfl
@[simp] theorem State.deliver_seq (s : State) (v : HostValue) : (s.deliver v).seq = s.seq := rfl
@[simp] theorem State.deliver_upc (s : State) (v : HostValue) : (s.deliver v).upc = s.upc := rfl
@[simp] theorem State.deliver_op (s : State) (v : HostValue) : (s.deliver v).op = s.op := rfl
@[simp] theorem State.deliver_addr (s : State) (v : HostValue) : (s.deliver v).addr = s.addr := rfl
@[simp] theorem State.deliver_len (s : State) (v : HostValue) : (s.deliver v).len = s.len := rfl
@[simp] theorem State.deliver_wdata (s : State) (v : HostValue) : (s.deliver v).wdata = s.wdata := rfl
@[simp] theorem State.deliver_srLast (s : State) (v : HostValue) : (s.deliver v).srLast = s.srLast := rfl
@[simp] theorem State.deliver_val (s : State) (v : HostValue) : (s.deliver v).val = s.val := rfl
@[simp] theorem State.deliver_pollCnt (s : State) (v : HostValue) : (s.deliver v).pollCnt = s.pollCnt := rfl
@[simp] theorem State.deliver_wphase (s : State) (v : HostValue) : (s.deliver v).wphase = s.wphase := rfl
@[simp] theorem State.deliver_done (s : State) (v : HostValue) : (s.deliver v).done = s.done := rfl
@[simp] theorem State.deliver_err (s : State) (v : HostValue) : (s.deliver v).err = s.err := rfl
@[simp] theorem State.deliver_errcode (s : State) (v : HostValue) : (s.deliver v).errcode = s.errcode := rfl
@[simp] theorem State.deliver_rbit (s : State) (v : HostValue) : (s.deliver v).rbit = s.rbit := rfl
@[simp] theorem State.deliver_rdata (s : State) (v : HostValue) : (s.deliver v).rdata = s.rdata := rfl
@[simp] theorem State.deliver_cfg (s : State) (v : HostValue) : (s.deliver v).cfg = s.cfg := rfl
@[simp] theorem State.deliver_rdm (s : State) (v : HostValue) : (s.deliver v).rdm = s.rdm := rfl
@[simp] theorem State.deliver_env (s : State) (v : HostValue) : (s.deliver v).env = { s.env with got := some v } := rfl
@[simp] theorem State.deliver_trace (s : State) (v : HostValue) : (s.deliver v).trace = s.trace := rfl

/-! ### `State.latch` -/

@[simp] theorem State.latch_csN (s : State) (w : CmdWord) (n : Nat) (l : List Byte) : (s.latch w n l).csN = s.csN := rfl
@[simp] theorem State.latch_seq (s : State) (w : CmdWord) (n : Nat) (l : List Byte) : (s.latch w n l).seq = s.seq := rfl
@[simp] theorem State.latch_upc (s : State) (w : CmdWord) (n : Nat) (l : List Byte) : (s.latch w n l).upc = s.upc := rfl
@[simp] theorem State.latch_op (s : State) (w : CmdWord) (n : Nat) (l : List Byte) : (s.latch w n l).op = some (opField w) := rfl
@[simp] theorem State.latch_addr (s : State) (w : CmdWord) (n : Nat) (l : List Byte) : (s.latch w n l).addr = some (addrField w) := rfl
@[simp] theorem State.latch_len (s : State) (w : CmdWord) (n : Nat) (l : List Byte) : (s.latch w n l).len = some n := rfl
@[simp] theorem State.latch_wdata (s : State) (w : CmdWord) (n : Nat) (l : List Byte) : (s.latch w n l).wdata = some l := rfl
@[simp] theorem State.latch_srLast (s : State) (w : CmdWord) (n : Nat) (l : List Byte) : (s.latch w n l).srLast = s.srLast := rfl
@[simp] theorem State.latch_val (s : State) (w : CmdWord) (n : Nat) (l : List Byte) : (s.latch w n l).val = s.val := rfl
@[simp] theorem State.latch_pollCnt (s : State) (w : CmdWord) (n : Nat) (l : List Byte) : (s.latch w n l).pollCnt = s.pollCnt := rfl
@[simp] theorem State.latch_wphase (s : State) (w : CmdWord) (n : Nat) (l : List Byte) : (s.latch w n l).wphase = s.wphase := rfl
@[simp] theorem State.latch_done (s : State) (w : CmdWord) (n : Nat) (l : List Byte) : (s.latch w n l).done = false := rfl
@[simp] theorem State.latch_err (s : State) (w : CmdWord) (n : Nat) (l : List Byte) : (s.latch w n l).err = false := rfl
@[simp] theorem State.latch_errcode (s : State) (w : CmdWord) (n : Nat) (l : List Byte) : (s.latch w n l).errcode = 0#2 := rfl
@[simp] theorem State.latch_rbit (s : State) (w : CmdWord) (n : Nat) (l : List Byte) : (s.latch w n l).rbit = false := rfl
@[simp] theorem State.latch_rdata (s : State) (w : CmdWord) (n : Nat) (l : List Byte) : (s.latch w n l).rdata = s.rdata := rfl
@[simp] theorem State.latch_cfg (s : State) (w : CmdWord) (n : Nat) (l : List Byte) : (s.latch w n l).cfg = s.cfg := rfl
@[simp] theorem State.latch_rdm (s : State) (w : CmdWord) (n : Nat) (l : List Byte) : (s.latch w n l).rdm = s.rdm := rfl
@[simp] theorem State.latch_env (s : State) (w : CmdWord) (n : Nat) (l : List Byte) : (s.latch w n l).env = s.env := rfl
@[simp] theorem State.latch_trace (s : State) (w : CmdWord) (n : Nat) (l : List Byte) : (s.latch w n l).trace = s.trace ++ [.accept w n l] := rfl

/-! ### `State.start` -/

@[simp] theorem State.start_csN (s : State) (r : List (Option Byte)) (code : List Micro) : (s.start r code).csN = s.csN := rfl
@[simp] theorem State.start_seq (s : State) (r : List (Option Byte)) (code : List Micro) : (s.start r code).seq = .run := rfl
@[simp] theorem State.start_upc (s : State) (r : List (Option Byte)) (code : List Micro) : (s.start r code).upc = some { code := code, s := none } := rfl
@[simp] theorem State.start_op (s : State) (r : List (Option Byte)) (code : List Micro) : (s.start r code).op = s.op := rfl
@[simp] theorem State.start_addr (s : State) (r : List (Option Byte)) (code : List Micro) : (s.start r code).addr = s.addr := rfl
@[simp] theorem State.start_len (s : State) (r : List (Option Byte)) (code : List Micro) : (s.start r code).len = s.len := rfl
@[simp] theorem State.start_wdata (s : State) (r : List (Option Byte)) (code : List Micro) : (s.start r code).wdata = s.wdata := rfl
@[simp] theorem State.start_srLast (s : State) (r : List (Option Byte)) (code : List Micro) : (s.start r code).srLast = s.srLast := rfl
@[simp] theorem State.start_val (s : State) (r : List (Option Byte)) (code : List Micro) : (s.start r code).val = s.val := rfl
@[simp] theorem State.start_pollCnt (s : State) (r : List (Option Byte)) (code : List Micro) : (s.start r code).pollCnt = 0 := rfl
@[simp] theorem State.start_wphase (s : State) (r : List (Option Byte)) (code : List Micro) : (s.start r code).wphase = s.wphase := rfl
@[simp] theorem State.start_done (s : State) (r : List (Option Byte)) (code : List Micro) : (s.start r code).done = s.done := rfl
@[simp] theorem State.start_err (s : State) (r : List (Option Byte)) (code : List Micro) : (s.start r code).err = s.err := rfl
@[simp] theorem State.start_errcode (s : State) (r : List (Option Byte)) (code : List Micro) : (s.start r code).errcode = s.errcode := rfl
@[simp] theorem State.start_rbit (s : State) (r : List (Option Byte)) (code : List Micro) : (s.start r code).rbit = s.rbit := rfl
@[simp] theorem State.start_rdata (s : State) (r : List (Option Byte)) (code : List Micro) : (s.start r code).rdata = some r := rfl
@[simp] theorem State.start_cfg (s : State) (r : List (Option Byte)) (code : List Micro) : (s.start r code).cfg = s.cfg := rfl
@[simp] theorem State.start_rdm (s : State) (r : List (Option Byte)) (code : List Micro) : (s.start r code).rdm = s.rdm := rfl
@[simp] theorem State.start_env (s : State) (r : List (Option Byte)) (code : List Micro) : (s.start r code).env = s.env := rfl
@[simp] theorem State.start_trace (s : State) (r : List (Option Byte)) (code : List Micro) : (s.start r code).trace = s.trace := rfl

/-! ### `State.wait` -/

@[simp] theorem State.wait_csN (s : State) (d : WaitKind) : (s.wait d).csN = s.csN := rfl
@[simp] theorem State.wait_seq (s : State) (d : WaitKind) : (s.wait d).seq = s.seq := rfl
@[simp] theorem State.wait_upc (s : State) (d : WaitKind) : (s.wait d).upc = s.upc := rfl
@[simp] theorem State.wait_op (s : State) (d : WaitKind) : (s.wait d).op = s.op := rfl
@[simp] theorem State.wait_addr (s : State) (d : WaitKind) : (s.wait d).addr = s.addr := rfl
@[simp] theorem State.wait_len (s : State) (d : WaitKind) : (s.wait d).len = s.len := rfl
@[simp] theorem State.wait_wdata (s : State) (d : WaitKind) : (s.wait d).wdata = s.wdata := rfl
@[simp] theorem State.wait_srLast (s : State) (d : WaitKind) : (s.wait d).srLast = s.srLast := rfl
@[simp] theorem State.wait_val (s : State) (d : WaitKind) : (s.wait d).val = s.val := rfl
@[simp] theorem State.wait_pollCnt (s : State) (d : WaitKind) : (s.wait d).pollCnt = s.pollCnt := rfl
@[simp] theorem State.wait_wphase (s : State) (d : WaitKind) : (s.wait d).wphase = s.wphase := rfl
@[simp] theorem State.wait_done (s : State) (d : WaitKind) : (s.wait d).done = s.done := rfl
@[simp] theorem State.wait_err (s : State) (d : WaitKind) : (s.wait d).err = s.err := rfl
@[simp] theorem State.wait_errcode (s : State) (d : WaitKind) : (s.wait d).errcode = s.errcode := rfl
@[simp] theorem State.wait_rbit (s : State) (d : WaitKind) : (s.wait d).rbit = s.rbit := rfl
@[simp] theorem State.wait_rdata (s : State) (d : WaitKind) : (s.wait d).rdata = s.rdata := rfl
@[simp] theorem State.wait_cfg (s : State) (d : WaitKind) : (s.wait d).cfg = s.cfg := rfl
@[simp] theorem State.wait_rdm (s : State) (d : WaitKind) : (s.wait d).rdm = s.rdm := rfl
@[simp] theorem State.wait_env (s : State) (d : WaitKind) : (s.wait d).env = s.env := rfl
@[simp] theorem State.wait_trace (s : State) (d : WaitKind) : (s.wait d).trace = s.trace ++ [.wait (Config.duration s.cfg d)] := rfl

/-! ### `State.drive` -/

@[simp] theorem State.drive_csN (s : State) (b : Byte) : (s.drive b).csN = s.csN := rfl
@[simp] theorem State.drive_seq (s : State) (b : Byte) : (s.drive b).seq = s.seq := rfl
@[simp] theorem State.drive_upc (s : State) (b : Byte) : (s.drive b).upc = s.upc := rfl
@[simp] theorem State.drive_op (s : State) (b : Byte) : (s.drive b).op = s.op := rfl
@[simp] theorem State.drive_addr (s : State) (b : Byte) : (s.drive b).addr = s.addr := rfl
@[simp] theorem State.drive_len (s : State) (b : Byte) : (s.drive b).len = s.len := rfl
@[simp] theorem State.drive_wdata (s : State) (b : Byte) : (s.drive b).wdata = s.wdata := rfl
@[simp] theorem State.drive_srLast (s : State) (b : Byte) : (s.drive b).srLast = s.srLast := rfl
@[simp] theorem State.drive_val (s : State) (b : Byte) : (s.drive b).val = s.val := rfl
@[simp] theorem State.drive_pollCnt (s : State) (b : Byte) : (s.drive b).pollCnt = s.pollCnt := rfl
@[simp] theorem State.drive_wphase (s : State) (b : Byte) : (s.drive b).wphase = s.wphase := rfl
@[simp] theorem State.drive_done (s : State) (b : Byte) : (s.drive b).done = s.done := rfl
@[simp] theorem State.drive_err (s : State) (b : Byte) : (s.drive b).err = s.err := rfl
@[simp] theorem State.drive_errcode (s : State) (b : Byte) : (s.drive b).errcode = s.errcode := rfl
@[simp] theorem State.drive_rbit (s : State) (b : Byte) : (s.drive b).rbit = s.rbit := rfl
@[simp] theorem State.drive_rdata (s : State) (b : Byte) : (s.drive b).rdata = s.rdata := rfl
@[simp] theorem State.drive_cfg (s : State) (b : Byte) : (s.drive b).cfg = s.cfg := rfl
@[simp] theorem State.drive_rdm (s : State) (b : Byte) : (s.drive b).rdm = { s.rdm with out := b } := rfl
@[simp] theorem State.drive_env (s : State) (b : Byte) : (s.drive b).env = s.env := rfl
@[simp] theorem State.drive_trace (s : State) (b : Byte) : (s.drive b).trace = s.trace := rfl

/-! ### `State.clearEvent` -/

@[simp] theorem State.clearEvent_csN (s : State) : (s.clearEvent).csN = s.csN := rfl
@[simp] theorem State.clearEvent_seq (s : State) : (s.clearEvent).seq = s.seq := rfl
@[simp] theorem State.clearEvent_upc (s : State) : (s.clearEvent).upc = s.upc := rfl
@[simp] theorem State.clearEvent_op (s : State) : (s.clearEvent).op = s.op := rfl
@[simp] theorem State.clearEvent_addr (s : State) : (s.clearEvent).addr = s.addr := rfl
@[simp] theorem State.clearEvent_len (s : State) : (s.clearEvent).len = s.len := rfl
@[simp] theorem State.clearEvent_wdata (s : State) : (s.clearEvent).wdata = s.wdata := rfl
@[simp] theorem State.clearEvent_srLast (s : State) : (s.clearEvent).srLast = s.srLast := rfl
@[simp] theorem State.clearEvent_val (s : State) : (s.clearEvent).val = s.val := rfl
@[simp] theorem State.clearEvent_pollCnt (s : State) : (s.clearEvent).pollCnt = s.pollCnt := rfl
@[simp] theorem State.clearEvent_wphase (s : State) : (s.clearEvent).wphase = s.wphase := rfl
@[simp] theorem State.clearEvent_done (s : State) : (s.clearEvent).done = s.done := rfl
@[simp] theorem State.clearEvent_err (s : State) : (s.clearEvent).err = s.err := rfl
@[simp] theorem State.clearEvent_errcode (s : State) : (s.clearEvent).errcode = s.errcode := rfl
@[simp] theorem State.clearEvent_rbit (s : State) : (s.clearEvent).rbit = s.rbit := rfl
@[simp] theorem State.clearEvent_rdata (s : State) : (s.clearEvent).rdata = s.rdata := rfl
@[simp] theorem State.clearEvent_cfg (s : State) : (s.clearEvent).cfg = s.cfg := rfl
@[simp] theorem State.clearEvent_rdm (s : State) : (s.clearEvent).rdm = { s.rdm with event := none } := rfl
@[simp] theorem State.clearEvent_env (s : State) : (s.clearEvent).env = s.env := rfl
@[simp] theorem State.clearEvent_trace (s : State) : (s.clearEvent).trace = s.trace := rfl

/-! ### `State.deviceByte` -/

@[simp] theorem State.deviceByte_csN (s : State) (o : Byte) : (s.deviceByte o).csN = s.csN := rfl
@[simp] theorem State.deviceByte_seq (s : State) (o : Byte) : (s.deviceByte o).seq = s.seq := rfl
@[simp] theorem State.deviceByte_upc (s : State) (o : Byte) : (s.deviceByte o).upc = s.upc := rfl
@[simp] theorem State.deviceByte_op (s : State) (o : Byte) : (s.deviceByte o).op = s.op := rfl
@[simp] theorem State.deviceByte_addr (s : State) (o : Byte) : (s.deviceByte o).addr = s.addr := rfl
@[simp] theorem State.deviceByte_len (s : State) (o : Byte) : (s.deviceByte o).len = s.len := rfl
@[simp] theorem State.deviceByte_wdata (s : State) (o : Byte) : (s.deviceByte o).wdata = s.wdata := rfl
@[simp] theorem State.deviceByte_srLast (s : State) (o : Byte) : (s.deviceByte o).srLast = s.srLast := rfl
@[simp] theorem State.deviceByte_val (s : State) (o : Byte) : (s.deviceByte o).val = s.val := rfl
@[simp] theorem State.deviceByte_pollCnt (s : State) (o : Byte) : (s.deviceByte o).pollCnt = s.pollCnt := rfl
@[simp] theorem State.deviceByte_wphase (s : State) (o : Byte) : (s.deviceByte o).wphase = s.wphase := rfl
@[simp] theorem State.deviceByte_done (s : State) (o : Byte) : (s.deviceByte o).done = s.done := rfl
@[simp] theorem State.deviceByte_err (s : State) (o : Byte) : (s.deviceByte o).err = s.err := rfl
@[simp] theorem State.deviceByte_errcode (s : State) (o : Byte) : (s.deviceByte o).errcode = s.errcode := rfl
@[simp] theorem State.deviceByte_rbit (s : State) (o : Byte) : (s.deviceByte o).rbit = s.rbit := rfl
@[simp] theorem State.deviceByte_rdata (s : State) (o : Byte) : (s.deviceByte o).rdata = s.rdata := rfl
@[simp] theorem State.deviceByte_cfg (s : State) (o : Byte) : (s.deviceByte o).cfg = s.cfg := rfl
@[simp] theorem State.deviceByte_rdm (s : State) (o : Byte) : (s.deviceByte o).rdm = { s.rdm with fb := s.rdm.fb ++ [o], event := some .byte } := rfl
@[simp] theorem State.deviceByte_env (s : State) (o : Byte) : (s.deviceByte o).env = s.env := rfl
@[simp] theorem State.deviceByte_trace (s : State) (o : Byte) : (s.deviceByte o).trace = s.trace := rfl

/-! ### `State.cycleDevicePower` -/

@[simp] theorem State.cycleDevicePower_csN (s : State) : (s.cycleDevicePower).csN = s.csN := rfl
@[simp] theorem State.cycleDevicePower_seq (s : State) : (s.cycleDevicePower).seq = s.seq := rfl
@[simp] theorem State.cycleDevicePower_upc (s : State) : (s.cycleDevicePower).upc = s.upc := rfl
@[simp] theorem State.cycleDevicePower_op (s : State) : (s.cycleDevicePower).op = s.op := rfl
@[simp] theorem State.cycleDevicePower_addr (s : State) : (s.cycleDevicePower).addr = s.addr := rfl
@[simp] theorem State.cycleDevicePower_len (s : State) : (s.cycleDevicePower).len = s.len := rfl
@[simp] theorem State.cycleDevicePower_wdata (s : State) : (s.cycleDevicePower).wdata = s.wdata := rfl
@[simp] theorem State.cycleDevicePower_srLast (s : State) : (s.cycleDevicePower).srLast = s.srLast := rfl
@[simp] theorem State.cycleDevicePower_val (s : State) : (s.cycleDevicePower).val = s.val := rfl
@[simp] theorem State.cycleDevicePower_pollCnt (s : State) : (s.cycleDevicePower).pollCnt = s.pollCnt := rfl
@[simp] theorem State.cycleDevicePower_wphase (s : State) : (s.cycleDevicePower).wphase = s.wphase := rfl
@[simp] theorem State.cycleDevicePower_done (s : State) : (s.cycleDevicePower).done = s.done := rfl
@[simp] theorem State.cycleDevicePower_err (s : State) : (s.cycleDevicePower).err = s.err := rfl
@[simp] theorem State.cycleDevicePower_errcode (s : State) : (s.cycleDevicePower).errcode = s.errcode := rfl
@[simp] theorem State.cycleDevicePower_rbit (s : State) : (s.cycleDevicePower).rbit = s.rbit := rfl
@[simp] theorem State.cycleDevicePower_rdata (s : State) : (s.cycleDevicePower).rdata = s.rdata := rfl
@[simp] theorem State.cycleDevicePower_cfg (s : State) : (s.cycleDevicePower).cfg = s.cfg := rfl
@[simp] theorem State.cycleDevicePower_rdm (s : State) : (s.cycleDevicePower).rdm = Rdm.powerOn s.cfg := rfl
@[simp] theorem State.cycleDevicePower_env (s : State) : (s.cycleDevicePower).env = s.env := rfl
@[simp] theorem State.cycleDevicePower_trace (s : State) : (s.cycleDevicePower).trace = s.trace := rfl

/-! ### Updates whose effect depends on whether the RDM is attached -/

@[simp] theorem State.deviceSelect_csN (s : State) : s.deviceSelect.csN = s.csN := by
  unfold State.deviceSelect; split <;> rfl
@[simp] theorem State.deviceSelect_seq (s : State) : s.deviceSelect.seq = s.seq := by
  unfold State.deviceSelect; split <;> rfl
@[simp] theorem State.deviceSelect_upc (s : State) : s.deviceSelect.upc = s.upc := by
  unfold State.deviceSelect; split <;> rfl
@[simp] theorem State.deviceSelect_op (s : State) : s.deviceSelect.op = s.op := by
  unfold State.deviceSelect; split <;> rfl
@[simp] theorem State.deviceSelect_addr (s : State) : s.deviceSelect.addr = s.addr := by
  unfold State.deviceSelect; split <;> rfl
@[simp] theorem State.deviceSelect_len (s : State) : s.deviceSelect.len = s.len := by
  unfold State.deviceSelect; split <;> rfl
@[simp] theorem State.deviceSelect_wdata (s : State) : s.deviceSelect.wdata = s.wdata := by
  unfold State.deviceSelect; split <;> rfl
@[simp] theorem State.deviceSelect_srLast (s : State) : s.deviceSelect.srLast = s.srLast := by
  unfold State.deviceSelect; split <;> rfl
@[simp] theorem State.deviceSelect_val (s : State) : s.deviceSelect.val = s.val := by
  unfold State.deviceSelect; split <;> rfl
@[simp] theorem State.deviceSelect_pollCnt (s : State) : s.deviceSelect.pollCnt = s.pollCnt := by
  unfold State.deviceSelect; split <;> rfl
@[simp] theorem State.deviceSelect_wphase (s : State) : s.deviceSelect.wphase = s.wphase := by
  unfold State.deviceSelect; split <;> rfl
@[simp] theorem State.deviceSelect_done (s : State) : s.deviceSelect.done = s.done := by
  unfold State.deviceSelect; split <;> rfl
@[simp] theorem State.deviceSelect_err (s : State) : s.deviceSelect.err = s.err := by
  unfold State.deviceSelect; split <;> rfl
@[simp] theorem State.deviceSelect_errcode (s : State) : s.deviceSelect.errcode = s.errcode := by
  unfold State.deviceSelect; split <;> rfl
@[simp] theorem State.deviceSelect_rbit (s : State) : s.deviceSelect.rbit = s.rbit := by
  unfold State.deviceSelect; split <;> rfl
@[simp] theorem State.deviceSelect_rdata (s : State) : s.deviceSelect.rdata = s.rdata := by
  unfold State.deviceSelect; split <;> rfl
@[simp] theorem State.deviceSelect_cfg (s : State) : s.deviceSelect.cfg = s.cfg := by
  unfold State.deviceSelect; split <;> rfl
theorem State.deviceSelect_rdm (s : State) :
    s.deviceSelect.rdm = if s.cfg.rdmAttached then { s.rdm with fb := [] } else s.rdm := by
  unfold State.deviceSelect; split <;> rfl
@[simp] theorem State.deviceSelect_env (s : State) : s.deviceSelect.env = s.env := by
  unfold State.deviceSelect; split <;> rfl
@[simp] theorem State.deviceSelect_trace (s : State) : s.deviceSelect.trace = s.trace := by
  unfold State.deviceSelect; split <;> rfl

@[simp] theorem State.deviceDeselect_csN (s : State) : s.deviceDeselect.csN = s.csN := by
  unfold State.deviceDeselect; split <;> rfl
@[simp] theorem State.deviceDeselect_seq (s : State) : s.deviceDeselect.seq = s.seq := by
  unfold State.deviceDeselect; split <;> rfl
@[simp] theorem State.deviceDeselect_upc (s : State) : s.deviceDeselect.upc = s.upc := by
  unfold State.deviceDeselect; split <;> rfl
@[simp] theorem State.deviceDeselect_op (s : State) : s.deviceDeselect.op = s.op := by
  unfold State.deviceDeselect; split <;> rfl
@[simp] theorem State.deviceDeselect_addr (s : State) : s.deviceDeselect.addr = s.addr := by
  unfold State.deviceDeselect; split <;> rfl
@[simp] theorem State.deviceDeselect_len (s : State) : s.deviceDeselect.len = s.len := by
  unfold State.deviceDeselect; split <;> rfl
@[simp] theorem State.deviceDeselect_wdata (s : State) : s.deviceDeselect.wdata = s.wdata := by
  unfold State.deviceDeselect; split <;> rfl
@[simp] theorem State.deviceDeselect_srLast (s : State) : s.deviceDeselect.srLast = s.srLast := by
  unfold State.deviceDeselect; split <;> rfl
@[simp] theorem State.deviceDeselect_val (s : State) : s.deviceDeselect.val = s.val := by
  unfold State.deviceDeselect; split <;> rfl
@[simp] theorem State.deviceDeselect_pollCnt (s : State) : s.deviceDeselect.pollCnt = s.pollCnt := by
  unfold State.deviceDeselect; split <;> rfl
@[simp] theorem State.deviceDeselect_wphase (s : State) : s.deviceDeselect.wphase = s.wphase := by
  unfold State.deviceDeselect; split <;> rfl
@[simp] theorem State.deviceDeselect_done (s : State) : s.deviceDeselect.done = s.done := by
  unfold State.deviceDeselect; split <;> rfl
@[simp] theorem State.deviceDeselect_err (s : State) : s.deviceDeselect.err = s.err := by
  unfold State.deviceDeselect; split <;> rfl
@[simp] theorem State.deviceDeselect_errcode (s : State) : s.deviceDeselect.errcode = s.errcode := by
  unfold State.deviceDeselect; split <;> rfl
@[simp] theorem State.deviceDeselect_rbit (s : State) : s.deviceDeselect.rbit = s.rbit := by
  unfold State.deviceDeselect; split <;> rfl
@[simp] theorem State.deviceDeselect_rdata (s : State) : s.deviceDeselect.rdata = s.rdata := by
  unfold State.deviceDeselect; split <;> rfl
@[simp] theorem State.deviceDeselect_cfg (s : State) : s.deviceDeselect.cfg = s.cfg := by
  unfold State.deviceDeselect; split <;> rfl
theorem State.deviceDeselect_rdm (s : State) :
    s.deviceDeselect.rdm = if s.cfg.rdmAttached then { s.rdm with event := some .frameEnd } else s.rdm := by
  unfold State.deviceDeselect; split <;> rfl
@[simp] theorem State.deviceDeselect_env (s : State) : s.deviceDeselect.env = s.env := by
  unfold State.deviceDeselect; split <;> rfl
@[simp] theorem State.deviceDeselect_trace (s : State) : s.deviceDeselect.trace = s.trace := by
  unfold State.deviceDeselect; split <;> rfl

@[simp] theorem State.csAssert_csN (s : State) : s.csAssert.csN = false := by simp [State.csAssert]
@[simp] theorem State.csAssert_seq (s : State) : s.csAssert.seq = s.seq := by simp [State.csAssert]
@[simp] theorem State.csAssert_upc (s : State) : s.csAssert.upc = s.upc := by simp [State.csAssert]
@[simp] theorem State.csAssert_op (s : State) : s.csAssert.op = s.op := by simp [State.csAssert]
@[simp] theorem State.csAssert_addr (s : State) : s.csAssert.addr = s.addr := by simp [State.csAssert]
@[simp] theorem State.csAssert_len (s : State) : s.csAssert.len = s.len := by simp [State.csAssert]
@[simp] theorem State.csAssert_wdata (s : State) : s.csAssert.wdata = s.wdata := by simp [State.csAssert]
@[simp] theorem State.csAssert_srLast (s : State) : s.csAssert.srLast = s.srLast := by simp [State.csAssert]
@[simp] theorem State.csAssert_val (s : State) : s.csAssert.val = s.val := by simp [State.csAssert]
@[simp] theorem State.csAssert_pollCnt (s : State) : s.csAssert.pollCnt = s.pollCnt := by simp [State.csAssert]
@[simp] theorem State.csAssert_wphase (s : State) : s.csAssert.wphase = s.wphase := by simp [State.csAssert]
@[simp] theorem State.csAssert_done (s : State) : s.csAssert.done = s.done := by simp [State.csAssert]
@[simp] theorem State.csAssert_err (s : State) : s.csAssert.err = s.err := by simp [State.csAssert]
@[simp] theorem State.csAssert_errcode (s : State) : s.csAssert.errcode = s.errcode := by simp [State.csAssert]
@[simp] theorem State.csAssert_rbit (s : State) : s.csAssert.rbit = s.rbit := by simp [State.csAssert]
@[simp] theorem State.csAssert_rdata (s : State) : s.csAssert.rdata = s.rdata := by simp [State.csAssert]
@[simp] theorem State.csAssert_cfg (s : State) : s.csAssert.cfg = s.cfg := by simp [State.csAssert]
theorem State.csAssert_rdm (s : State) :
    s.csAssert.rdm = if s.cfg.rdmAttached then { s.rdm with fb := [] } else s.rdm := by
  rw [State.csAssert, State.deviceSelect_rdm]; rfl
@[simp] theorem State.csAssert_env (s : State) : s.csAssert.env = s.env := by simp [State.csAssert]
@[simp] theorem State.csAssert_trace (s : State) : s.csAssert.trace = s.trace ++ [.csl] := by simp [State.csAssert]

@[simp] theorem State.csDeassert_csN (s : State) : s.csDeassert.csN = true := by simp [State.csDeassert]
@[simp] theorem State.csDeassert_seq (s : State) : s.csDeassert.seq = s.seq := by simp [State.csDeassert]
@[simp] theorem State.csDeassert_upc (s : State) : s.csDeassert.upc = s.upc := by simp [State.csDeassert]
@[simp] theorem State.csDeassert_op (s : State) : s.csDeassert.op = s.op := by simp [State.csDeassert]
@[simp] theorem State.csDeassert_addr (s : State) : s.csDeassert.addr = s.addr := by simp [State.csDeassert]
@[simp] theorem State.csDeassert_len (s : State) : s.csDeassert.len = s.len := by simp [State.csDeassert]
@[simp] theorem State.csDeassert_wdata (s : State) : s.csDeassert.wdata = s.wdata := by simp [State.csDeassert]
@[simp] theorem State.csDeassert_srLast (s : State) : s.csDeassert.srLast = s.srLast := by simp [State.csDeassert]
@[simp] theorem State.csDeassert_val (s : State) : s.csDeassert.val = s.val := by simp [State.csDeassert]
@[simp] theorem State.csDeassert_pollCnt (s : State) : s.csDeassert.pollCnt = s.pollCnt := by simp [State.csDeassert]
@[simp] theorem State.csDeassert_wphase (s : State) : s.csDeassert.wphase = s.wphase := by simp [State.csDeassert]
@[simp] theorem State.csDeassert_done (s : State) : s.csDeassert.done = s.done := by simp [State.csDeassert]
@[simp] theorem State.csDeassert_err (s : State) : s.csDeassert.err = s.err := by simp [State.csDeassert]
@[simp] theorem State.csDeassert_errcode (s : State) : s.csDeassert.errcode = s.errcode := by simp [State.csDeassert]
@[simp] theorem State.csDeassert_rbit (s : State) : s.csDeassert.rbit = s.rbit := by simp [State.csDeassert]
@[simp] theorem State.csDeassert_rdata (s : State) : s.csDeassert.rdata = s.rdata := by simp [State.csDeassert]
@[simp] theorem State.csDeassert_cfg (s : State) : s.csDeassert.cfg = s.cfg := by simp [State.csDeassert]
theorem State.csDeassert_rdm (s : State) :
    s.csDeassert.rdm = if s.cfg.rdmAttached then { s.rdm with event := some .frameEnd } else s.rdm := by
  rw [State.csDeassert, State.deviceDeselect_rdm]; rfl
@[simp] theorem State.csDeassert_env (s : State) : s.csDeassert.env = s.env := by simp [State.csDeassert]
@[simp] theorem State.csDeassert_trace (s : State) : s.csDeassert.trace = s.trace ++ [.csh] := by simp [State.csDeassert]

/-! ### The end of a command -/

@[simp] theorem State.finish_csN (s : State) : (s.finish).csN = s.csN := rfl
@[simp] theorem State.finish_seq (s : State) : (s.finish).seq = .idle := rfl
@[simp] theorem State.finish_upc (s : State) : (s.finish).upc = s.upc := rfl
@[simp] theorem State.finish_op (s : State) : (s.finish).op = s.op := rfl
@[simp] theorem State.finish_addr (s : State) : (s.finish).addr = s.addr := rfl
@[simp] theorem State.finish_len (s : State) : (s.finish).len = s.len := rfl
@[simp] theorem State.finish_wdata (s : State) : (s.finish).wdata = s.wdata := rfl
@[simp] theorem State.finish_srLast (s : State) : (s.finish).srLast = s.srLast := rfl
@[simp] theorem State.finish_val (s : State) : (s.finish).val = s.val := rfl
@[simp] theorem State.finish_pollCnt (s : State) : (s.finish).pollCnt = s.pollCnt := rfl
@[simp] theorem State.finish_wphase (s : State) : (s.finish).wphase = s.wphase := rfl
@[simp] theorem State.finish_done (s : State) : (s.finish).done = true := rfl
@[simp] theorem State.finish_err (s : State) : (s.finish).err = s.err := rfl
@[simp] theorem State.finish_errcode (s : State) : (s.finish).errcode = s.errcode := rfl
@[simp] theorem State.finish_rbit (s : State) : (s.finish).rbit = s.rbit := rfl
@[simp] theorem State.finish_rdata (s : State) : (s.finish).rdata = s.rdata := rfl
@[simp] theorem State.finish_cfg (s : State) : (s.finish).cfg = s.cfg := rfl
@[simp] theorem State.finish_rdm (s : State) : (s.finish).rdm = s.rdm := rfl
@[simp] theorem State.finish_env (s : State) : (s.finish).env = s.env := rfl
theorem State.finish_trace (s : State) : s.finish.trace = s.trace ++ [.complete s.finish.resp] := rfl

@[simp] theorem State.complete_csN (s : State) : (s.complete).csN = s.csN := rfl
@[simp] theorem State.complete_seq (s : State) : (s.complete).seq = .idle := rfl
@[simp] theorem State.complete_upc (s : State) : (s.complete).upc = s.upc := rfl
@[simp] theorem State.complete_op (s : State) : (s.complete).op = s.op := rfl
@[simp] theorem State.complete_addr (s : State) : (s.complete).addr = s.addr := rfl
@[simp] theorem State.complete_len (s : State) : (s.complete).len = s.len := rfl
@[simp] theorem State.complete_wdata (s : State) : (s.complete).wdata = s.wdata := rfl
@[simp] theorem State.complete_srLast (s : State) : (s.complete).srLast = s.srLast := rfl
@[simp] theorem State.complete_val (s : State) : (s.complete).val = s.val := rfl
@[simp] theorem State.complete_pollCnt (s : State) : (s.complete).pollCnt = s.pollCnt := rfl
@[simp] theorem State.complete_wphase (s : State) : (s.complete).wphase = s.wphase := rfl
@[simp] theorem State.complete_done (s : State) : (s.complete).done = true := rfl
@[simp] theorem State.complete_err (s : State) : (s.complete).err = s.err := rfl
@[simp] theorem State.complete_errcode (s : State) : (s.complete).errcode = s.errcode := rfl
@[simp] theorem State.complete_rbit (s : State) : (s.complete).rbit = s.rbit := rfl
@[simp] theorem State.complete_rdata (s : State) : (s.complete).rdata = s.rdata := rfl
@[simp] theorem State.complete_cfg (s : State) : (s.complete).cfg = s.cfg := rfl
@[simp] theorem State.complete_rdm (s : State) : (s.complete).rdm = s.rdm := rfl
@[simp] theorem State.complete_env (s : State) : (s.complete).env = s.env := rfl
theorem State.complete_trace (s : State) : s.complete.trace = s.trace ++ [.complete s.complete.resp] := rfl

@[simp] theorem State.takeException_csN (s : State) (e : Exn) : (s.takeException e).csN = s.csN := rfl
@[simp] theorem State.takeException_seq (s : State) (e : Exn) : (s.takeException e).seq = .idle := rfl
@[simp] theorem State.takeException_upc (s : State) (e : Exn) : (s.takeException e).upc = s.upc := rfl
@[simp] theorem State.takeException_op (s : State) (e : Exn) : (s.takeException e).op = s.op := rfl
@[simp] theorem State.takeException_addr (s : State) (e : Exn) : (s.takeException e).addr = s.addr := rfl
@[simp] theorem State.takeException_len (s : State) (e : Exn) : (s.takeException e).len = s.len := rfl
@[simp] theorem State.takeException_wdata (s : State) (e : Exn) : (s.takeException e).wdata = s.wdata := rfl
@[simp] theorem State.takeException_srLast (s : State) (e : Exn) : (s.takeException e).srLast = s.srLast := rfl
@[simp] theorem State.takeException_val (s : State) (e : Exn) : (s.takeException e).val = s.val := rfl
@[simp] theorem State.takeException_pollCnt (s : State) (e : Exn) : (s.takeException e).pollCnt = s.pollCnt := rfl
@[simp] theorem State.takeException_wphase (s : State) (e : Exn) : (s.takeException e).wphase = s.wphase := rfl
@[simp] theorem State.takeException_done (s : State) (e : Exn) : (s.takeException e).done = true := rfl
@[simp] theorem State.takeException_err (s : State) (e : Exn) : (s.takeException e).err = true := rfl
@[simp] theorem State.takeException_errcode (s : State) (e : Exn) : (s.takeException e).errcode = e.code := rfl
@[simp] theorem State.takeException_rbit (s : State) (e : Exn) : (s.takeException e).rbit = s.rbit := rfl
@[simp] theorem State.takeException_rdata (s : State) (e : Exn) : (s.takeException e).rdata = s.rdata := rfl
@[simp] theorem State.takeException_cfg (s : State) (e : Exn) : (s.takeException e).cfg = s.cfg := rfl
@[simp] theorem State.takeException_rdm (s : State) (e : Exn) : (s.takeException e).rdm = s.rdm := rfl
@[simp] theorem State.takeException_env (s : State) (e : Exn) : (s.takeException e).env = s.env := rfl
theorem State.takeException_trace (s : State) (e : Exn) :
    (s.takeException e).trace = s.trace ++ [.complete (s.takeException e).resp] := rfl

/-! ### Free draws touch the inputs only -/

@[simp] theorem State.drawAnswer_csN (s : State) : s.drawAnswer.2.csN = s.csN := by
  unfold State.drawAnswer; split <;> rfl
@[simp] theorem State.drawAnswer_seq (s : State) : s.drawAnswer.2.seq = s.seq := by
  unfold State.drawAnswer; split <;> rfl
@[simp] theorem State.drawAnswer_upc (s : State) : s.drawAnswer.2.upc = s.upc := by
  unfold State.drawAnswer; split <;> rfl
@[simp] theorem State.drawAnswer_op (s : State) : s.drawAnswer.2.op = s.op := by
  unfold State.drawAnswer; split <;> rfl
@[simp] theorem State.drawAnswer_addr (s : State) : s.drawAnswer.2.addr = s.addr := by
  unfold State.drawAnswer; split <;> rfl
@[simp] theorem State.drawAnswer_len (s : State) : s.drawAnswer.2.len = s.len := by
  unfold State.drawAnswer; split <;> rfl
@[simp] theorem State.drawAnswer_wdata (s : State) : s.drawAnswer.2.wdata = s.wdata := by
  unfold State.drawAnswer; split <;> rfl
@[simp] theorem State.drawAnswer_srLast (s : State) : s.drawAnswer.2.srLast = s.srLast := by
  unfold State.drawAnswer; split <;> rfl
@[simp] theorem State.drawAnswer_val (s : State) : s.drawAnswer.2.val = s.val := by
  unfold State.drawAnswer; split <;> rfl
@[simp] theorem State.drawAnswer_pollCnt (s : State) : s.drawAnswer.2.pollCnt = s.pollCnt := by
  unfold State.drawAnswer; split <;> rfl
@[simp] theorem State.drawAnswer_wphase (s : State) : s.drawAnswer.2.wphase = s.wphase := by
  unfold State.drawAnswer; split <;> rfl
@[simp] theorem State.drawAnswer_done (s : State) : s.drawAnswer.2.done = s.done := by
  unfold State.drawAnswer; split <;> rfl
@[simp] theorem State.drawAnswer_err (s : State) : s.drawAnswer.2.err = s.err := by
  unfold State.drawAnswer; split <;> rfl
@[simp] theorem State.drawAnswer_errcode (s : State) : s.drawAnswer.2.errcode = s.errcode := by
  unfold State.drawAnswer; split <;> rfl
@[simp] theorem State.drawAnswer_rbit (s : State) : s.drawAnswer.2.rbit = s.rbit := by
  unfold State.drawAnswer; split <;> rfl
@[simp] theorem State.drawAnswer_rdata (s : State) : s.drawAnswer.2.rdata = s.rdata := by
  unfold State.drawAnswer; split <;> rfl
@[simp] theorem State.drawAnswer_cfg (s : State) : s.drawAnswer.2.cfg = s.cfg := by
  unfold State.drawAnswer; split <;> rfl
@[simp] theorem State.drawAnswer_rdm (s : State) : s.drawAnswer.2.rdm = s.rdm := by
  unfold State.drawAnswer; split <;> rfl
@[simp] theorem State.drawAnswer_trace (s : State) : s.drawAnswer.2.trace = s.trace := by
  unfold State.drawAnswer; split <;> rfl

@[simp] theorem State.drawByte_csN (s : State) : s.drawByte.2.csN = s.csN := by
  unfold State.drawByte; split <;> rfl
@[simp] theorem State.drawByte_seq (s : State) : s.drawByte.2.seq = s.seq := by
  unfold State.drawByte; split <;> rfl
@[simp] theorem State.drawByte_upc (s : State) : s.drawByte.2.upc = s.upc := by
  unfold State.drawByte; split <;> rfl
@[simp] theorem State.drawByte_op (s : State) : s.drawByte.2.op = s.op := by
  unfold State.drawByte; split <;> rfl
@[simp] theorem State.drawByte_addr (s : State) : s.drawByte.2.addr = s.addr := by
  unfold State.drawByte; split <;> rfl
@[simp] theorem State.drawByte_len (s : State) : s.drawByte.2.len = s.len := by
  unfold State.drawByte; split <;> rfl
@[simp] theorem State.drawByte_wdata (s : State) : s.drawByte.2.wdata = s.wdata := by
  unfold State.drawByte; split <;> rfl
@[simp] theorem State.drawByte_srLast (s : State) : s.drawByte.2.srLast = s.srLast := by
  unfold State.drawByte; split <;> rfl
@[simp] theorem State.drawByte_val (s : State) : s.drawByte.2.val = s.val := by
  unfold State.drawByte; split <;> rfl
@[simp] theorem State.drawByte_pollCnt (s : State) : s.drawByte.2.pollCnt = s.pollCnt := by
  unfold State.drawByte; split <;> rfl
@[simp] theorem State.drawByte_wphase (s : State) : s.drawByte.2.wphase = s.wphase := by
  unfold State.drawByte; split <;> rfl
@[simp] theorem State.drawByte_done (s : State) : s.drawByte.2.done = s.done := by
  unfold State.drawByte; split <;> rfl
@[simp] theorem State.drawByte_err (s : State) : s.drawByte.2.err = s.err := by
  unfold State.drawByte; split <;> rfl
@[simp] theorem State.drawByte_errcode (s : State) : s.drawByte.2.errcode = s.errcode := by
  unfold State.drawByte; split <;> rfl
@[simp] theorem State.drawByte_rbit (s : State) : s.drawByte.2.rbit = s.rbit := by
  unfold State.drawByte; split <;> rfl
@[simp] theorem State.drawByte_rdata (s : State) : s.drawByte.2.rdata = s.rdata := by
  unfold State.drawByte; split <;> rfl
@[simp] theorem State.drawByte_cfg (s : State) : s.drawByte.2.cfg = s.cfg := by
  unfold State.drawByte; split <;> rfl
@[simp] theorem State.drawByte_rdm (s : State) : s.drawByte.2.rdm = s.rdm := by
  unfold State.drawByte; split <;> rfl
@[simp] theorem State.drawByte_trace (s : State) : s.drawByte.2.trace = s.trace := by
  unfold State.drawByte; split <;> rfl

@[simp] theorem State.drawBusy_csN (s : State) : s.drawBusy.2.csN = s.csN := by
  unfold State.drawBusy; split <;> rfl
@[simp] theorem State.drawBusy_seq (s : State) : s.drawBusy.2.seq = s.seq := by
  unfold State.drawBusy; split <;> rfl
@[simp] theorem State.drawBusy_upc (s : State) : s.drawBusy.2.upc = s.upc := by
  unfold State.drawBusy; split <;> rfl
@[simp] theorem State.drawBusy_op (s : State) : s.drawBusy.2.op = s.op := by
  unfold State.drawBusy; split <;> rfl
@[simp] theorem State.drawBusy_addr (s : State) : s.drawBusy.2.addr = s.addr := by
  unfold State.drawBusy; split <;> rfl
@[simp] theorem State.drawBusy_len (s : State) : s.drawBusy.2.len = s.len := by
  unfold State.drawBusy; split <;> rfl
@[simp] theorem State.drawBusy_wdata (s : State) : s.drawBusy.2.wdata = s.wdata := by
  unfold State.drawBusy; split <;> rfl
@[simp] theorem State.drawBusy_srLast (s : State) : s.drawBusy.2.srLast = s.srLast := by
  unfold State.drawBusy; split <;> rfl
@[simp] theorem State.drawBusy_val (s : State) : s.drawBusy.2.val = s.val := by
  unfold State.drawBusy; split <;> rfl
@[simp] theorem State.drawBusy_pollCnt (s : State) : s.drawBusy.2.pollCnt = s.pollCnt := by
  unfold State.drawBusy; split <;> rfl
@[simp] theorem State.drawBusy_wphase (s : State) : s.drawBusy.2.wphase = s.wphase := by
  unfold State.drawBusy; split <;> rfl
@[simp] theorem State.drawBusy_done (s : State) : s.drawBusy.2.done = s.done := by
  unfold State.drawBusy; split <;> rfl
@[simp] theorem State.drawBusy_err (s : State) : s.drawBusy.2.err = s.err := by
  unfold State.drawBusy; split <;> rfl
@[simp] theorem State.drawBusy_errcode (s : State) : s.drawBusy.2.errcode = s.errcode := by
  unfold State.drawBusy; split <;> rfl
@[simp] theorem State.drawBusy_rbit (s : State) : s.drawBusy.2.rbit = s.rbit := by
  unfold State.drawBusy; split <;> rfl
@[simp] theorem State.drawBusy_rdata (s : State) : s.drawBusy.2.rdata = s.rdata := by
  unfold State.drawBusy; split <;> rfl
@[simp] theorem State.drawBusy_cfg (s : State) : s.drawBusy.2.cfg = s.cfg := by
  unfold State.drawBusy; split <;> rfl
@[simp] theorem State.drawBusy_rdm (s : State) : s.drawBusy.2.rdm = s.rdm := by
  unfold State.drawBusy; split <;> rfl
@[simp] theorem State.drawBusy_trace (s : State) : s.drawBusy.2.trace = s.trace := by
  unfold State.drawBusy; split <;> rfl

end Sys2Proof.Machine
end

