-- ==== Sys2Proof/Laws/Device.lean ====
section
/-! SUPPORT. What the reference device model's operations can do: they touch only the device and the draws, owe no
reaction afterwards, and keep the device's invariants. `deviceTurn_next` says it once for every wire instruction. -/

namespace Sys2Proof.Machine

/-- `t` is `s` but for the device and the draws: no register, no configuration, no trace, no host act. -/
structure OutsideOnly (s t : State) : Prop where
  block : t = { s with rdm := t.rdm, env := t.env }
  acts : t.env.acts = s.env.acts
  got : t.env.got = s.env.got

theorem OutsideOnly.refl (s : State) : OutsideOnly s s := ⟨rfl, rfl, rfl⟩

theorem OutsideOnly.trans {s t u : State} (h : OutsideOnly s t) (k : OutsideOnly t u) : OutsideOnly s u :=
  ⟨by rw [k.block, h.block], k.acts.trans h.acts, k.got.trans h.got⟩

theorem OutsideOnly.setRdm (s : State) (d : Rdm) : OutsideOnly s (s.setRdm d) := ⟨rfl, rfl, rfl⟩

theorem OutsideOnly.drawByte (s : State) : OutsideOnly s s.drawByte.2 := by
  unfold State.drawByte; split <;> exact ⟨rfl, rfl, rfl⟩

theorem OutsideOnly.drawBusy (s : State) : OutsideOnly s s.drawBusy.2 := by
  unfold State.drawBusy; split <;> exact ⟨rfl, rfl, rfl⟩

theorem OutsideOnly.drawAnswer (s : State) : OutsideOnly s s.drawAnswer.2 := by
  unfold State.drawAnswer; split <;> exact ⟨rfl, rfl, rfl⟩

/-- The device is busy exactly when an effect is pending, and then the latch is set and it is not powered down. -/
structure Rdm.CycleSound (d : Rdm) : Prop where
  busy : d.wip = d.pending.isSome
  latched : d.wip = true → d.wel = true
  awake : d.wip = true → d.dpd = false

/-- The array is as it was, unless a write cycle has just ended (20_memory.md R104). -/
def ArrayStep (cfg : Config) (d e : Rdm) : Prop :=
  e.array = d.array ∨ (d.wip = true ∧ d.busyLeft = .polls 0 ∧ e.array = (d.endCycle cfg).array)

/-- What every answer and act of the device keeps, from `s` to `t`. -/
structure Keeps (s t : State) : Prop where
  outside : OutsideOnly s t
  fb : t.rdm.fb = s.rdm.fb
  event : t.rdm.event = s.rdm.event
  cycle : s.rdm.CycleSound → t.rdm.CycleSound
  canonical : s.rdm.array.wf = true → t.rdm.array.wf = true
  inside : Memory.below s.cfg.deviceSize s.rdm.array = true → Memory.below s.cfg.deviceSize t.rdm.array = true
  array : ArrayStep s.cfg s.rdm t.rdm

theorem Keeps.refl (s : State) : Keeps s s := ⟨.refl s, rfl, rfl, fun h => h, fun h => h, fun h => h, .inl rfl⟩

theorem Keeps.drive (b : Byte) (s : State) : Keeps s (s.drive b) :=
  ⟨.setRdm s _, rfl, rfl, fun h => ⟨h.busy, h.latched, h.awake⟩, fun h => h, fun h => h, .inl rfl⟩

theorem Keeps.driveDraw (s : State) : Keeps s s.driveDraw := by
  have h := OutsideOnly.drawByte s
  refine ⟨h.trans (.setRdm _ _), ?_, ?_, ?_, ?_, ?_, .inl ?_⟩ <;> simp [State.driveDraw]
  exact fun h => ⟨h.busy, h.latched, h.awake⟩

theorem Keeps.driveCell (x : Nat) (s : State) : Keeps s (s.driveCell x) := by
  unfold State.driveCell
  split
  · exact .drive _ s
  · exact .driveDraw s

/-- An effect leaves the frame alone and keeps the array's form. -/
theorem Effect.apply_keeps (cfg : Config) (bp : BitVec 2) (d : Rdm) (e : Effect) :
    (e.apply cfg bp d).fb = d.fb ∧ (e.apply cfg bp d).event = d.event ∧
    (d.array.wf = true → (e.apply cfg bp d).array.wf = true) ∧
    (Memory.below cfg.deviceSize d.array = true → Memory.below cfg.deviceSize (e.apply cfg bp d).array = true) := by
  cases e with
  | writeStatus v => exact ⟨rfl, rfl, fun h => h, fun h => h⟩
  | write a l => exact ⟨rfl, rfl, Effect.onArray_wf cfg bp d.array (.write a l), Effect.onArray_below cfg bp d.array (.write a l)⟩
  | eraseSector a => exact ⟨rfl, rfl, Effect.onArray_wf cfg bp d.array (.eraseSector a), Effect.onArray_below cfg bp d.array (.eraseSector a)⟩
  | erasePage a => exact ⟨rfl, rfl, Effect.onArray_wf cfg bp d.array (.erasePage a), Effect.onArray_below cfg bp d.array (.erasePage a)⟩
  | eraseAll => exact ⟨rfl, rfl, Effect.onArray_wf cfg bp d.array (.eraseAll), Effect.onArray_below cfg bp d.array (.eraseAll)⟩

/-- The array a write cycle ends with (20_memory.md R104). -/
theorem Rdm.endCycle_array (cfg : Config) (d : Rdm) :
    (d.endCycle cfg).array = d.pending.elim d.array fun c => c.effect.onArray cfg c.bp d.array := by
  unfold Rdm.endCycle
  cases d.pending with
  | none => rfl
  | some c => obtain ⟨e, bp⟩ := c; cases e <;> rfl

theorem Rdm.endCycle_keeps (cfg : Config) (d : Rdm) :
    (d.endCycle cfg).fb = d.fb ∧ (d.endCycle cfg).event = d.event ∧ (d.endCycle cfg).CycleSound ∧
    (d.array.wf = true → (d.endCycle cfg).array.wf = true) ∧
    (Memory.below cfg.deviceSize d.array = true → Memory.below cfg.deviceSize (d.endCycle cfg).array = true) := by
  unfold Rdm.endCycle
  cases hp : d.pending with
  | none => exact ⟨rfl, rfl, ⟨rfl, by simp, by simp⟩, fun h => h, fun h => h⟩
  | some c =>
    obtain ⟨h1, h2, h3, h4⟩ := Effect.apply_keeps cfg c.bp d c.effect
    exact ⟨h1, h2, ⟨rfl, by simp, by simp⟩, h3, h4⟩

theorem Rdm.poll_keeps (cfg : Config) (d : Rdm) :
    (d.poll cfg).fb = d.fb ∧ (d.poll cfg).event = d.event ∧ (d.CycleSound → (d.poll cfg).CycleSound) ∧
    (d.array.wf = true → (d.poll cfg).array.wf = true) ∧
    (Memory.below cfg.deviceSize d.array = true → Memory.below cfg.deviceSize (d.poll cfg).array = true) := by
  unfold Rdm.poll
  split
  · split
    · obtain ⟨h1, h2, h3, h4, h5⟩ := Rdm.endCycle_keeps cfg d
      exact ⟨h1, h2, fun _ => h3, h4, h5⟩
    · exact ⟨rfl, rfl, fun h => ⟨h.busy, h.latched, h.awake⟩, fun h => h, fun h => h⟩
    · exact ⟨rfl, rfl, fun h => h, fun h => h, fun h => h⟩
  · exact ⟨rfl, rfl, fun h => h, fun h => h, fun h => h⟩

/-- A poll changes the array only where it ends a write cycle (20_memory.md R104). -/
theorem Rdm.poll_array (cfg : Config) (d : Rdm) : ArrayStep cfg d (d.poll cfg) := by
  unfold Rdm.poll
  split
  · next hw =>
    split
    · next hb => exact .inr ⟨hw, hb, rfl⟩
    · exact .inl rfl
    · exact .inl rfl
  · exact .inl rfl

theorem Keeps.driveStatus (s : State) : Keeps s s.driveStatus := by
  obtain ⟨h1, h2, h3, h4, h5⟩ := Rdm.poll_keeps s.cfg s.rdm
  exact ⟨.setRdm s _, h1, h2, fun h => ⟨(h3 h).busy, (h3 h).latched, (h3 h).awake⟩, h4, h5, Rdm.poll_array s.cfg s.rdm⟩

/-- `start_cycle` (20_memory.md R104) as one equation. -/
theorem State.startCycle_eq (s : State) (e : Effect) :
    s.startCycle e = s.drawBusy.2.setRdm
      { s.rdm with wip := true, pending := some { effect := e, bp := s.rdm.bp }, busyLeft := s.drawBusy.1 } := by
  simp [State.startCycle]

theorem Keeps.cycleIf (c : Bool) (e : Effect) (s : State) (hd : s.rdm.dpd = false) : Keeps s (s.cycleIf c e) := by
  unfold State.cycleIf
  split
  · next h =>
    have hw : s.rdm.wel = true := by simp only [Bool.and_eq_true] at h; exact h.1
    rw [State.startCycle_eq]
    exact ⟨(OutsideOnly.drawBusy s).trans (.setRdm _ _), rfl, rfl, fun _ => ⟨rfl, fun _ => hw, fun _ => hd⟩,
      fun k => k, fun k => k, .inl rfl⟩
  · exact .refl s

/-- A reaction keeps what its answer and its act keep, and owes no reaction afterwards (20_memory.md R102, R103). -/
theorem State.react_keeps (s : State) (wakes : Bool) (j : Nat) (answer act : State → State)
    (ha : Keeps s (answer s)) (hc : s.rdm.dpd = false → s.rdm.wip = false → Keeps s (act s)) :
    OutsideOnly s (s.react wakes j answer act) ∧ (s.react wakes j answer act).rdm.fb = s.rdm.fb ∧
    (s.react wakes j answer act).rdm.event = none ∧
    (s.rdm.CycleSound → (s.react wakes j answer act).rdm.CycleSound) ∧
    (s.rdm.array.wf = true → (s.react wakes j answer act).rdm.array.wf = true) ∧
    (Memory.below s.cfg.deviceSize s.rdm.array = true →
      Memory.below s.cfg.deviceSize (s.react wakes j answer act).rdm.array = true) ∧
    ArrayStep s.cfg s.rdm (s.react wakes j answer act).rdm := by
  have clear : ∀ t : State, Keeps s t →
      OutsideOnly s t.clearEvent ∧ t.clearEvent.rdm.fb = s.rdm.fb ∧ t.clearEvent.rdm.event = none ∧
      (s.rdm.CycleSound → t.clearEvent.rdm.CycleSound) ∧
      (s.rdm.array.wf = true → t.clearEvent.rdm.array.wf = true) ∧
      (Memory.below s.cfg.deviceSize s.rdm.array = true →
        Memory.below s.cfg.deviceSize t.clearEvent.rdm.array = true) ∧
      ArrayStep s.cfg s.rdm t.clearEvent.rdm := fun t hf =>
    ⟨hf.outside.trans (.setRdm _ _), hf.fb, rfl,
      fun h => ⟨(hf.cycle h).busy, (hf.cycle h).latched, (hf.cycle h).awake⟩, hf.canonical, hf.inside, hf.array⟩
  unfold State.react
  split
  · next h => exact ⟨.refl s, rfl, h, fun h => h, fun h => h, fun h => h, .inl rfl⟩
  · unfold State.answerByte
    split
    · exact clear _ (.driveDraw s)
    · exact clear _ ha
  · unfold State.endFrame
    split
    · split
      · exact clear _ ⟨.setRdm s _, rfl, rfl, fun h => ⟨h.busy, h.latched, fun _ => rfl⟩, fun h => h, fun h => h, .inl rfl⟩
      · exact clear s (.refl s)
    · next hd =>
      split
      · exact clear s (.refl s)
      · next hw => exact clear _ (hc (by simpa using hd) (by simpa using hw))

/-- Setting or clearing the latch, or entering deep power-down, outside a write cycle. -/
theorem Keeps.setIdle (s : State) (d : Rdm) (h : s.rdm.wip = false) (hw : d.wip = s.rdm.wip)
    (hp : d.pending = s.rdm.pending) (hf : d.fb = s.rdm.fb) (he : d.event = s.rdm.event)
    (ha : d.array = s.rdm.array) : Keeps s (s.setRdm d) := by
  refine ⟨.setRdm s _, hf, he, fun k => ⟨?_, ?_, ?_⟩, ?_, ?_, .inl ?_⟩ <;> simp [hw, hp, h, ha]
  simpa [h] using k.busy

/-- Every wire instruction reacts through `State.react`, with an answer and an act that keep the device sound. -/
theorem exec_wire (fb : List Byte) (i : Instr) (h : decodeFrame fb = .ok i) (s : State) :
    ∃ wakes j answer act, exec i s = .next (s.react wakes j answer act) ∧ Keeps s (answer s) ∧
      (s.rdm.dpd = false → s.rdm.wip = false → Keeps s (act s)) := by
  have draw := Keeps.driveDraw s
  unfold decodeFrame at h
  split at h
  · cases h
  · split at h
    all_goals cases h
    all_goals simp only [exec]
    · refine ⟨_, _, _, _, rfl, ?_, fun _ _ => .refl s⟩
      split
      · exact .driveCell _ s
      · exact draw
    · exact ⟨_, _, _, _, rfl, draw, fun hd _ => .cycleIf _ _ s hd⟩
    · exact ⟨_, _, _, _, rfl, draw, fun _ hw => .setIdle s _ hw rfl rfl rfl rfl rfl⟩
    · exact ⟨_, _, _, _, rfl, draw, fun _ hw => .setIdle s _ hw rfl rfl rfl rfl rfl⟩
    · exact ⟨_, _, _, _, rfl, .driveStatus s, fun _ _ => .refl s⟩
    · refine ⟨_, _, _, _, rfl, draw, fun hd _ => ?_⟩
      split
      · exact .refl s
      · exact .cycleIf _ _ s hd
    · exact ⟨_, _, _, _, rfl, draw, fun hd _ => .cycleIf _ _ s hd⟩
    · exact ⟨_, _, _, _, rfl, draw, fun hd _ => .cycleIf _ _ s hd⟩
    · exact ⟨_, _, _, _, rfl, draw, fun hd _ => .cycleIf _ _ s hd⟩
    · refine ⟨_, _, _, _, rfl, ?_, fun _ _ => .refl s⟩
      split
      · exact .drive _ s
      · exact draw
    · exact ⟨_, _, _, _, rfl, draw, fun _ hw => .setIdle s _ hw rfl rfl rfl rfl rfl⟩

/-- The device's turn, once for all: it ends in a next state that differs in the device and the draws only, owes no
reaction, and keeps the device's invariants. -/
theorem deviceTurn_next (s : State) :
    ∃ t, deviceTurn exec s = .next t ∧ OutsideOnly s t ∧ t.rdm.fb = s.rdm.fb ∧ t.rdm.event = none ∧
      (s.rdm.CycleSound → t.rdm.CycleSound) ∧ (s.rdm.array.wf = true → t.rdm.array.wf = true) ∧
      (Memory.below s.cfg.deviceSize s.rdm.array = true → Memory.below s.cfg.deviceSize t.rdm.array = true) ∧
      ArrayStep s.cfg s.rdm t.rdm := by
  unfold deviceTurn
  cases h : decodeFrame s.rdm.fb with
  | error e => exact ⟨_, rfl, s.react_keeps _ _ _ _ (.driveDraw s) fun _ _ => .refl s⟩
  | ok i =>
    obtain ⟨w, j, f, g, hx, hf, hg⟩ := exec_wire _ i h s
    exact ⟨_, hx, s.react_keeps w j f g hf hg⟩

end Sys2Proof.Machine
end

