-- ==== Sys2Proof/Laws/Sequencer.lean ====
section
/-! SUPPORT. What a sequencer step can do: the frame of internal computation, the exchange with the transport, and the
actions one by one. -/

namespace Sys2Proof.Machine

/-- `t` is `s` but for the registers internal computation writes (10_state.md R40). -/
def CalcOnly (s t : State) : Prop :=
  t = { s with srLast := t.srLast, rbit := t.rbit, val := t.val, pollCnt := t.pollCnt, wphase := t.wphase }

theorem CalcOnly.refl (s : State) : CalcOnly s s := rfl

theorem CalcOnly.trans {s t u : State} (h : CalcOnly s t) (k : CalcOnly t u) : CalcOnly s u := by
  unfold CalcOnly at *
  rw [k, h]

/-- Internal computation writes `SR_LAST`, `RBIT`, `VAL`, `POLL_CNT` and `WPHASE` only (10_state.md R40). -/
theorem nextAction_calcOnly :
    ∀ (code : List Micro) (s t : State) (a : Action), nextAction code s = .ok (t, a) → CalcOnly s t
  | [], s, t, a, h => by cases h; rfl
  | .bus b :: r, s, t, a, h => by cases h; rfl
  | .raise e :: r, s, t, a, h => by cases h; rfl
  | .compute c :: r, s, t, a, h => by
    have ih := nextAction_calcOnly r
    cases c with
    | pollStart => refine CalcOnly.trans ?_ (ih _ _ _ h); rfl
    | keepStatus =>
      unfold nextAction at h
      cases hl : s.localStatus with
      | error f => rw [hl] at h; cases h
      | ok b => rw [hl] at h; refine CalcOnly.trans ?_ (ih _ _ _ h); rfl
    | takeBit k =>
      unfold nextAction at h
      cases hl : s.localStatus with
      | error f => rw [hl] at h; cases h
      | ok b => rw [hl] at h; refine CalcOnly.trans ?_ (ih _ _ _ h); rfl
    | computeVal f =>
      unfold nextAction at h
      cases hl : s.localStatus with
      | error f => rw [hl] at h; cases h
      | ok b => rw [hl] at h; refine CalcOnly.trans ?_ (ih _ _ _ h); rfl
    | pollTest =>
      unfold nextAction at h
      cases hl : s.localStatus with
      | error f => rw [hl] at h; cases h
      | ok b =>
        rw [hl] at h
        simp only [Except.bind] at h
        split at h
        · split at h <;> (cases h; rfl)
        · refine CalcOnly.trans ?_ (ih _ _ _ h); rfl

/-- The exchange, once for all: some answer comes back, the event is recorded, and on the way only the device and the
draws have changed (10_state.md R45; 20_memory.md R102). -/
theorem exchange_next (o : Byte) (s : State) (received : Answer → State → State) :
    ∃ (a : Answer) (t : State), exchange (deviceTurn exec) o s received = .next (received a (t.record (.xfer o a))) ∧
      OutsideOnly s t ∧ (s.rdm.event = none → t.rdm.event = none) ∧
      (s.rdm.CycleSound → t.rdm.CycleSound) ∧ (s.rdm.array.wf = true → t.rdm.array.wf = true) ∧
      (Memory.below s.cfg.deviceSize s.rdm.array = true → Memory.below s.cfg.deviceSize t.rdm.array = true) ∧
      ArrayStep s.cfg s.rdm t.rdm := by
  unfold exchange
  split
  · obtain ⟨t, ht, ho, _, he, hc, hw, hb, ha⟩ := deviceTurn_next (s.deviceByte o)
    rw [ht]
    refine ⟨_, t, rfl, ?_, fun _ => he, fun h => hc ⟨h.busy, h.latched, h.awake⟩, hw, hb, ha.imp id fun ⟨h1, h2, h3⟩ => ⟨h1, h2, h3.trans ?_⟩⟩
    · exact (OutsideOnly.setRdm s _).trans ho
    · simp only [Rdm.endCycle_array]; rfl
  · refine ⟨_, _, rfl, OutsideOnly.drawAnswer s, ?_, ?_, ?_, ?_, .inl ?_⟩ <;> simp

/-- With no device model the exchange takes the next draw and touches the device not at all (10_state.md R45). -/
theorem exchange_free (react : State → Out) (o : Byte) (s : State) (received : Answer → State → State)
    (h : s.cfg.rdmAttached = false) :
    exchange react o s received = .next (received s.drawAnswer.1 (s.drawAnswer.2.record (.xfer o s.drawAnswer.1))) := by
  simp [exchange, h]

@[simp] theorem performEvent_csAssert (react : State → Out) (rest : List Micro) (s : State) :
    performEvent react .csAssert rest s = .next (s.csAssert.goTo rest) := rfl

@[simp] theorem performEvent_csDeassert_none (react : State → Out) (rest : List Micro) (s : State) :
    performEvent react (.csDeassert none) rest s = .next (s.csDeassert.goTo rest) := rfl

@[simp] theorem performEvent_csDeassert_some (react : State → Out) (w : Wphase) (rest : List Micro) (s : State) :
    performEvent react (.csDeassert (some w)) rest s = .next ((s.csDeassert.setWphase w).goTo rest) := rfl

@[simp] theorem performEvent_wait (react : State → Out) (d : WaitKind) (rest : List Micro) (s : State) :
    performEvent react (.wait d) rest s = .next ((s.wait d).goTo rest) := rfl

/-- A bus event in a state whose source holds a value ends in a next state (10_state.md R40). -/
theorem performEvent_next (b : BusOp) (rest : List Micro) (s : State)
    (h : ∀ src, b = .send src → ∃ o, s.source src = .ok o) :
    ∃ t, performEvent (deviceTurn exec) b rest s = .next t := by
  cases b with
  | csAssert => exact ⟨_, rfl⟩
  | csDeassert m => cases m <;> exact ⟨_, rfl⟩
  | wait d => exact ⟨_, rfl⟩
  | send src =>
    obtain ⟨o, ho⟩ := h src rfl
    obtain ⟨a, t, hx, _⟩ := exchange_next o s (afterXfer rest fun _ t => t)
    exact ⟨_, by simp only [performEvent, ho]; exact hx⟩
  | recvStatus =>
    obtain ⟨a, t, hx, _⟩ := exchange_next s.cfg.filler s (afterXfer rest fun i t => t.setLocal i)
    exact ⟨_, hx⟩
  | recvData k =>
    obtain ⟨a, t, hx, _⟩ := exchange_next s.cfg.filler s (afterXfer rest fun i t => t.setRdataAt k i)
    exact ⟨_, hx⟩

/-! ### The abort -/

theorem State.abort_high (s : State) (e : Exn) (h : s.csN = true) : s.abort e = s.takeException e := by
  simp [State.abort, h]

theorem State.abort_low (s : State) (e : Exn) (h : s.csN = false) : s.abort e = s.csDeassert.takeException e := by
  simp [State.abort, h]

/-- What every abort leaves (60_exceptions.md R301). -/
theorem State.abort_registers (s : State) (e : Exn) :
    (s.abort e).csN = true ∧ (s.abort e).seq = .idle ∧ (s.abort e).done = true ∧ (s.abort e).err = true ∧
    (s.abort e).errcode = e.code ∧ (s.abort e).wphase = s.wphase ∧ (s.abort e).srLast = s.srLast ∧
    (s.abort e).val = s.val ∧ (s.abort e).pollCnt = s.pollCnt ∧ (s.abort e).rdata = s.rdata ∧
    (s.abort e).rbit = s.rbit ∧ (s.abort e).op = s.op ∧ (s.abort e).addr = s.addr ∧ (s.abort e).len = s.len ∧
    (s.abort e).wdata = s.wdata ∧ (s.abort e).cfg = s.cfg ∧ (s.abort e).env = s.env := by
  unfold State.abort
  split <;> simp [*]

/-! ### ACCEPT -/

theorem accept_run (w : CmdWord) (n : Nat) (l : List Byte) (legal : Bool) (r : List (Option Byte)) (c : List Micro)
    (s : State) (h : s.seq = .run) : accept w n l legal r c s = s := by simp [accept, h]

theorem accept_legal (w : CmdWord) (n : Nat) (l : List Byte) (r : List (Option Byte)) (c : List Micro)
    (s : State) (h : s.seq = .idle) : accept w n l true r c s = (s.latch w n l).start r c := by simp [accept, h]

theorem accept_illegal (w : CmdWord) (n : Nat) (l : List Byte) (r : List (Option Byte)) (c : List Micro)
    (s : State) (h : s.seq = .idle) : accept w n l false r c s = (s.latch w n l).refuse := by simp [accept, h]

end Sys2Proof.Machine
end

