-- ==== Sys2Proof/Laws/Turn.lean ====
section
/-! SUPPORT. What a step of the machine can do, once: `step_cases`. -/

namespace Sys2Proof.Machine

/-- Every host command is an ACCEPT of its own operands (10_state.md R42). -/
theorem exec_host (w : CmdWord) (n : Nat) (l : List Byte) (i : Instr) (h : decodeHost w n l = .ok i) (s : State) :
    ∃ w' legal r c, exec i s = .next (accept w' n l legal r c s) := by
  unfold decodeHost at h
  split at h
  · cases h
  · split at h <;> cases h <;> exact ⟨_, _, _, _, rfl⟩

/-- The ways a step can end in a next state. -/
inductive StepCase (s t : State) : Prop where
  /-- The device reacts. -/
  | device (he : s.rdm.event ≠ none) (h : deviceTurn exec s = .next t)
  /-- The sequencer steps, a host act having been counted down or not. -/
  | sequencer (he : s.rdm.event = none) (hr : s.seq = .run) (l : List HostAct)
      (hl : l = s.env.acts ∨ ∃ n r, s.env.acts = .letRun (n + 1) :: r ∧ l = .letRun n :: r)
      (h : seqStep (deviceTurn exec) (s.setActs l) = .next t)
  /-- ACCEPT. -/
  | accept (he : s.rdm.event = none) (hi : s.seq = .idle) (w : CmdWord) (n : Nat) (d : List Byte) (l : List HostAct)
      (ha : s.env.acts = .accept w n d :: l) (h : acceptWord exec w n d (s.setActs l) = .next t)
  /-- A host read is served, a host act that only waits goes on or is over, or nobody has anything to do. -/
  | host (he : s.rdm.event = none) (l : List HostAct) (g : Option HostValue)
      (ha : ∀ w n d r, s.env.acts ≠ .accept w n d :: r)
      (h : t = { s with env := { s.env with acts := l, got := g } })
  /-- Reset is applied. -/
  | reset (he : s.rdm.event = none) (l : List HostAct) (ha : s.env.acts = .reset :: l) (h : t = (s.setActs l).applyReset)
  /-- The device's power is cycled. -/
  | power (he : s.rdm.event = none) (l : List HostAct) (ha : s.env.acts = .devicePowerCycle :: l)
      (h : t = (s.setActs l).cycleDevicePower)

theorem State.setActs_self (s : State) : s.setActs s.env.acts = s := rfl

theorem sequencerTurn_cases {s t : State} (l : List HostAct) (he : s.rdm.event = none)
    (hl : l = s.env.acts ∨ ∃ n r, s.env.acts = .letRun (n + 1) :: r ∧ l = .letRun n :: r)
    (ha : s.seq = .idle → ∀ w n d r, s.env.acts ≠ .accept w n d :: r)
    (h : sequencerTurn exec (s.setActs l) = .next t) : StepCase s t := by
  unfold sequencerTurn at h
  cases hs : s.seq with
  | idle =>
    simp only [State.setActs_seq, hs] at h
    cases h
    exact .host he l s.env.got (ha hs) rfl
  | run =>
    simp only [State.setActs_seq, hs] at h
    exact .sequencer he hs l hl h

/-- Every step that ends in a next state is one of the cases (10_state.md R40 to R44, 20_memory.md R100,
70_reset_and_hazards.md R332). -/
theorem step_cases {s t : State} (h : step s = .next t) : StepCase s t := by
  unfold step turn at h
  split at h
  · next e he => exact .device (by simp [he]) h
  · next he =>
    split at h
    · next ha => exact sequencerTurn_cases s.env.acts he (.inl rfl) (by simp [ha]) h
    · next act rest ha =>
      have hself : (s.seq = .idle → ∀ w n d r, s.env.acts ≠ .accept w n d :: r) → sequencerTurn exec s = .next t →
          StepCase s t := fun hn hx => sequencerTurn_cases s.env.acts he (.inl rfl) hn hx
      unfold hostTurn at h
      split at h
      · split at h
        · next hi => exact .accept he hi _ _ _ rest ha h
        · next hr => exact hself (by simp [hr]) h
      · split at h
        · cases h; exact .host he rest _ (by simp [ha]) rfl
        · cases h
      · split at h
        · cases h; exact .host he rest s.env.got (by simp [ha]) rfl
        · next hr => exact hself (by simp [hr]) h
      · cases h; exact .host he rest s.env.got (by simp [ha]) rfl
      · exact sequencerTurn_cases _ he (.inr ⟨_, _, ha, rfl⟩) (by simp [ha]) h
      · cases h; exact .reset he rest ha rfl
      · cases h; exact .power he rest ha rfl

/-- An accepted word ends in a next state that is an ACCEPT (10_state.md R42). -/
theorem acceptWord_next (w : CmdWord) (n : Nat) (d : List Byte) (s : State) :
    ∃ w' legal r c, acceptWord exec w n d s = .next (accept w' n d legal r c s) := by
  unfold acceptWord
  cases h : decodeHost w n d with
  | error e => exact ⟨_, _, _, _, rfl⟩
  | ok i => exact exec_host w n d i h s

end Sys2Proof.Machine
end

