-- ==== Sys2Proof/Laws/Sound.lean ====
section
/-! SUPPORT. A sound micro-sequence, step by step: what internal computation and a bus event leave of it, and that every
command starts one. -/

namespace Sys2Proof.Safety

open Sys2Proof.Machine

/-! ### The frame view -/

@[simp] theorem frameView_nil : frameView [] = { first := false, opcode := none } := rfl

@[simp] theorem frameView_snoc (l : List Event) (e : Event) : frameView (l ++ [e]) = (frameView l).see e := by
  simp [frameView]

/-! ### Soundness of a micro-sequence -/

/-- With `CS_N` = 1 the opcode sent last does not matter: a `CSL` comes before it can. -/
theorem sound_opcode (code : List Micro) :
    ∀ (k : Known) (b : Option Byte), k.csHigh = true →
      sound { k with view := { k.view with opcode := b } } code = sound k code := by
  induction code with
  | nil => intro k b h; rfl
  | cons m r ih =>
    intro k b h
    cases m with
    | raise e => rfl
    | compute c =>
      cases c with
      | keepStatus =>
        have := ih { k with fresh := true, settled := false } b h
        simp only [sound]; rw [← this]
      | takeBit n =>
        have := ih { k with fresh := false } b h
        simp only [sound]; rw [← this]
      | computeVal f =>
        have := ih { k with val := true, fresh := false } b h
        simp only [sound]; rw [← this]
      | pollStart =>
        have := ih { k with fresh := false } b h
        simp only [sound]; rw [← this]
      | pollTest =>
        have := ih { k with wphase := .idle, settled := true } b h
        simp only [sound]; rw [← this]
    | bus e =>
      cases e with
      | csAssert => rfl
      | csDeassert w => simp [sound, h]
      | send o => simp [sound, h]
      | recvStatus => simp [sound, h]
      | recvData n => simp [sound, h]
      | wait d => simp only [sound]; rw [← ih k b h]

/-- One more turn of the await loop is sound where its end is (41_status_timing.md R205). -/
theorem sound_awaitLoop (k : Known) (rest : List Micro) (hc : k.csHigh = true)
    (h : sound { k with wphase := .idle, settled := true, status := true, fresh := true,
                        view := { first := false, opcode := some 0x05#8 } } rest = true) :
    sound k (awaitLoop ++ rest) = true := by
  simp [awaitLoop, readStatus, assertCs, sendLit, deassertCs, sound, hc, Known.maySend, Known.sent, sentOpcode,
    writeClass, phaseMove]
  simpa [hc] using h

/-- Sound micro-sequences, one after the other: the first leads from `k` to `k'`. -/
def Leads (k : Known) (code : List Micro) (k' : Known) : Prop :=
  ∀ rest, sound k' rest = true → sound k (code ++ rest) = true

theorem Leads.append {k k' k'' : Known} {c d : List Micro} (h : Leads k c k') (j : Leads k' d k'') :
    Leads k (c ++ d) k'' := by
  intro rest hr
  rw [List.append_assoc]
  exact h _ (j _ hr)

theorem Leads.sound {k k' : Known} {c : List Micro} (h : Leads k c k') (hk : k'.csHigh = true) : sound k c = true := by
  simpa using h [] (by simpa [Safety.sound] using hk)

/-- Bytes sent inside a frame, past its opcode, change nothing that is known. -/
theorem Leads.sends (k : Known) (l : List Src) (hc : k.csHigh = false) (hv : k.view.first = false)
    (h : ∀ o ∈ l, k.maySend o = true) : Leads k (l.map fun o => .bus (.send o)) k := by
  induction l with
  | nil => exact fun rest hr => hr
  | cons o l ih =>
    intro rest hr
    have hs : k.sent o = k := by cases o <;> simp [Known.sent, hv]
    simp only [List.map_cons, List.cons_append, Safety.sound, hc, Bool.not_false, Bool.true_and, Bool.and_eq_true, hs]
    exact ⟨h o (by simp), ih (fun o ho => h o (by simp [ho])) rest hr⟩

theorem Leads.receives (k : Known) (l : List Nat) (hc : k.csHigh = false) (hv : k.view.first = false) :
    Leads k (l.map fun n => .bus (.recvData n)) k := by
  induction l with
  | nil => exact fun rest hr => hr
  | cons o l ih =>
    intro rest hr
    simp only [List.map_cons, List.cons_append, Safety.sound, hc, hv, Bool.not_false, Bool.true_and]
    exact ih rest hr

/-- `read_status` (41_status_timing.md R200). -/
theorem Leads.readStatus (k : Known) (hc : k.csHigh = true) :
    Leads k readStatus { k with view := { first := false, opcode := some 0x05#8 }, status := true, fresh := true, settled := false } := by
  intro rest hr
  simp [Machine.readStatus, assertCs, sendLit, deassertCs, Safety.sound, hc, Known.maySend, Known.sent, sentOpcode,
    writeClass, phaseMove]
  simpa [hc] using hr

/-- `await_write_complete` (41_status_timing.md R205). -/
theorem Leads.awaitWriteComplete (k : Known) (hc : k.csHigh = true) :
    Leads k awaitWriteComplete { k with wphase := .idle, settled := true, status := true, fresh := true,
                                        view := { first := false, opcode := some 0x05#8 } } := by
  intro rest hr
  exact sound_awaitLoop k rest hc hr

/-- `enable_write` (43_write_path.md R230). -/
theorem Leads.enableWrite (k : Known) (hc : k.csHigh = true) :
    Leads k enableWrite { k with wphase := .writeEnabled, view := { first := false, opcode := some 0x06#8 } } := by
  intro rest hr
  simp [Machine.enableWrite, assertCs, sendLit, deassertCs, Safety.sound, hc, Known.maySend, Known.sent, sentOpcode,
    writeClass, phaseMove]
  simpa [hc] using hr

/-- A frame opened with an opcode the sequencer sends outside the write class. -/
theorem Leads.openFrame (k : Known) (b : Byte) (hc : k.csHigh = true) (hb : sentOpcode b = true)
    (hw : writeClass b = true → k.wphase = .writeEnabled ∧ k.settled = true) :
    Leads k [assertCs, sendLit b] { k with csHigh := false, view := { first := false, opcode := some b } } := by
  intro rest hr
  simp only [assertCs, sendLit, List.cons_append, List.nil_append, Safety.sound, hc, Known.maySend, Known.sent, hb,
    Bool.not_true, Bool.false_or, Bool.true_and, Bool.not_false, if_true]
  cases h : writeClass b with
  | false => simpa using hr
  | true => simpa [(hw h).1, (hw h).2] using hr

/-- The `CSH` that ends a frame (10_state.md R38). -/
theorem Leads.closeFrame (k : Known) (m : Option Wphase) (hc : k.csHigh = false) (hv : k.view.first = false)
    (hm : m = k.view.opcode.bind phaseMove) :
    Leads k [deassertCs m] { k with csHigh := true, wphase := m.getD k.wphase } := by
  intro rest hr
  simp only [deassertCs, List.cons_append, List.nil_append, Safety.sound, hc, hv, ← hm, Bool.not_false, Bool.true_and,
    decide_true]
  exact hr

/-- `send_address(ADDR)` (42_address_framing.md R220). -/
theorem Leads.sendAddress (cfg : Config) (k : Known) (hc : k.csHigh = false) (hv : k.view.first = false) :
    Leads k (sendAddress cfg) k := by
  have := Leads.sends k ((addressOrder cfg).map .addrByte) hc hv (by simp [Known.maySend, hv])
  simpa [Machine.sendAddress, List.map_map, Function.comp_def] using this

/-- `send_address(sector_address(ADDR))` (45_erase_protection.md R261). -/
theorem Leads.sendSectorAddress (cfg : Config) (k : Known) (hc : k.csHigh = false) (hv : k.view.first = false) :
    Leads k (sendSectorAddress cfg) k := by
  have := Leads.sends k ((addressOrder cfg).map .sectorByte) hc hv (by simp [Known.maySend, hv])
  simpa [Machine.sendSectorAddress, List.map_map, Function.comp_def] using this

/-- The data bytes of WRITE (43_write_path.md R234). -/
theorem Leads.sendData (n : Nat) (k : Known) (hc : k.csHigh = false) (hv : k.view.first = false) (hn : n ≤ k.dataLen) :
    Leads k (sendData n) k := by
  have := Leads.sends k ((List.range n).map .wdata) hc hv (by
    simp only [List.mem_map, List.mem_range, forall_exists_index, and_imp, forall_apply_eq_imp_iff₂]
    intro i hi
    simp [Known.maySend, hv]; omega)
  simpa [Machine.sendData, List.map_map, Function.comp_def] using this

/-- The await after a status write or an erase, when there is one (00_scope.md R13). -/
theorem sound_awaitIfPolling (cfg : Config) (k : Known) (hc : k.csHigh = true) : sound k (awaitIfPolling cfg) = true := by
  unfold awaitIfPolling
  split
  · exact (Leads.awaitWriteComplete k hc).sound hc
  · simpa [sound] using hc

/-- A status query (41_status_timing.md R201 to R204). -/
theorem sound_queryBit (n : Nat) (k : Known) (hc : k.csHigh = true) : sound k (queryBit n) = true := by
  apply Leads.readStatus k hc
  simp [sound, hc]

/-- `write_status_register` (43_write_path.md R236). -/
theorem sound_writeStatusRegister (cfg : Config) (k : Known) (hc : k.csHigh = true) (hv : k.val = true) :
    sound k (writeStatusRegister cfg) = true := by
  unfold writeStatusRegister
  have h1 := Leads.awaitWriteComplete k hc
  have h2 := h1.append (Leads.enableWrite _ hc)
  have h3 := h2.append (Leads.openFrame _ 0x01#8 hc rfl fun _ => ⟨rfl, rfl⟩)
  have h4 := h3.append (Leads.sends _ [.val] rfl rfl (by simp [Known.maySend, hv]))
  have h5 := h4.append (Leads.closeFrame _ (some .writing) rfl rfl rfl)
  have := h5 (awaitIfPolling cfg) (sound_awaitIfPolling cfg _ rfl)
  simpa [List.append_assoc] using this

/-- Every command starts a sound micro-sequence, where `CS_N` is 1, the latch is loaded and, for WRITE, `D` has at least
`L` bytes (10_state.md R42, 30_encoding.md R143). -/
theorem startOf_sound (cfg : Config) (i : Instr) (k : Known) (hc : k.csHigh = true)
    (hd : ∀ a n l, i = .write a n l → n ≤ k.dataLen) : sound k (startOf cfg i) = true := by
  have rmw : ∀ f, sound k (statusRmw cfg f) = true := fun f => by
    unfold statusRmw
    rw [List.append_assoc]
    apply Leads.readStatus k hc
    simp only [List.cons_append, List.nil_append, sound, Bool.true_and]
    exact sound_writeStatusRegister cfg _ hc rfl
  cases i with
  | write a n l =>
    have hn := hd a n l rfl
    have h1 := Leads.awaitWriteComplete k hc
    have h2 := h1.append (Leads.enableWrite _ hc)
    have h3 := h2.append (Leads.openFrame _ 0x02#8 hc rfl fun _ => ⟨rfl, rfl⟩)
    have h4 := h3.append (Leads.sendAddress cfg _ rfl rfl)
    have h5 := h4.append (Leads.sendData n _ rfl rfl hn)
    have h6 := h5.append (Leads.closeFrame _ (some .writing) rfl rfl rfl)
    have h7 := h6.append (Leads.awaitWriteComplete _ rfl)
    simpa [startOf, writeSeq, beginWrite] using h7.sound rfl
  | read a n l =>
    have h1 := Leads.openFrame k 0x03#8 hc rfl (by simp [writeClass])
    have h2 := h1.append (Leads.sendAddress cfg _ rfl rfl)
    have h3 := h2.append (Leads.receives _ (List.range n) rfl rfl)
    have h4 := h3.append (Leads.closeFrame _ none rfl rfl rfl)
    simpa [startOf, readSeq, receiveData] using h4.sound rfl
  | readId a n l =>
    simp [startOf, readIdSeq, assertCs, sendLit, deassertCs, sound, hc, Known.maySend, Known.sent, sentOpcode,
      writeClass, phaseMove]
  | dpdEnter a n l =>
    simp [startOf, dpdEnterSeq, assertCs, sendLit, deassertCs, sound, hc, Known.maySend, Known.sent, sentOpcode,
      writeClass, phaseMove]
  | dpdRelease a n l =>
    simp [startOf, dpdReleaseSeq, assertCs, sendLit, deassertCs, sound, hc, Known.maySend, Known.sent, sentOpcode,
      writeClass, phaseMove]
  | eraseSector a n l =>
    have h1 := Leads.awaitWriteComplete k hc
    have h2 := h1.append (Leads.enableWrite _ hc)
    have h3 := h2.append (Leads.openFrame _ 0xD8#8 hc rfl fun _ => ⟨rfl, rfl⟩)
    have h4 := h3.append (Leads.sendSectorAddress cfg _ rfl rfl)
    have h5 := h4.append (Leads.closeFrame _ (some .writing) rfl rfl rfl)
    simpa [startOf, eraseSectorSeq] using h5 (awaitIfPolling cfg) (sound_awaitIfPolling cfg _ rfl)
  | eraseChip a n l =>
    have h1 := Leads.awaitWriteComplete k hc
    have h2 := h1.append (Leads.enableWrite _ hc)
    have h3 := h2.append (Leads.openFrame _ 0xC7#8 hc rfl fun _ => ⟨rfl, rfl⟩)
    have h4 := h3.append (Leads.closeFrame _ (some .writing) rfl rfl rfl)
    simpa [startOf, eraseChipSeq] using h4 (awaitIfPolling cfg) (sound_awaitIfPolling cfg _ rfl)
  | protectNone a n l => exact rmw _
  | protectUpperQuarter a n l => exact rmw _
  | protectUpperHalf a n l => exact rmw _
  | protectAll a n l => exact rmw _
  | hwProtectEnable a n l => exact rmw _
  | hwProtectDisable a n l => exact rmw _
  | isWip a n l => exact sound_queryBit _ k hc
  | isWpen a n l => exact sound_queryBit _ k hc
  | isBp0 a n l => exact sound_queryBit _ k hc
  | isBp1 a n l => exact sound_queryBit _ k hc
  | _ => simpa [startOf, sound] using hc

end Sys2Proof.Safety
end

