-- ==== Sys2Proof/Laws/Running.lean ====
section
/-! SUPPORT. What a step of a soundly running sequencer can do, once: internal computation reaches an action
(`nextAction_sound`), and a bus event leaves a sound sequencer (`performEvent_sound`). -/

namespace Sys2Proof.Safety

open Sys2Proof.Machine

/-- What is known carries over to a state that differs in nothing it speaks of. -/
theorem Known.Describes.congr {k : Known} {s t : State} {u w : Upc} (h : Known.Describes k s u) (hw : w.s = u.s)
    (hc : t.csN = s.csN) (hv : frameView t.trace = frameView s.trace) (hp : t.wphase = s.wphase)
    (hs : t.srLast = s.srLast) (hval : t.val = s.val) (ha : t.addr = s.addr) (hd : t.wdata = s.wdata)
    (hr : t.rdata = s.rdata) : Known.Describes k t w :=
  ⟨hc ▸ h.csHigh, hv ▸ h.view, hp ▸ h.wphase, hw ▸ h.status, hw ▸ hs ▸ h.fresh, hs ▸ h.settled, hval ▸ h.val,
    ha ▸ h.addr, hd ▸ h.data, hr ▸ h.rdata⟩

/-- Nothing is lost by not relying on a fresh status byte. -/
theorem Known.Describes.stale {k : Known} {s : State} {u : Upc} (h : Known.Describes k s u) :
    Known.Describes { k with fresh := false } s u :=
  ⟨h.csHigh, h.view, h.wphase, h.status, by simp, h.settled, h.val, h.addr, h.data, h.rdata⟩

/-- What follows an action of a sound micro-sequence is sound. -/
def Follows (k : Known) : Action → Prop
  | .event b rest => sound k (.bus b :: rest) = true
  | .complete => k.csHigh = true
  | .raise _ => True

/-- The local status byte of a state whose `UPC` is known. -/
theorem localStatus_of {s : State} {u : Upc} {b : Byte} (hu : s.upc = some u) (hb : u.s = some b) :
    s.localStatus = .ok b := by simp [State.localStatus, hu, hb, valueOf]

theorem upc_s_of {k : Known} {s : State} {u : Upc} (h : Known.Describes k s u) (hk : k.status = true) :
    ∃ b, u.s = some b := Option.isSome_iff_exists.mp (h.status hk)

/-- Internal computation of a sound micro-sequence reaches an action, and what follows it is sound
(10_state.md R40). -/
theorem nextAction_sound (u : Upc) (code : List Micro) :
    ∀ (k : Known) (s : State), Known.Describes k s u → s.upc = some u → sound k code = true →
      ∃ t a k', nextAction code s = .ok (t, a) ∧ CalcOnly s t ∧ Known.Describes k' t u ∧ Follows k' a ∧
        (t.wphase = s.wphase ∨ k.fresh = true ∧ k.csHigh = true ∧ t.wphase = .idle ∧
          (∃ r, code = .compute .pollTest :: r) ∧ ∃ v, u.s = some v ∧ v.getLsbD 0 = false) ∧
        (t.srLast = s.srLast ∨ ∃ v, u.s = some v ∧ t.srLast = some v) := by
  induction code with
  | nil => exact fun k s h _ hs => ⟨s, .complete, k, rfl, .refl s, h, hs, .inl rfl, .inl rfl⟩
  | cons m r ih =>
    intro k s h hu hs
    cases m with
    | raise e => exact ⟨s, .raise e, k, rfl, .refl s, h, trivial, .inl rfl, .inl rfl⟩
    | bus b => exact ⟨s, .event b r, k, rfl, .refl s, h, hs, .inl rfl, .inl rfl⟩
    | compute c =>
      cases c with
      | pollStart =>
        obtain ⟨t, a, k', e, ho, hd, hf, hw, hl⟩ := ih { k with fresh := false } (s.setPollCnt 0)
          (h.stale.congr rfl rfl rfl rfl rfl rfl rfl rfl rfl) hu hs
        exact ⟨t, a, k', e, CalcOnly.trans (t := s.setPollCnt 0) rfl ho, hd, hf, .inl (hw.resolve_right (by simp)), hl⟩
      | keepStatus =>
        simp only [sound, Bool.and_eq_true] at hs
        obtain ⟨b, hb⟩ := upc_s_of h hs.1.2
        obtain ⟨t, a, k', e, ho, hd, hf, hw, hl⟩ := ih { k with fresh := true, settled := false } (s.setSrLast b)
          ⟨h.csHigh, h.view, h.wphase, h.status, fun _ => hb, by simp, h.val, h.addr, h.data, h.rdata⟩ hu hs.2
        have hlow : k.csHigh = false := by simpa using hs.1.1
        refine ⟨t, a, k', ?_, CalcOnly.trans (t := s.setSrLast b) rfl ho, hd, hf,
          .inl (hw.resolve_right (by simp [hlow])), .inr ?_⟩
        · simp only [nextAction, localStatus_of hu hb, Except.bind, e]
        · exact ⟨b, hb, hl.elim id fun ⟨v, hv, hx⟩ => by rw [hx, ← hv, hb]⟩
      | takeBit n =>
        simp only [sound, Bool.and_eq_true] at hs
        obtain ⟨b, hb⟩ := upc_s_of h hs.1
        obtain ⟨t, a, k', e, ho, hd, hf, hw, hl⟩ := ih { k with fresh := false } (s.setRbit (b.getLsbD n))
          (h.stale.congr rfl rfl rfl rfl rfl rfl rfl rfl rfl) hu hs.2
        refine ⟨t, a, k', ?_, CalcOnly.trans (t := s.setRbit (b.getLsbD n)) rfl ho, hd, hf,
          .inl (hw.resolve_right (by simp)), hl⟩
        simp only [nextAction, localStatus_of hu hb, Except.bind, e]
      | computeVal f =>
        simp only [sound, Bool.and_eq_true] at hs
        obtain ⟨b, hb⟩ := upc_s_of h hs.1
        obtain ⟨t, a, k', e, ho, hd, hf, hw, hl⟩ := ih { k with val := true, fresh := false } (s.setVal (f.apply b))
          ⟨h.csHigh, h.view, h.wphase, h.status, by simp, h.settled, fun _ => rfl, h.addr, h.data, h.rdata⟩ hu hs.2
        refine ⟨t, a, k', ?_, CalcOnly.trans (t := s.setVal (f.apply b)) rfl ho, hd, hf,
          .inl (hw.resolve_right (by simp)), hl⟩
        simp only [nextAction, localStatus_of hu hb, Except.bind, e]
      | pollTest =>
        simp only [sound, Bool.and_eq_true, Bool.not_eq_true'] at hs
        obtain ⟨⟨⟨⟨h1, h2⟩, h3⟩, h4⟩, h5⟩ := hs
        obtain ⟨b, hb⟩ := upc_s_of h h1
        cases hz : b.getLsbD 0 with
        | true =>
          by_cases hlim : (s.setPollCnt (s.pollCnt + 1)).limitReached = true
          · refine ⟨s.setPollCnt (s.pollCnt + 1), .raise .deviceNotResponding, k, ?_, rfl,
              h.congr rfl rfl rfl rfl rfl rfl rfl rfl rfl, trivial, .inl rfl, .inl rfl⟩
            simp only [nextAction, localStatus_of hu hb, Except.bind, hz, if_true, hlim]
          · refine ⟨s.setPollCnt (s.pollCnt + 1), .event (.wait .pollDelay) (awaitLoop ++ r), k, ?_, rfl,
              h.congr rfl rfl rfl rfl rfl rfl rfl rfl rfl, ?_, .inl rfl, .inl rfl⟩
            · simp only [nextAction, localStatus_of hu hb, Except.bind, hz, if_true, hlim]; rfl
            · have hk : sound k (awaitLoop ++ r) = true := by
                apply sound_awaitLoop k r h3
                have := sound_opcode r { k with wphase := .idle, settled := true } (some 0x05#8) h3
                rw [h5] at this
                simpa [h1, h2, h4] using this
              simp [Follows, sound, h3, h4, hk]
        | false =>
          obtain ⟨t, a, k', e, ho, hd, hf, hw, hl⟩ := ih { k with wphase := .idle, settled := true } (s.setWphase .idle)
            ⟨h.csHigh, h.view, rfl, h.status, h.fresh,
              fun _ => ⟨b, by have := h.fresh h2; simp only [State.setWphase_srLast, ← this, hb], hz⟩,
              h.val, h.addr, h.data, h.rdata⟩ hu h5
          refine ⟨t, a, k', ?_, CalcOnly.trans (t := s.setWphase .idle) rfl ho, hd, hf, .inr ⟨h2, h3, ?_, ⟨r, rfl⟩, b, hb, hz⟩, hl⟩
          · simp only [nextAction, localStatus_of hu hb, Except.bind, hz]; exact e
          · exact hw.elim id fun hw => hw.2.2.1

/-- The byte a sound micro-sequence sends is there (30_encoding.md R144). -/
theorem source_of_maySend {k : Known} {s : State} {u : Upc} (h : Known.Describes k s u) (o : Src)
    (hm : k.maySend o = true) : ∃ b, s.source o = .ok b := by
  cases o with
  | lit b => exact ⟨b, rfl⟩
  | filler => exact ⟨_, rfl⟩
  | addrByte n =>
    obtain ⟨a, ha⟩ := Option.isSome_iff_exists.mp h.addr
    exact ⟨byteOf a n, by simp [State.source, ha, valueOf, Except.map]⟩
  | sectorByte n =>
    obtain ⟨a, ha⟩ := Option.isSome_iff_exists.mp h.addr
    exact ⟨byteOf (sectorAddress s.cfg a) n, by simp [State.source, ha, valueOf, Except.map]⟩
  | wdata i =>
    obtain ⟨l, hl, hn⟩ := h.data
    simp only [Known.maySend, Bool.and_eq_true, decide_eq_true_eq] at hm
    have hi : i < l.length := by omega
    exact ⟨l[i], by simp [State.source, hl, valueOf, Except.bind, hi]⟩
  | val =>
    simp only [Known.maySend, Bool.and_eq_true] at hm
    obtain ⟨v, hv⟩ := Option.isSome_iff_exists.mp (h.val hm.2)
    exact ⟨v, by simp [State.source, hv, valueOf]⟩

/-- What is known of the frame after a byte. -/
theorem Known.sent_spec (k : Known) (o : Src) (b : Byte) (s : State) (hb : s.source o = .ok b) (a : Answer)
    (hm : k.maySend o = true) :
    k.sent o = { k with view := k.view.see (.xfer b a) } ∧
      (k.view.first = true → sentOpcode b = true ∧
        (writeClass b = true → k.wphase = .writeEnabled ∧ k.settled = true)) := by
  cases o with
  | lit c =>
    cases hb
    cases hf : k.view.first with
    | true =>
      simp only [Known.maySend, hf, Bool.not_true, Bool.false_or, Bool.and_eq_true] at hm
      refine ⟨by simp [Known.sent, FrameView.see, hf], fun _ => ⟨hm.1, fun hw => ?_⟩⟩
      simpa [hw] using hm.2
    | false => exact ⟨by simp [Known.sent, FrameView.see, hf], by simp⟩
  | filler => simp [Known.maySend] at hm; simp [Known.sent, FrameView.see, hm]
  | addrByte n => simp [Known.maySend] at hm; simp [Known.sent, FrameView.see, hm]
  | sectorByte n => simp [Known.maySend] at hm; simp [Known.sent, FrameView.see, hm]
  | wdata n => simp [Known.maySend] at hm; simp [Known.sent, FrameView.see, hm]
  | val => simp only [Known.maySend, Bool.and_eq_true, Bool.not_eq_true'] at hm; simp [Known.sent, FrameView.see, hm.1]

/-- What a bus event of a sound micro-sequence records and moves (00_scope.md R19, 10_state.md R38, 30_encoding.md R153):
`s` is the state internal computation left. -/
structure EventSpec (k : Known) (s t : State) : Prop where
  acts : t.env.acts = s.env.acts
  got : t.env.got = s.env.got
  cfg : t.cfg = s.cfg
  srLast : t.srLast = s.srLast
  still : t.seq = s.seq
  done : t.done = s.done
  err : t.err = s.err
  errcode : t.errcode = s.errcode
  event : ∃ e, t.trace = s.trace ++ [e] ∧ isBusEvent e = true ∧ (e = .csh → s.csN = false) ∧
    (e = .csh → ∀ b, k.view.opcode = some b → t.wphase = (phaseMove b).getD s.wphase) ∧
    (e ≠ .csh → t.wphase = s.wphase) ∧
    (e = .csh → k.view.opcode = none → t.wphase = s.wphase) ∧
    (∀ o a, e = .xfer o a → k.view.first = true → sentOpcode o = true ∧
      (writeClass o = true → k.wphase = .writeEnabled ∧ k.settled = true))

/-- After an exchange (10_state.md R45, R46): the byte is kept as `keep` says, or the abort comes next. -/
theorem afterXfer_sound (k : Known) (s x : State) (u : Upc) (rest : List Micro) (o : Byte) (a : Answer)
    (keep : Byte → State → State) (k' : Known)
    (h : Known.Describes k s u) (hu : s.upc = some u) (hx : OutsideOnly s x)
    (hop : k.view.first = true → sentOpcode o = true ∧ (writeClass o = true → k.wphase = .writeEnabled ∧ k.settled = true))
    (hk : ∀ i, ∃ w l, keep i (x.record (.xfer o a)) = { x.record (.xfer o a) with upc := some w, rdata := some l } ∧
      Known.Describes k' (keep i (x.record (.xfer o a))) w)
    (hr : sound k' rest = true) :
    EventSpec k s (afterXfer rest keep a (x.record (.xfer o a))) ∧
    ∃ w k'', (afterXfer rest keep a (x.record (.xfer o a))).upc = some w ∧
      Known.Describes k'' (afterXfer rest keep a (x.record (.xfer o a))) w ∧ sound k'' w.code = true := by
  have hb := hx.block
  cases a with
  | err =>
    refine ⟨⟨hx.acts, hx.got, by rw [hb]; rfl, by rw [hb]; rfl, by rw [hb]; rfl, by rw [hb]; rfl, by rw [hb]; rfl,
      by rw [hb]; rfl, .xfer o .err, by rw [hb]; rfl, rfl, by simp, by simp, fun _ => by rw [hb]; rfl, by simp, ?_⟩, ?_⟩
    · intro o' a' he
      cases he; exact hop
    · refine ⟨_, { k with view := k.view.see (.xfer o .err) }, rfl, ?_, rfl⟩
      refine ⟨?_, ?_, ?_, ?_, ?_, ?_, ?_, ?_, ?_, ?_⟩
      · rw [hb]; exact h.csHigh
      · rw [hb]; simp [afterXfer, h.view]
      · rw [hb]; exact h.wphase
      · intro hs; rw [hb]; simp [hu]; exact h.status hs
      · intro hs; rw [hb]; simp [hu]; exact h.fresh hs
      · intro hs; rw [hb]; exact h.settled hs
      · intro hs; rw [hb]; exact h.val hs
      · rw [hb]; exact h.addr
      · rw [hb]; exact h.data
      · rw [hb]; exact h.rdata
  | byte i =>
    obtain ⟨w, l, he, hd⟩ := hk i
    have hupc : (keep i (x.record (.xfer o (.byte i)))).upc = some w := by rw [he]
    refine ⟨⟨?_, ?_, ?_, ?_, ?_, ?_, ?_, ?_, .xfer o (.byte i), ?_, rfl, by simp, by simp, fun _ => ?_, by simp, ?_⟩, ?_⟩
    · simp only [afterXfer, he]; exact hx.acts
    · simp only [afterXfer, he]; exact hx.got
    · simp only [afterXfer, he]; rw [hb]; rfl
    · simp only [afterXfer, he]; rw [hb]; rfl
    · simp only [afterXfer, he]; rw [hb]; rfl
    · simp only [afterXfer, he]; rw [hb]; rfl
    · simp only [afterXfer, he]; rw [hb]; rfl
    · simp only [afterXfer, he]; rw [hb]; rfl
    · simp only [afterXfer, he]; rw [hb]; rfl
    · simp only [afterXfer, he]; rw [hb]; rfl
    · intro o' a' hxf
      cases hxf; exact hop
    · refine ⟨{ code := rest, s := w.s }, k', ?_, ?_, hr⟩
      · simp [afterXfer, hupc]
      · exact hd.congr rfl rfl rfl rfl rfl rfl rfl rfl rfl

/-- A bus event of a sound micro-sequence ends in a next state, does what `EventSpec` says, and leaves a sound
sequencer (10_state.md R40). -/
theorem performEvent_sound (k : Known) (s : State) (u : Upc) (b : BusOp) (rest : List Micro)
    (h : Known.Describes k s u) (hu : s.upc = some u) (hs : sound k (.bus b :: rest) = true) :
    ∃ t w k', performEvent (deviceTurn exec) b rest s = .next t ∧ EventSpec k s t ∧ t.upc = some w ∧
      Known.Describes k' t w ∧ sound k' w.code = true := by
  cases b with
  | csAssert =>
    simp only [sound, Bool.and_eq_true] at hs
    refine ⟨_, _, _, rfl, ?_, rfl, ?_, hs.2⟩
    · refine ⟨?_, ?_, ?_, ?_, ?_, ?_, ?_, ?_, .csl, ?_, rfl, by simp, by simp, fun _ => ?_, by simp, by simp⟩ <;>
        (simp only [State.csAssert, State.deviceSelect]; split <;> rfl)
    · refine ⟨?_, ?_, ?_, ?_, ?_, ?_, ?_, ?_, ?_, ?_⟩ <;>
        simp only [State.csAssert, State.deviceSelect] <;> split <;>
        simp [hu, h.wphase, FrameView.see] <;> first | exact h.status | exact h.fresh | exact h.settled | exact h.val | exact h.addr | exact h.data | exact h.rdata
  | csDeassert m =>
    simp only [sound, Bool.and_eq_true, Bool.not_eq_true', decide_eq_true_eq] at hs
    obtain ⟨⟨⟨h1, h2⟩, h3⟩, h4⟩ := hs
    have same : ({ first := false, opcode := k.view.opcode } : FrameView) = k.view := by rw [← h2]
    cases m with
    | none =>
      refine ⟨_, _, _, rfl, ?_, rfl, ?_, h4⟩
      · refine ⟨?_, ?_, ?_, ?_, ?_, ?_, ?_, ?_, .csh, ?_, rfl, fun _ => h.csHigh.trans h1, ?_, by simp, ?_, by simp⟩
        all_goals simp only [State.csDeassert, State.deviceDeselect]
        all_goals first
          | (split <;> rfl)
          | (intro _ b hb; rw [hb] at h3; rw [← show none = phaseMove b from h3]; split <;> rfl)
          | (intro _ _; split <;> rfl)
      · refine ⟨?_, ?_, ?_, ?_, ?_, ?_, ?_, ?_, ?_, ?_⟩ <;>
          simp only [State.csDeassert, State.deviceDeselect] <;> split <;>
          simp [hu, h.view, h.wphase, FrameView.see, same] <;> first | exact h.status | exact h.fresh | exact h.settled | exact h.val | exact h.addr | exact h.data | exact h.rdata
    | some p =>
      refine ⟨_, _, _, rfl, ?_, rfl, ?_, h4⟩
      · refine ⟨?_, ?_, ?_, ?_, ?_, ?_, ?_, ?_, .csh, ?_, rfl, fun _ => h.csHigh.trans h1, ?_, by simp, ?_, by simp⟩
        all_goals simp only [State.csDeassert, State.deviceDeselect]
        all_goals first
          | (split <;> rfl)
          | (intro _ b hb; rw [hb] at h3; rw [← show some p = phaseMove b from h3]; rfl)
          | (intro _ hb; rw [hb] at h3; cases h3)
      · refine ⟨?_, ?_, ?_, ?_, ?_, ?_, ?_, ?_, ?_, ?_⟩ <;>
          simp only [State.csDeassert, State.deviceDeselect] <;> split <;>
          simp [hu, h.view, FrameView.see, same] <;> first | exact h.status | exact h.fresh | exact h.settled | exact h.val | exact h.addr | exact h.data | exact h.rdata
  | wait d =>
    simp only [sound, Bool.and_eq_true, Bool.not_eq_true'] at hs
    refine ⟨_, _, k, rfl, ?_, rfl, ?_, hs.2⟩
    · exact ⟨rfl, rfl, rfl, rfl, rfl, rfl, rfl, rfl, .wait _, rfl, rfl, by simp, by simp, fun _ => rfl, by simp, by simp⟩
    · refine h.congr (by simp [State.wait, hu]) rfl ?_ rfl rfl rfl rfl rfl rfl
      simp [State.wait, FrameView.see, h.view]
      cases hv : k.view; simp [hv] at hs; simp [hs]
  | send o =>
    simp only [sound, Bool.and_eq_true, Bool.not_eq_true'] at hs
    obtain ⟨⟨h1, h2⟩, h3⟩ := hs
    obtain ⟨c, hc⟩ := source_of_maySend h o h2
    obtain ⟨a, x, he, hx, -⟩ := exchange_next c s (afterXfer rest fun _ t => t)
    obtain ⟨hk, hop⟩ := Known.sent_spec k o c s hc a h2
    obtain ⟨he', w, k'', hw, hd, hso⟩ := afterXfer_sound k s x u rest c a (fun _ t => t) (k.sent o) h hu hx hop
      (fun i => by
        obtain ⟨l, hl⟩ := h.rdata
        refine ⟨u, l, ?_, ?_⟩
        · rw [hx.block]; simp [State.record, hu, hl]
        · rw [hk, hx.block]
          exact ⟨h.csHigh, by simp [h.view], h.wphase, h.status, h.fresh, h.settled, h.val, h.addr, h.data, h.rdata⟩)
      h3
    exact ⟨_, w, k'', by simp only [performEvent, hc]; exact he, he', hw, hd, hso⟩
  | recvStatus =>
    simp only [sound, Bool.and_eq_true, Bool.not_eq_true'] at hs
    obtain ⟨⟨h1, h2⟩, h3⟩ := hs
    obtain ⟨a, x, he, hx, -⟩ := exchange_next s.cfg.filler s (afterXfer rest fun i t => t.setLocal i)
    obtain ⟨he', w, k'', hw, hd, hso⟩ := afterXfer_sound k s x u rest s.cfg.filler a (fun i t => t.setLocal i) _ h hu hx
      (by simp [h2])
      (fun i => by
        obtain ⟨l, hl⟩ := h.rdata
        refine ⟨{ u with s := some i }, l, ?_, ?_⟩
        · rw [hx.block]; simp [State.record, State.setLocal, hu, hl]
        · rw [hx.block]
          exact ⟨h.csHigh, by simp [h.view, FrameView.see, h2], h.wphase, fun _ => rfl, by simp, h.settled, h.val, h.addr, h.data, h.rdata⟩)
      h3
    exact ⟨_, w, k'', he, he', hw, hd, hso⟩
  | recvData n =>
    simp only [sound, Bool.and_eq_true, Bool.not_eq_true'] at hs
    obtain ⟨⟨h1, h2⟩, h3⟩ := hs
    obtain ⟨a, x, he, hx, -⟩ := exchange_next s.cfg.filler s (afterXfer rest fun i t => t.setRdataAt n i)
    obtain ⟨he', w, k'', hw, hd, hso⟩ := afterXfer_sound k s x u rest s.cfg.filler a (fun i t => t.setRdataAt n i) k h hu hx
      (by simp [h2])
      (fun i => by
        obtain ⟨l, hl⟩ := h.rdata
        refine ⟨u, l.set n (some i), ?_, ?_⟩
        · rw [hx.block]; simp [State.record, State.setRdataAt, hu, hl]
        · rw [hx.block]
          exact ⟨h.csHigh, by simp [h.view, FrameView.see, h2], h.wphase, h.status, h.fresh, h.settled, h.val, h.addr, h.data,
            ⟨_, by simp [hl]; rfl⟩⟩)
      h3
    exact ⟨_, w, k'', he, he', hw, hd, hso⟩

end Sys2Proof.Safety
end

