-- ==== Sys2Proof/Laws/Frame.lean ====
section
/-! SUPPORT. What an ACCEPT, a bus event and a step of the sequencer can change, in every state, and what they keep of a
sound sequencer. -/

namespace Sys2Proof.Safety

open Sys2Proof.Machine

/-! ### ACCEPT -/

/-- A host command is the ACCEPT of its own word, with its own micro-sequence and `RDATA` (10_state.md R42). -/
theorem exec_accept (w : CmdWord) (n : Nat) (d : List Byte) (i : Instr) (h : decodeHost w n d = .ok i) (s : State) :
    exec i s = .next (accept w n d (i.wellFormed s.cfg) (rdataOf i) (startOf s.cfg i) s) := by
  unfold decodeHost at h
  split at h
  · cases h
  · next hr =>
    have hw := Sys2Proof.hostWord_fields w (by simpa using hr)
    split at h
    all_goals cases h
    all_goals (rename_i ho; rw [ho] at hw)
    all_goals (change Host.Outcome.next (accept (hostWord _ (addrField w)) _ _ _ _ _ _) = _; rw [hw]; rfl)

/-! ### A bus event in any state -/

/-- What a bus event can change: `s` is the state internal computation left (10_state.md R40, R45). -/
structure EventFrame (s t : State) : Prop where
  block : t = { s with csN := t.csN, upc := t.upc, wphase := t.wphase, rdata := t.rdata, rdm := t.rdm, env := t.env,
                       trace := t.trace }
  acts : t.env.acts = s.env.acts
  got : t.env.got = s.env.got
  event : ∃ e, t.trace = s.trace ++ [e] ∧ isBusEvent e = true
  noByte : s.rdm.event = none → t.rdm.event ≠ some .byte
  attached : s.rdm.event = none → t.rdm.event ≠ none → s.cfg.rdmAttached = true
  cycle : s.rdm.CycleSound → t.rdm.CycleSound
  canonical : s.rdm.array.wf = true → t.rdm.array.wf = true
  inside : Memory.below s.cfg.deviceSize s.rdm.array = true → Memory.below s.cfg.deviceSize t.rdm.array = true
  array : ArrayStep s.cfg s.rdm t.rdm

/-- An exchange, whatever is done with the byte received, changes only what a bus event can. -/
theorem exchange_frame {o : Byte} {s t : State} {rest : List Micro} {keep : Byte → State → State}
    (hk : ∀ i x, keep i x = { x with upc := (keep i x).upc, rdata := (keep i x).rdata })
    (h : exchange (deviceTurn exec) o s (afterXfer rest keep) = .next t) : EventFrame s t := by
  obtain ⟨a, x, he, hx, h1, h2, h3, h4, h5⟩ := exchange_next o s (afterXfer rest keep)
  rw [he] at h
  cases h
  have hf : ∃ u r, afterXfer rest keep a (x.record (.xfer o a)) =
      { x.record (.xfer o a) with upc := u, rdata := r } := by
    cases a with
    | byte i => exact ⟨_, _, by simp only [afterXfer]; rw [hk]; rfl⟩
    | err => exact ⟨_, _, rfl⟩
  obtain ⟨u, r, hf⟩ := hf
  rw [hf]
  refine ⟨?_, hx.acts, hx.got, ⟨.xfer o a, ?_, rfl⟩, fun hn => ?_, fun hn hc => ?_, h2, h3, h4, h5⟩
  · rw [hx.block]; rfl
  · rw [hx.block]; rfl
  · simp [h1 hn]
  · simp [h1 hn] at hc

theorem State.csAssert_eq (s : State) :
    s.csAssert = { s with csN := false, rdm := if s.cfg.rdmAttached then { s.rdm with fb := [] } else s.rdm,
                          trace := s.trace ++ [.csl] } := by
  unfold State.csAssert State.deviceSelect
  split
  · next h => rw [if_pos (show s.cfg.rdmAttached = true from h)]; rfl
  · next h => rw [if_neg (show ¬ s.cfg.rdmAttached = true from h)]; rfl

theorem State.csDeassert_eq (s : State) :
    s.csDeassert = { s with csN := true,
                            rdm := if s.cfg.rdmAttached then { s.rdm with event := some .frameEnd } else s.rdm,
                            trace := s.trace ++ [.csh] } := by
  unfold State.csDeassert State.deviceDeselect
  split
  · next h => rw [if_pos (show s.cfg.rdmAttached = true from h)]; rfl
  · next h => rw [if_neg (show ¬ s.cfg.rdmAttached = true from h)]; rfl

/-- A bus event that ends in a next state changes only what a bus event can. -/
theorem performEvent_frame {b : BusOp} {rest : List Micro} {s t : State}
    (h : performEvent (deviceTurn exec) b rest s = .next t) : EventFrame s t := by
  have cs : ∀ (b : Bool) (e : Event) (d : Rdm) (w : Wphase) (u : Option Upc), isBusEvent e = true →
      (s.rdm.event = none → d.event ≠ some .byte ∧ (d.event ≠ none → s.cfg.rdmAttached = true)) →
      d = { s.rdm with fb := d.fb, event := d.event } →
      EventFrame s { s with csN := b, rdm := d, wphase := w, upc := u, trace := s.trace ++ [e] } := by
    intro b e d w u he h1 h3
    refine ⟨rfl, rfl, rfl, ⟨e, rfl, he⟩, fun hn => (h1 hn).1, fun hn => (h1 hn).2, ?_, ?_, ?_, ?_⟩
    · rw [h3]; exact fun k => ⟨k.busy, k.latched, k.awake⟩
    · rw [h3]; exact id
    · rw [h3]; exact id
    · rw [h3]; exact .inl rfl
  cases b with
  | csAssert =>
    cases h
    rw [State.csAssert_eq]
    refine cs _ _ _ _ _ rfl (fun hn => ?_) ?_ <;> split <;> simp [*]
  | csDeassert m =>
    have key : ∀ w u, EventFrame s { s.csDeassert with wphase := w, upc := u } := by
      intro w u
      rw [State.csDeassert_eq]
      refine cs _ _ _ _ _ rfl (fun hn => ?_) ?_ <;> split <;> simp [*]
    cases m with
    | none => cases h; exact key _ _
    | some w => cases h; exact key _ _
  | wait d =>
    cases h
    exact ⟨rfl, rfl, rfl, ⟨_, rfl, rfl⟩, fun hx => by simp [State.wait, hx], fun hx hy => absurd hx hy, id, id, id, .inl rfl⟩
  | send src =>
    simp only [performEvent] at h
    split at h
    · exact exchange_frame (fun _ _ => rfl) h
    · cases h
  | recvStatus => exact exchange_frame (fun _ _ => rfl) h
  | recvData n => exact exchange_frame (fun _ _ => rfl) h

/-! ### A step of the sequencer in any state -/

/-- The ways a step of the running sequencer ends: `x` is the state internal computation left, and `u` the position it
started from (10_state.md R40). -/
inductive SeqCase (u : Upc) (s t : State) : Prop where
  | event (x : State) (b : BusOp) (rest : List Micro) (hn : nextAction u.code s = .ok (x, .event b rest))
      (hc : CalcOnly s x) (hp : performEvent (deviceTurn exec) b rest x = .next t) (hf : EventFrame x t)
  | complete (x : State) (hn : nextAction u.code s = .ok (x, .complete)) (hc : CalcOnly s x) (ht : t = x.complete)
  | abort (x : State) (e : Exn) (hn : nextAction u.code s = .ok (x, .raise e)) (hc : CalcOnly s x) (ht : t = x.abort e)

/-- A step of the running sequencer that ends in a next state is one of the cases. -/
theorem seqStep_cases {s t : State} (h : seqStep (deviceTurn exec) s = .next t) :
    ∃ u, s.upc = some u ∧ SeqCase u s t := by
  unfold seqStep at h
  split at h
  · cases h
  · next u hu =>
    refine ⟨u, hu, ?_⟩
    split at h
    · next x a hn =>
      have hc := nextAction_calcOnly _ _ _ _ hn
      cases a with
      | event b rest => exact .event x b rest hn hc h (performEvent_frame h)
      | complete => cases h; exact .complete x hn hc rfl
      | raise e => cases h; exact .abort x e hn hc rfl
    · cases h

/-- Where a step's local status byte is what a read-status or an await's test took (41_status_timing.md R200, R205). -/
theorem nextAction_status (u : Upc) (code : List Micro) :
    ∀ (s t : State) (a : Action), s.upc = some u → nextAction code s = .ok (t, a) →
      (t.srLast = s.srLast ∨ ∃ v, u.s = some v ∧ t.srLast = some v) ∧
      (t.wphase = s.wphase ∨ t.wphase = .idle ∧ ∃ v, u.s = some v ∧ v.getLsbD 0 = false) := by
  have loc : ∀ s : State, s.upc = some u → ∀ b, s.localStatus = .ok b → u.s = some b := by
    intro s hu b hb
    simp only [State.localStatus, hu, Option.bind_some] at hb
    cases hs : u.s with
    | none => rw [hs] at hb; cases hb
    | some v => rw [hs] at hb; cases hb; rfl
  induction code with
  | nil => intro s t a _ h; cases h; exact ⟨.inl rfl, .inl rfl⟩
  | cons m r ih =>
    intro s t a hu h
    cases m with
    | bus b => cases h; exact ⟨.inl rfl, .inl rfl⟩
    | raise e => cases h; exact ⟨.inl rfl, .inl rfl⟩
    | compute c =>
      cases c with
      | pollStart => exact ih (s.setPollCnt 0) _ _ hu h
      | keepStatus =>
        unfold nextAction at h
        cases hl : s.localStatus with
        | error f => rw [hl] at h; cases h
        | ok b =>
          rw [hl] at h
          obtain ⟨h1, h2⟩ := ih (s.setSrLast b) _ _ hu h
          exact ⟨.inr (h1.elim (fun h1 => ⟨b, loc s hu b hl, h1⟩) id), h2⟩
      | takeBit k =>
        unfold nextAction at h
        cases hl : s.localStatus with
        | error f => rw [hl] at h; cases h
        | ok b => rw [hl] at h; exact ih (s.setRbit (b.getLsbD k)) _ _ hu h
      | computeVal f =>
        unfold nextAction at h
        cases hl : s.localStatus with
        | error g => rw [hl] at h; cases h
        | ok b => rw [hl] at h; exact ih (s.setVal (f.apply b)) _ _ hu h
      | pollTest =>
        unfold nextAction at h
        cases hl : s.localStatus with
        | error f => rw [hl] at h; cases h
        | ok b =>
          rw [hl] at h
          simp only [Except.bind] at h
          split at h
          · split at h <;> (cases h; exact ⟨.inl rfl, .inl rfl⟩)
          · next hz =>
            obtain ⟨h1, h2⟩ := ih (s.setWphase .idle) _ _ hu h
            exact ⟨h1, .inr ⟨h2.elim id fun h2 => h2.1, b, loc s hu b hl, by simpa using hz⟩⟩

/-! ### What a sound sequencer keeps -/

theorem Known.Describes.setActs {k : Known} {s : State} {u : Upc} (l : List HostAct) (h : Known.Describes k s u) :
    Known.Describes k (s.setActs l) u :=
  h.congr rfl rfl rfl rfl rfl rfl rfl rfl rfl

/-- A sequencer at rest is sound when `CS_N` is 1 (10_state.md R43). -/
theorem SequencerSound.of_idle {t : State} (h : t.seq = .idle) (hc : t.csN = true) : SequencerSound t :=
  ⟨fun _ => hc, fun hr => by rw [h] at hr; cases hr⟩

/-- The device and the draws have no say in it. -/
theorem SequencerSound.outside {s t : State} (h : OutsideOnly s t) (hs : SequencerSound s) : SequencerSound t := by
  have hb := h.block
  refine ⟨fun hi => ?_, fun hr => ?_⟩
  · rw [hb] at hi ⊢; exact hs.idle hi
  · rw [hb] at hr ⊢
    obtain ⟨u, k, hu, hd, hso⟩ := hs.running hr
    exact ⟨u, k, hu, hd.congr rfl rfl rfl rfl rfl rfl rfl rfl rfl, hso⟩

/-- Nor have the inputs. -/
theorem SequencerSound.withEnv {s : State} (e : Env) (hs : SequencerSound s) : SequencerSound { s with env := e } :=
  ⟨hs.idle, fun hr => by
    obtain ⟨u, k, hu, hd, hso⟩ := hs.running hr
    exact ⟨u, k, hu, hd.congr rfl rfl rfl rfl rfl rfl rfl rfl rfl, hso⟩⟩

/-- A soundly running sequencer reaches an action, whatever acts the host has left (10_state.md R40). -/
theorem seqStep_sound (s : State) (l : List HostAct) (hs : SequencerSound s) (hr : s.seq = .run) :
    ∃ u x a k, s.upc = some u ∧ nextAction u.code (s.setActs l) = .ok (x, a) ∧ CalcOnly (s.setActs l) x ∧
      Known.Describes k x u ∧ Follows k a ∧
      (x.wphase = s.wphase ∨ x.wphase = .idle ∧ s.csN = true ∧ (∃ r, u.code = .compute .pollTest :: r) ∧
        ∃ v, u.s = some v ∧ v.getLsbD 0 = false) ∧
      seqStep (deviceTurn exec) (s.setActs l) = perform (deviceTurn exec) a x := by
  obtain ⟨u, k, hu, hd, hso⟩ := hs.running hr
  obtain ⟨x, a, k', h1, h2, h3, h4, h5, -⟩ := nextAction_sound u u.code k (s.setActs l) (hd.setActs l) hu hso
  exact ⟨u, x, a, k', hu, h1, h2, h3, h4, h5.imp id fun ⟨_, h6, h7, h8, h9⟩ => ⟨h7, hd.csHigh.trans h6, h8, h9⟩,
    by simp [seqStep, hu, h1]⟩

/-- An action of a sound sequencer ends in a next state, and leaves it sound. -/
theorem perform_sound (k : Known) (s : State) (u : Upc) (a : Action) (h : Known.Describes k s u) (hu : s.upc = some u)
    (hr : s.seq = .run) (hf : Follows k a) :
    ∃ t, perform (deviceTurn exec) a s = .next t ∧ SequencerSound t := by
  cases a with
  | complete => exact ⟨_, rfl, .of_idle rfl (h.csHigh.trans hf)⟩
  | raise e => exact ⟨_, rfl, .of_idle (State.abort_registers s e).2.1 (State.abort_registers s e).1⟩
  | event b rest =>
    obtain ⟨t, w, k', h1, h2, h3, h4, h5⟩ := performEvent_sound k s u b rest h hu hf
    refine ⟨t, h1, fun hi => ?_, fun _ => ⟨w, k', h3, h4, h5⟩⟩
    rw [h2.still, hr] at hi; cases hi

/-- An ACCEPT, legal or not, leaves the sequencer sound (10_state.md R42). -/
theorem accept_sound (s : State) (hs : SequencerSound s) (hi : s.seq = .idle) (w : CmdWord) (n : Nat) (d : List Byte)
    (legal : Bool) (r : List (Option Byte)) (cfg : Config) (i : Instr)
    (hl : legal = true → decodeHost w n d = .ok i ∧ i.wellFormed cfg = true) :
    SequencerSound (accept w n d legal r (startOf cfg i) s) := by
  have hc := hs.idle hi
  cases legal with
  | false =>
    rw [accept_illegal _ _ _ _ _ _ hi]
    exact .of_idle rfl hc
  | true =>
    rw [accept_legal _ _ _ _ _ _ hi]
    obtain ⟨hd, hw⟩ := hl rfl
    refine ⟨fun h => (by cases h), fun _ => ⟨_, ⟨true, (frameView s.trace).see (.accept w n d), s.wphase,
      false, false, false, false, d.length⟩, rfl, ?_,
      startOf_sound cfg i _ rfl ?_⟩⟩
    · exact ⟨hc, by simp [State.start, State.latch], rfl, by simp, by simp, by simp, by simp, rfl, ⟨d, rfl, by simp⟩, ⟨_, rfl⟩⟩
    · rintro a m l rfl
      unfold decodeHost at hd
      split at hd
      · cases hd
      · split at hd <;> cases hd
        simp only [Instr.wellFormed, Bool.and_eq_true, decide_eq_true_eq] at hw
        exact Nat.le_of_eq hw.2.symm

end Sys2Proof.Safety
end

