-- ==== Sys2Proof/Laws/Runs.lean ====
section
/-! SUPPORT. Runs of the sequencer over a transport with no device model, when the host has nothing to do: each bus event
and each piece of the micro-sequences as one equation. -/

namespace Sys2Proof.Safety

open Sys2Proof.Machine

/-! ### Runs -/

theorem runs_append {m n : Nat} {s t : State} (h : runs m s = .next t) : runs (m + n) s = runs n t := by
  induction m generalizing s with
  | zero => cases h; rw [Nat.zero_add]
  | succ m ih =>
    rw [Nat.succ_add]
    cases hs : step s with
    | next x => simp only [runs, hs] at h ⊢; exact ih h
    | fault f => simp [runs, hs] at h
    | refused f => simp [runs, hs] at h

theorem runs_cons {n : Nat} {s t : State} (h : step s = .next t) : runs (n + 1) s = runs n t := by simp [runs, h]

theorem runs_single {s t : State} (h : step s = .next t) : runs 1 s = .next t := by simp [runs, h]

/-- The machine runs over a transport with no device model, the host having nothing to do. -/
structure Free (s : State) : Prop where
  running : s.seq = .run
  noActs : s.env.acts = []
  noEvent : s.rdm.event = none
  freeTransport : s.cfg.rdmAttached = false

/-- `s` with the position, the answers left and the trace given. -/
def moved (s : State) (code : List Micro) (l : Option Byte) (ans : List Answer) (ev : List Event) : State :=
  { s with upc := some { code := code, s := l }, env := { s.env with answers := ans }, trace := s.trace ++ ev }

theorem Free.step {s : State} (h : Free s) : step s = seqStep (deviceTurn exec) s := by
  simp [Machine.step, turn, h.noEvent, h.noActs, sequencerTurn, h.running]

/-- A step whose internal computation reaches a bus event. -/
theorem Free.step_event {s x : State} {u : Upc} {b : BusOp} {rest : List Micro} (h : Free s) (hu : s.upc = some u)
    (hn : nextAction u.code s = .ok (x, .event b rest)) :
    Machine.step s = performEvent (deviceTurn exec) b rest x := by
  simp [h.step, seqStep, hu, hn, perform]

theorem Free.step_complete {s x : State} {u : Upc} (h : Free s) (hu : s.upc = some u)
    (hn : nextAction u.code s = .ok (x, .complete)) : Machine.step s = .next x.complete := by
  simp [h.step, seqStep, hu, hn, perform]

theorem Free.step_raise {s x : State} {u : Upc} {e : Exn} (h : Free s) (hu : s.upc = some u)
    (hn : nextAction u.code s = .ok (x, .raise e)) : Machine.step s = .next (x.abort e) := by
  simp [h.step, seqStep, hu, hn, perform]

/-! ### Bus events, `x` being the state internal computation left -/

theorem performEvent_assert {x : State} {u : Upc} {rest : List Micro} (h : x.cfg.rdmAttached = false)
    (hu : x.upc = some u) (react : State → Out) :
    performEvent react .csAssert rest x = .next { moved x rest u.s x.env.answers [.csl] with csN := false } := by
  simp [performEvent, State.csAssert_eq, State.goTo, hu, h, moved]

theorem performEvent_deassert {x : State} {u : Upc} {rest : List Micro} (m : Option Wphase)
    (h : x.cfg.rdmAttached = false) (hu : x.upc = some u) (react : State → Out) :
    performEvent react (.csDeassert m) rest x =
      .next { moved x rest u.s x.env.answers [.csh] with csN := true, wphase := m.getD x.wphase } := by
  cases m <;> simp [performEvent, State.csDeassert_eq, State.goTo, State.setWphase, hu, h, moved]

theorem performEvent_send {x : State} {u : Upc} {rest : List Micro} {o : Src} {b : Byte} {i : Byte} {r : List Answer}
    (h : x.cfg.rdmAttached = false) (hu : x.upc = some u) (ho : x.source o = .ok b)
    (ha : x.env.answers = .byte i :: r) (react : State → Out) :
    performEvent react (.send o) rest x = .next (moved x rest u.s r [.xfer b (.byte i)]) := by
  simp [performEvent, ho, exchange, h, State.drawAnswer, ha, afterXfer, State.record, State.goTo, hu, moved]

theorem performEvent_recvStatus {x : State} {u : Upc} {rest : List Micro} {i : Byte} {r : List Answer}
    (h : x.cfg.rdmAttached = false) (hu : x.upc = some u) (ha : x.env.answers = .byte i :: r) (react : State → Out) :
    performEvent react .recvStatus rest x = .next (moved x rest (some i) r [.xfer x.cfg.filler (.byte i)]) := by
  simp [performEvent, exchange, h, State.drawAnswer, ha, afterXfer, State.record, State.goTo, State.setLocal, hu, moved]

theorem performEvent_recvData {x : State} {u : Upc} {rest : List Micro} {k : Nat} {i : Byte} {r : List Answer}
    (h : x.cfg.rdmAttached = false) (hu : x.upc = some u) (ha : x.env.answers = .byte i :: r) (react : State → Out) :
    performEvent react (.recvData k) rest x =
      .next { moved x rest u.s r [.xfer x.cfg.filler (.byte i)] with rdata := x.rdata.map fun l => l.set k (some i) } := by
  simp [performEvent, exchange, h, State.drawAnswer, ha, afterXfer, State.record, State.goTo, State.setRdataAt, hu, moved]

theorem performEvent_waits {x : State} {u : Upc} {rest : List Micro} (d : WaitKind) (hu : x.upc = some u)
    (react : State → Out) :
    performEvent react (.wait d) rest x = .next (moved x rest u.s x.env.answers [.wait (Config.duration x.cfg d)]) := by
  simp [performEvent, State.wait, State.record, State.goTo, hu, moved]

/-! ### Steps that are one bus event -/

theorem step_assert {s : State} {rest : List Micro} {l : Option Byte}
    (hu : s.upc = some { code := .bus .csAssert :: rest, s := l }) (h : Free s) :
    step s = .next { moved s rest l s.env.answers [.csl] with csN := false } :=
  (h.step_event hu rfl).trans (performEvent_assert h.freeTransport hu _)

theorem step_deassert {s : State} {rest : List Micro} {l : Option Byte} {m : Option Wphase}
    (hu : s.upc = some { code := .bus (.csDeassert m) :: rest, s := l }) (h : Free s) :
    step s = .next { moved s rest l s.env.answers [.csh] with csN := true, wphase := m.getD s.wphase } :=
  (h.step_event hu rfl).trans (performEvent_deassert m h.freeTransport hu _)

theorem step_send {s : State} {rest : List Micro} {l : Option Byte} {o : Src} {b i : Byte} {r : List Answer}
    (hu : s.upc = some { code := .bus (.send o) :: rest, s := l }) (ho : s.source o = .ok b)
    (ha : s.env.answers = .byte i :: r) (h : Free s) :
    step s = .next (moved s rest l r [.xfer b (.byte i)]) :=
  (h.step_event hu rfl).trans (performEvent_send h.freeTransport hu ho ha _)

theorem step_recvStatus {s : State} {rest : List Micro} {l : Option Byte} {i : Byte} {r : List Answer}
    (hu : s.upc = some { code := .bus .recvStatus :: rest, s := l }) (ha : s.env.answers = .byte i :: r) (h : Free s) :
    step s = .next (moved s rest (some i) r [.xfer s.cfg.filler (.byte i)]) :=
  (h.step_event hu rfl).trans (performEvent_recvStatus h.freeTransport hu ha _)

theorem step_recvData {s : State} {rest : List Micro} {l : Option Byte} {k : Nat} {i : Byte} {r : List Answer}
    (hu : s.upc = some { code := .bus (.recvData k) :: rest, s := l }) (ha : s.env.answers = .byte i :: r) (h : Free s) :
    step s = .next { moved s rest l r [.xfer s.cfg.filler (.byte i)] with rdata := s.rdata.map fun l => l.set k (some i) } :=
  (h.step_event hu rfl).trans (performEvent_recvData h.freeTransport hu ha _)

theorem step_wait {s : State} {rest : List Micro} {l : Option Byte} {d : WaitKind}
    (hu : s.upc = some { code := .bus (.wait d) :: rest, s := l }) (h : Free s) :
    step s = .next (moved s rest l s.env.answers [.wait (Config.duration s.cfg d)]) :=
  (h.step_event hu rfl).trans (performEvent_waits d hu _)

/-- The `CSH` of a `read_status` (41_status_timing.md R200). -/
theorem step_keepDeassert {s : State} {rest : List Micro} {v : Byte}
    (hu : s.upc = some { code := .compute .keepStatus :: .bus (.csDeassert none) :: rest, s := some v }) (h : Free s) :
    step s = .next { moved s rest (some v) s.env.answers [.csh] with csN := true, srLast := some v } := by
  refine Eq.trans (h.step_event (x := s.setSrLast v) (b := .csDeassert none) (rest := rest) hu ?_)
    (performEvent_deassert (x := s.setSrLast v) none h.freeTransport hu _)
  simp [nextAction, State.localStatus, hu, valueOf, Except.bind]

/-! ### Pieces of the micro-sequences -/

theorem exchanges_append (a b c d : List Byte) (h : a.length = c.length) :
    exchanges (a ++ b) (c ++ d) = exchanges a c ++ exchanges b d := by
  simp [exchanges, List.zipWith_append h]

/-- Bytes sent, one after the other. -/
theorem runs_sends (rest : List Micro) (l : Option Byte) (r : List Answer) :
    ∀ (os : List Src) (vals got : List Byte) (s : State), Free s → os.map s.source = vals.map .ok →
      got.length = os.length → s.upc = some { code := (os.map fun o => .bus (.send o)) ++ rest, s := l } →
      s.env.answers = got.map .byte ++ r → runs os.length s = .next (moved s rest l r (exchanges vals got))
  | [], [], [], s, _, _, _, hu, ha => by
    simp only [List.map_nil, List.nil_append] at hu ha
    simp [runs, moved, exchanges, ← ha, ← hu]
  | o :: os, v :: vals, i :: got, s, h, hs, hl, hu, ha => by
    simp only [List.map_cons, List.cons.injEq] at hs
    simp only [List.map_cons, List.cons_append] at hu ha
    have h1 : step s = .next (moved s ((os.map fun o => .bus (.send o)) ++ rest) l (got.map .byte ++ r)
        [.xfer v (.byte i)]) := by
      rw [h.step_event hu rfl]
      exact performEvent_send h.freeTransport hu hs.1 ha _
    rw [List.length_cons, runs_cons h1]
    refine Eq.trans (runs_sends rest l r os vals got _ ⟨h.running, h.noActs, h.noEvent, h.freeTransport⟩ ?_
      (by simpa using hl) rfl rfl) ?_
    rotate_left
    · simp [moved, exchanges]
    · rw [← hs.2]
      apply List.map_congr_left
      intro o _
      cases o <;> rfl
  | [], v :: vals, _, _, _, hs, _, _, _ => by simp at hs
  | o :: os, [], _, _, _, hs, _, _, _ => by simp at hs
  | [], [], i :: got, _, _, _, hl, _, _ => by simp at hl
  | o :: os, v :: vals, [], _, _, _, hl, _, _ => by simp at hl

/-- Data bytes received, one after the other (44_read_path.md R250). -/
theorem runs_receives (rest : List Micro) (l : Option Byte) (r : List Answer) :
    ∀ (got : List Byte) (pre : List (Option Byte)) (s : State), Free s →
      s.rdata = some (pre ++ List.replicate got.length none) →
      s.upc = some { code := ((List.range' pre.length got.length).map fun k => .bus (.recvData k)) ++ rest, s := l } →
      s.env.answers = got.map .byte ++ r →
      runs got.length s =
        .next { moved s rest l r (exchanges (List.replicate got.length s.cfg.filler) got) with
                rdata := some (pre ++ got.map some) }
  | [], pre, s, _, hd, hu, ha => by
    simp only [List.length_nil, List.replicate_zero, List.append_nil, List.map_nil, List.nil_append,
      List.range'_zero] at hd hu ha
    simp [runs, moved, exchanges, ← ha, ← hu, ← hd]
  | i :: got, pre, s, h, hd, hu, ha => by
    rw [List.length_cons, List.range'_succ] at hu
    simp only [List.map_cons, List.cons_append] at hu ha
    have h1 : step s = .next { moved s (((List.range' (pre.length + 1) got.length).map fun k => .bus (.recvData k)) ++ rest) l
        (got.map .byte ++ r) [.xfer s.cfg.filler (.byte i)] with
        rdata := some ((pre ++ [some i]) ++ List.replicate got.length none) } := by
      rw [h.step_event hu rfl]
      rw [performEvent_recvData h.freeTransport hu ha]
      simp [hd, List.replicate_succ]
    rw [List.length_cons, runs_cons h1]
    refine Eq.trans (runs_receives rest l r got (pre ++ [some i]) _ ⟨h.running, h.noActs, h.noEvent, h.freeTransport⟩ rfl
      (by simp [moved]) rfl) ?_
    simp [moved, exchanges, List.replicate_succ]

/-- `read_status` (41_status_timing.md R200). -/
theorem runs_readStatus {s : State} {rest : List Micro} {l : Option Byte} {x v : Byte} {r : List Answer} (h : Free s)
    (hc : s.csN = true) (hu : s.upc = some { code := readStatus ++ rest, s := l })
    (ha : s.env.answers = .byte x :: .byte v :: r) :
    runs 4 s = .next { moved s rest (some v) r (pollEvents s.cfg (x, v)) with srLast := some v } := by
  refine Eq.trans (runs_cons (step_assert hu h)) ?_
  refine Eq.trans (runs_cons (step_send (o := .lit 0x05#8) rfl rfl ha (by exact ⟨h.running, h.noActs, h.noEvent, h.freeTransport⟩))) ?_
  refine Eq.trans (runs_cons (step_recvStatus rfl rfl (by exact ⟨h.running, h.noActs, h.noEvent, h.freeTransport⟩))) ?_
  refine Eq.trans (runs_single (step_keepDeassert rfl (by exact ⟨h.running, h.noActs, h.noEvent, h.freeTransport⟩))) ?_
  simp [moved, pollEvents, frameEvents, exchanges, hc]

/-- One busy poll of an await and its wait (41_status_timing.md R205). -/
theorem runs_busyPoll {s : State} {rest : List Micro} {l : Option Byte} {p : Byte × Byte} {r : List Answer} (h : Free s)
    (hc : s.csN = true) (hu : s.upc = some { code := awaitLoop ++ rest, s := l })
    (ha : s.env.answers = .byte p.1 :: .byte p.2 :: r) (hb : p.2.getLsbD 0 = true)
    (hk : ∀ k, s.cfg.pollLimit = some k → s.pollCnt + 1 < k) :
    runs 5 s = .next { moved s (awaitLoop ++ rest) (some p.2) r
        (pollEvents s.cfg p ++ [.wait (.pollDelay s.cfg.pollDelay)]) with
      srLast := some p.2, pollCnt := s.pollCnt + 1 } := by
  rw [runs_append (m := 4) (n := 1) (runs_readStatus h hc (by rw [hu, awaitLoop, List.append_assoc]) ha)]
  refine runs_single ?_
  rw [Free.step_event (u := ⟨.compute .pollTest :: rest, some p.2⟩) (b := .wait .pollDelay) (rest := awaitLoop ++ rest)
    (x := { moved s (.compute .pollTest :: rest) (some p.2) r (pollEvents s.cfg p) with
            srLast := some p.2, pollCnt := s.pollCnt + 1 })
    (by exact ⟨h.running, h.noActs, h.noEvent, h.freeTransport⟩) rfl ?_]
  · rw [performEvent_waits (u := ⟨.compute .pollTest :: rest, some p.2⟩) _ rfl]
    simp [moved, Config.duration]
  · have hlim : ∀ t : State, t.cfg = s.cfg → t.pollCnt = s.pollCnt + 1 → t.limitReached = false := by
      intro t h1 h2
      simp only [State.limitReached, h1, h2]
      cases hp : s.cfg.pollLimit with
      | none => rfl
      | some k => have := hk k hp; simp; omega
    have := hlim ({ moved s (.compute .pollTest :: rest) (some p.2) r (pollEvents s.cfg p) with
      srLast := some p.2 }.setPollCnt (s.pollCnt + 1)) rfl rfl
    simp only [moved] at this
    simp [nextAction, State.localStatus, moved, valueOf, Except.bind, hb, this]
    rfl

/-- The busy polls of an await. -/
theorem runs_busyPolls (rest : List Micro) (r : List Answer) :
    ∀ (busy : List (Byte × Byte)) (s : State) (l : Option Byte), Free s → s.csN = true →
      s.upc = some { code := awaitLoop ++ rest, s := l } →
      s.env.answers = (busy.flatMap fun p => [Answer.byte p.1, Answer.byte p.2]) ++ r →
      (∀ p ∈ busy, p.2.getLsbD 0 = true) → (∀ k, s.cfg.pollLimit = some k → s.pollCnt + busy.length < k) →
      ∃ l' v, runs (5 * busy.length) s = .next { moved s (awaitLoop ++ rest) l' r
          (busy.flatMap fun p => pollEvents s.cfg p ++ [.wait (.pollDelay s.cfg.pollDelay)]) with
        srLast := v, pollCnt := s.pollCnt + busy.length }
  | [], s, l, _, _, hu, ha, _, _ => by
    simp only [List.flatMap_nil, List.nil_append] at ha
    exact ⟨l, s.srLast, by simp [runs, moved, ← ha, ← hu]⟩
  | p :: busy, s, l, h, hc, hu, ha, hb, hk => by
    simp only [List.flatMap_cons, List.cons_append, List.nil_append] at ha
    have h1 := runs_busyPoll h hc hu ha (hb p (by simp)) (fun k hp => by have := hk k hp; simp at this; omega)
    obtain ⟨l', v, h2⟩ := runs_busyPolls rest r busy
      { moved s (awaitLoop ++ rest) (some p.2) ((busy.flatMap fun p => [Answer.byte p.1, Answer.byte p.2]) ++ r)
          (pollEvents s.cfg p ++ [.wait (.pollDelay s.cfg.pollDelay)]) with
        srLast := some p.2, pollCnt := s.pollCnt + 1 } (some p.2)
      (by exact ⟨h.running, h.noActs, h.noEvent, h.freeTransport⟩) hc rfl rfl (fun q hq => hb q (by simp [hq]))
      (fun k hp => by have := hk k hp; simp at this ⊢; omega)
    refine ⟨l', v, ?_⟩
    rw [show 5 * (p :: busy).length = 5 + 5 * busy.length by simp; omega, runs_append h1, h2]
    simp [moved]
    omega

/-- An await that ends, up to the `CSH` of its last poll: its test comes with the next step (41_status_timing.md R205). -/
theorem runs_await {s : State} {rest : List Micro} {l : Option Byte} {busy : List (Byte × Byte)} {last : Byte × Byte}
    {r : List Answer} (h : Free s) (hc : s.csN = true)
    (hu : s.upc = some { code := awaitWriteComplete ++ rest, s := l })
    (ha : s.env.answers = (awaitAnswers busy last).map .byte ++ r) (he : awaitExits s.cfg busy last) :
    runs (awaitCount busy.length) s =
      .next { moved s (.compute .pollTest :: rest) (some last.2) r (awaitEvents s.cfg busy last) with
              srLast := some last.2, pollCnt := busy.length } := by
  have first : ∀ (c : List Micro), Machine.step s = Machine.step
      { s with upc := some { code := awaitLoop ++ rest, s := l }, pollCnt := 0 } := by
    intro c
    refine Eq.trans (h.step_event hu rfl) (Eq.trans ?_ (step_assert (l := l) rfl (by exact ⟨h.running, h.noActs, h.noEvent, h.freeTransport⟩)).symm)
    exact performEvent_assert (x := s.setPollCnt 0) (u := ⟨awaitWriteComplete ++ rest, l⟩) h.freeTransport hu _
  have same : ∀ n, runs (n + 1) s = runs (n + 1) { s with upc := some { code := awaitLoop ++ rest, s := l }, pollCnt := 0 } := by
    intro n; simp only [runs, first []]
  have hans : ((awaitAnswers busy last).map Answer.byte) ++ r =
      (busy.flatMap fun p => [Answer.byte p.1, Answer.byte p.2]) ++ (.byte last.1 :: .byte last.2 :: r) := by
    simp [awaitAnswers, List.map_flatMap]
  obtain ⟨l', v, h1⟩ := runs_busyPolls rest (.byte last.1 :: .byte last.2 :: r) busy
    { s with upc := some { code := awaitLoop ++ rest, s := l }, pollCnt := 0 } l
    (by exact ⟨h.running, h.noActs, h.noEvent, h.freeTransport⟩) hc rfl (ha.trans hans) he.1
    (fun k hp => by have := he.2.2 k hp; simpa using this)
  rw [show awaitCount busy.length = (5 * busy.length + 3) + 1 by simp [awaitCount]; omega, same,
    show 5 * busy.length + 3 + 1 = 5 * busy.length + 4 from rfl, runs_append h1]
  refine Eq.trans (runs_readStatus (l := l') (rest := .compute .pollTest :: rest) (by exact ⟨h.running, h.noActs, h.noEvent, h.freeTransport⟩) hc
    (by simp [moved, awaitLoop]) rfl) ?_
  simp [moved, awaitEvents]

/-- The step that ends an await takes its next bus event too (10_state.md R40, 41_status_timing.md R205). -/
theorem step_awaitEnd {s : State} {b : BusOp} {rest : List Micro} {v : Byte} (h : Free s)
    (hu : s.upc = some { code := .compute .pollTest :: .bus b :: rest, s := some v }) (hv : v.getLsbD 0 = false) :
    Machine.step s = performEvent (deviceTurn exec) b rest { s with wphase := .idle } := by
  refine h.step_event hu ?_
  simp only [nextAction, localStatus_of hu rfl, Except.bind, hv]
  rfl

/-- `enable_write` right after an await (43_write_path.md R231). -/
theorem runs_enableAfterAwait {s : State} {rest : List Micro} {v e : Byte} {r : List Answer} (h : Free s)
    (hu : s.upc = some { code := .compute .pollTest :: (enableWrite ++ rest), s := some v }) (hv : v.getLsbD 0 = false)
    (ha : s.env.answers = .byte e :: r) :
    runs 3 s = .next { moved s rest (some v) r (frameEvents [0x06#8] [e]) with csN := true, wphase := .writeEnabled } := by
  refine Eq.trans (runs_cons ((step_awaitEnd h hu hv).trans
    (performEvent_assert (x := { s with wphase := .idle }) h.freeTransport hu _))) ?_
  refine Eq.trans (runs_cons (step_send (o := .lit 0x06#8) rfl rfl ha (by exact ⟨h.running, h.noActs, h.noEvent, h.freeTransport⟩))) ?_
  refine Eq.trans (runs_single (step_deassert rfl (by exact ⟨h.running, h.noActs, h.noEvent, h.freeTransport⟩))) ?_
  simp [moved, frameEvents, exchanges]

/-- A frame whose bytes are all sent, none kept (30_encoding.md R151). -/
theorem runs_frame {s : State} {rest : List Micro} {l : Option Byte} {os : List Src} {vals got : List Byte}
    {m : Option Wphase} {r : List Answer} (h : Free s)
    (hu : s.upc = some { code := [assertCs] ++ (os.map fun o => .bus (.send o)) ++ [deassertCs m] ++ rest, s := l })
    (hs : os.map s.source = vals.map .ok) (hl : got.length = os.length) (ha : s.env.answers = got.map .byte ++ r) :
    runs (2 + os.length) s =
      .next { moved s rest l r (frameEvents vals got) with csN := true, wphase := m.getD s.wphase } := by
  have h1 := step_assert hu h
  rw [show 2 + os.length = (os.length + 1) + 1 by omega, runs_cons h1]
  refine Eq.trans (runs_append (runs_sends (deassertCs m :: rest) l r os vals got _ (by exact ⟨h.running, h.noActs, h.noEvent, h.freeTransport⟩) ?_ hl (by simp [moved]) ha)) ?_
  · rw [← hs]
    apply List.map_congr_left
    intro o _
    cases o <;> rfl
  refine Eq.trans (runs_single (step_deassert rfl (by exact ⟨h.running, h.noActs, h.noEvent, h.freeTransport⟩))) ?_
  simp [moved, frameEvents]

/-- `VAL` is computed on the way to the await's first `CSL` (45_erase_protection.md R263, 10_state.md R40). -/
theorem runs_computeVal {s : State} {rest : List Micro} {f : StatusFn} {v : Byte}
    (hu : s.upc = some { code := .compute (.computeVal f) :: (awaitWriteComplete ++ rest), s := some v }) (h : Free s)
    (n : Nat) :
    runs (n + 1) s = runs (n + 1)
      { s with val := some (f.apply v), upc := some { code := awaitWriteComplete ++ rest, s := some v } } := by
  have same : step s = step
      { s with val := some (f.apply v), upc := some { code := awaitWriteComplete ++ rest, s := some v } } := by
    refine Eq.trans (h.step_event (x := (s.setVal (f.apply v)).setPollCnt 0) (b := .csAssert)
        (rest := readStatus.tail ++ [.compute .pollTest] ++ rest) hu ?_)
      (Eq.trans (performEvent_assert (x := (s.setVal (f.apply v)).setPollCnt 0)
        (u := ⟨.compute (.computeVal f) :: (awaitWriteComplete ++ rest), some v⟩) h.freeTransport hu _) ?_)
    · simp only [nextAction, localStatus_of hu rfl, Except.bind]
      rfl
    · refine Eq.symm (Eq.trans (Free.step_event (by exact ⟨h.running, h.noActs, h.noEvent, h.freeTransport⟩) rfl rfl) ?_)
      exact performEvent_assert (x := { s.setVal (f.apply v) with
        upc := some { code := awaitWriteComplete ++ rest, s := some v }, pollCnt := 0 }) h.freeTransport rfl _
  simp only [runs, same]

/-- The bytes of `send_address(ADDR)` are there and are the address bytes (42_address_framing.md R220). -/
theorem source_address (s : State) (a : Addr) (ha : s.addr = some a) :
    ((addressOrder s.cfg).map .addrByte).map s.source = (addressBytes s.cfg a).map .ok := by
  cases hp : s.cfg.profile <;> simp [addressOrder, addressBytes, hp, State.source, ha, valueOf, Except.map, byteOf]

/-- The bytes of `send_address(sector_address(ADDR))` (45_erase_protection.md R261, R262). -/
theorem source_sectorAddress (s : State) (a : Addr) (ha : s.addr = some a) :
    ((addressOrder s.cfg).map .sectorByte).map s.source = (addressBytes s.cfg (sectorAddress s.cfg a)).map .ok := by
  cases hp : s.cfg.profile <;> simp [addressOrder, addressBytes, hp, State.source, ha, valueOf, Except.map, byteOf]

/-- The data bytes of WRITE are there when `WDATA` has them (43_write_path.md R234). -/
theorem source_wdata (s : State) (l : List Byte) (hl : s.wdata = some l) :
    ((List.range l.length).map .wdata).map s.source = l.map .ok := by
  apply List.ext_getElem
  · simp
  · intro i h1 h2
    simp only [List.length_map, List.length_range] at h1
    simp [State.source, hl, valueOf, Except.bind, h1]

/-! ### ACCEPT and the end of a command -/

/-- A command accepted by a machine that is ready for it (10_state.md R42). -/
theorem exec_ready {s : State} {w : CmdWord} {n : Nat} {d : List Byte} {i : Instr} {l : List Byte} {r : List Answer}
    (h : Ready s l r) (hd : decodeHost w n d = .ok i) (hw : i.wellFormed s.cfg = true) :
    exec i s = .next ((s.latch w n d).start (rdataOf i) (startOf s.cfg i)) ∧
      Free ((s.latch w n d).start (rdataOf i) (startOf s.cfg i)) := by
  refine ⟨?_, ⟨rfl, h.noActs, h.noEvent, h.freeTransport⟩⟩
  rw [exec_accept w n d i hd, hw, accept_legal _ _ _ _ _ _ h.idle]

/-- The step after the last event of a command with nothing left to compute (10_state.md R43). -/
theorem step_end {s : State} {l : Option Byte} (hu : s.upc = some { code := [], s := l }) (h : Free s) :
    step s = .next s.complete := h.step_complete hu rfl

/-- The step that ends an await and its command (41_status_timing.md R205, 10_state.md R43). -/
theorem step_awaitEndComplete {s : State} {v : Byte} (hu : s.upc = some { code := [.compute .pollTest], s := some v })
    (hv : v.getLsbD 0 = false) (h : Free s) : step s = .next (s.setWphase .idle).complete := by
  refine h.step_complete hu ?_
  simp only [nextAction, localStatus_of hu rfl, Except.bind, hv]
  rfl

/-- The step that ends a status query (41_status_timing.md R201 to R204). -/
theorem step_queryEnd {s : State} {v : Byte} {k : Nat} (hu : s.upc = some { code := [.compute (.takeBit k)], s := some v })
    (h : Free s) : step s = .next (s.setRbit (v.getLsbD k)).complete := by
  refine h.step_complete hu ?_
  simp only [nextAction, localStatus_of hu rfl, Except.bind]

theorem addressOrder_length (cfg : Config) : (addressOrder cfg).length = cfg.na := by
  cases hp : cfg.profile <;> simp [addressOrder, Config.na, hp]

end Sys2Proof.Safety
end

