-- ==== Sys2Proof/Laws/Attached.lean ====
section
/-! SUPPORT. Runs of the sequencer over the attached reference device model: each bus event, and the pieces of the
micro-sequences, in terms of the device's state. What a byte of no meaning is answered stays unnamed. -/

namespace Sys2Proof.Safety

open Sys2Proof.Machine

/-- Some number of steps leads from `s` to a state with `Q`. -/
def Reach (s : State) (Q : State → Prop) : Prop := ∃ k t, runs k s = .next t ∧ Q t

theorem Reach.here {s : State} {Q : State → Prop} (h : Q s) : Reach s Q := ⟨0, s, rfl, h⟩

theorem Reach.step {s t : State} {Q : State → Prop} (h : Machine.step s = .next t) (k : Reach t Q) : Reach s Q := by
  obtain ⟨n, u, hn, hu⟩ := k
  exact ⟨n + 1, u, (runs_cons h).trans hn, hu⟩

/-- What stays while a command runs over the attached device. -/
structure Ctx where
  cfg : Config
  addr : Addr
  data : List Byte
  acts : List HostAct
  busy : List BusyLen
  rdata : List (Option Byte)

/-- The host has nothing to do, or holds a command. -/
def Ctx.quiet (c : Ctx) : Prop := c.acts = [] ∨ ∃ w n l r, c.acts = .accept w n l :: r

/-- The command is at `code` with the local `l`, the device (which owes nothing) is in the state `d` but for the byte it
drives. -/
structure Attached (c : Ctx) (s : State) (code : List Micro) (l : Option Byte) (d : Rdm) : Prop where
  running : s.seq = .run
  upc : s.upc = some { code := code, s := l }
  cfg : s.cfg = c.cfg
  attached : c.cfg.rdmAttached = true
  addr : s.addr = some c.addr
  wdata : s.wdata = some c.data
  acts : s.env.acts = c.acts
  quiet : c.quiet
  busy : s.env.busyDraws = c.busy
  rdata : s.rdata = some c.rdata
  err : s.err = false
  rdm : s.rdm = { d with out := s.rdm.out }
  noEvent : d.event = none

theorem Attached.seqStep {c : Ctx} {s : State} {code : List Micro} {l : Option Byte} {d : Rdm}
    (h : Attached c s code l d) : Machine.step s = seqStep (deviceTurn exec) s := by
  have he : s.rdm.event = none := by rw [h.rdm]; exact h.noEvent
  rcases h.quiet with hq | ⟨w, n, x, r, hq⟩ <;>
    simp [Machine.step, turn, he, h.acts, hq, hostTurn, sequencerTurn, h.running]

/-! ### The device's reactions -/

/-- After the bytes of `d.fb` the device takes the byte `o`, comes to the state `d'` and answers `v`, or anything where
that is none (20_memory.md R102). -/
def Answers (cfg : Config) (d : Rdm) (o : Byte) (d' : Rdm) (v : Option Byte) : Prop :=
  ∀ s : State, s.cfg = cfg → s.rdm = { d with fb := d.fb ++ [o], event := some .byte, out := s.rdm.out } →
    ∃ b env, deviceTurn exec s = .next { s with rdm := { d' with out := b }, env := env } ∧
      env.acts = s.env.acts ∧ env.busyDraws = s.env.busyDraws ∧ ∀ x, v = some x → b = x

theorem Answers.of_draw {cfg : Config} {d : Rdm} {o : Byte}
    (h : ∀ s : State, s.cfg = cfg → s.rdm.event = some .byte → s.rdm.fb = d.fb ++ [o] →
      deviceTurn exec s = .next s.driveDraw.clearEvent) :
    Answers cfg d o { d with fb := d.fb ++ [o], event := none } none := by
  intro s hc hd
  have hr := h s hc (by rw [hd]) (by rw [hd])
  refine ⟨s.drawByte.1, s.drawByte.2.env, ?_, ?_, ?_, fun _ h => by cases h⟩
  · rw [hr]
    cases hb : s.env.byteDraws <;>
      simp only [State.driveDraw, State.drawByte, hb, State.drive, State.setRdm, State.clearEvent] <;> rw [hd]
  · cases hb : s.env.byteDraws <;> simp [State.drawByte, hb]
  · cases hb : s.env.byteDraws <;> simp [State.drawByte, hb]

/-- The opcode byte. -/
theorem answers_opcode {cfg : Config} {d : Rdm} {o : Byte} (h : d.fb = []) :
    Answers cfg d o { d with fb := d.fb ++ [o], event := none } none := by
  refine .of_draw fun s _ he hf => ?_
  unfold deviceTurn
  rw [hf, h]
  simp only [List.nil_append, decodeFrame]
  split <;> rename_i hd
  · split at hd <;> cases hd <;>
      simp [exec, execWireRead, execWireWrite, execWireWriteEnable, execWireWriteDisable, execWireReadStatus,
        execWireWriteStatus, execWirePageErase, execWireSectorErase, execWireChipErase, execWireReleaseReadId,
        execWireDeepPowerDown, State.react, he, State.answerByte]
  · simp [State.reactUnknown, State.react, he, State.answerByte, hf, h]

/-- A byte of a WRITE frame. -/
theorem answers_write {cfg : Config} {d : Rdm} {o : Byte} {l : List Byte} (h : d.fb = 0x02#8 :: l) :
    Answers cfg d o { d with fb := d.fb ++ [o], event := none } none := by
  refine .of_draw fun s _ he hf => ?_
  simp [deviceTurn, hf, h, decodeFrame, exec, execWireWrite, State.react, he, State.answerByte]

/-- An address byte of a READ frame. -/
theorem answers_readAddress {cfg : Config} {d : Rdm} {o : Byte} {l : List Byte} (h : d.fb = 0x03#8 :: l)
    (hl : l.length < cfg.na) : Answers cfg d o { d with fb := d.fb ++ [o], event := none } none := by
  refine .of_draw fun s hc he hf => ?_
  have : ¬ cfg.na ≤ l.length := by omega
  simp [deviceTurn, hf, h, decodeFrame, exec, execWireRead, State.react, he, State.answerByte, hc, this]

/-- A data byte of a READ frame whose address holds a byte. -/
theorem answers_readData {cfg : Config} {d : Rdm} {o v : Byte} {l : List Byte} (h : d.fb = 0x03#8 :: l)
    (hl : l.length = cfg.na) (hd : d.dpd = false) (hw : d.wip = false)
    (hv : d.array.read (frameAddress cfg (l ++ [o]) % cfg.deviceSize) = some v) :
    Answers cfg d o { d with fb := d.fb ++ [o], event := none } (some v) := by
  intro s hc hr
  refine ⟨v, s.env, ?_, rfl, rfl, fun _ hx => by cases hx; rfl⟩
  have he : s.rdm.event = some .byte := by rw [hr]
  have hf : s.rdm.fb = 0x03#8 :: (l ++ [o]) := by rw [hr]; simp [h]
  have hd' : s.rdm.dpd = false := by rw [hr]; exact hd
  have hw' : s.rdm.wip = false := by rw [hr]; exact hw
  have ha : s.rdm.array = d.array := by rw [hr]
  simp only [deviceTurn, hf, decodeFrame, exec, execWireRead, State.react, he, State.answerByte, hd', hc]
  simp [hl, hw', State.driveCell, ha, hv, State.drive, State.setRdm, State.clearEvent]
  rw [hr]
  exact ⟨hc, rfl, rfl, rfl, rfl, hw, rfl, rfl, rfl, rfl⟩

/-- A poll does not look at the frame, the event or the byte driven. -/
theorem Rdm.poll_outer (cfg : Config) (x : Rdm) (e : Option DevEvent) (f : List Byte) (y : Byte) :
    Rdm.poll cfg { x with fb := f, event := e, out := y } = { Rdm.poll cfg x with fb := f, event := e, out := y } := by
  obtain ⟨ar, b0, b1, wp, we, wi, bl, pe, dp, fb, ev, ou⟩ := x
  cases wi
  · rfl
  · rcases bl with (_ | n) | _
    · cases pe with
      | none => rfl
      | some c => obtain ⟨ef, bp⟩ := c; cases ef <;> rfl
    · rfl
    · rfl

/-- The status byte. -/
theorem answers_status {cfg : Config} {d : Rdm} {o : Byte} (h : d.fb = [0x05#8]) (hd : d.dpd = false) :
    Answers cfg d o { d.poll cfg with fb := [0x05#8, o], event := none } (some (d.poll cfg).statusByte) := by
  intro s hc hr
  have he : s.rdm.event = some .byte := by rw [hr]
  have hf : s.rdm.fb = [0x05#8, o] := by rw [hr]; simp [h]
  have hd' : s.rdm.dpd = false := by rw [hr]; exact hd
  refine ⟨_, s.env, ?_, rfl, rfl, fun _ hx => by cases hx; rfl⟩
  simp only [deviceTurn, hf, decodeFrame, exec, execWireReadStatus, State.react, he, State.answerByte, hd', hc]
  simp only [List.length_singleton, Nat.one_ne_zero, decide_false, Bool.or_false, Bool.false_and, Bool.false_eq_true, if_false, State.driveStatus, State.drive, State.setRdm, State.clearEvent, hc]
  rw [hr, Rdm.poll_outer, h]
  rfl

/-! ### Steps -/

theorem Attached.move {c c' : Ctx} {s t : State} {code code' : List Micro} {l l' : Option Byte} {d d' : Rdm}
    (h : Attached c s code l d) (hs : t.seq = s.seq) (hc : t.cfg = s.cfg) (ha : t.addr = s.addr)
    (hw : t.wdata = s.wdata) (he : t.err = s.err) (hac : t.env.acts = s.env.acts)
    (hu : t.upc = some { code := code', s := l' }) (hd : t.rdm = { d' with out := t.rdm.out }) (hn : d'.event = none)
    (hr : t.rdata = some c'.rdata) (hb : t.env.busyDraws = c'.busy)
    (hcc : c' = { c with rdata := c'.rdata, busy := c'.busy }) : Attached c' t code' l' d' := by
  rw [hcc]
  exact ⟨hs.trans h.running, hu, hc.trans h.cfg, h.attached, ha.trans h.addr, hw.trans h.wdata, hac.trans h.acts, h.quiet,
    hb, hr, he.trans h.err, hd, hn⟩

/-- The exchange with the attached device. -/
theorem Attached.exchange {c : Ctx} {s : State} {code : List Micro} {l : Option Byte} {d d' : Rdm} {o : Byte}
    {v : Option Byte} (h : Attached c s code l d) (ha : Answers c.cfg d o d' v) (received : Answer → State → State) :
    ∃ b env, Machine.exchange (deviceTurn exec) o s received =
        .next (received (.byte b)
          { s with rdm := { d' with out := b }, env := env, trace := s.trace ++ [.xfer o (.byte b)] }) ∧
      env.acts = s.env.acts ∧ env.busyDraws = s.env.busyDraws ∧ ∀ x, v = some x → b = x := by
  have h2 : s.cfg.rdmAttached = true := h.cfg ▸ h.attached
  obtain ⟨b, env, e, h3⟩ := ha (s.deviceByte o) h.cfg (by
    simp only [State.deviceByte, State.setRdm]; rw [h.rdm])
  refine ⟨b, env, ?_, h3⟩
  unfold Machine.exchange
  rw [if_pos h2, e]
  rfl

variable {c : Ctx} {s : State} {rest : List Micro} {l : Option Byte} {d d' : Rdm} {Q : State → Prop}

/-- A step whose internal computation reaches a bus event. -/
theorem Attached.event {x : State} {code : List Micro} {b : BusOp} (h : Attached c s code l d)
    (hn : nextAction code s = .ok (x, .event b rest)) :
    Machine.step s = performEvent (deviceTurn exec) b rest x ∧ Attached c x code l d := by
  have hx := nextAction_calcOnly _ _ _ _ hn
  unfold CalcOnly at hx
  refine ⟨by simp [h.seqStep, Machine.seqStep, h.upc, hn, perform], ?_⟩
  rw [hx]
  exact h.move rfl rfl rfl rfl rfl rfl h.upc h.rdm h.noEvent h.rdata h.busy rfl

theorem Attached.assert {x : State} {code : List Micro} (h' : Attached c s code l d)
    (hx : nextAction code s = .ok (x, .event .csAssert rest))
    (k : ∀ t, Attached c t rest l { d with fb := [] } → Reach t Q) : Reach s Q := by
  obtain ⟨hs, h⟩ := h'.event hx
  have h2 : x.cfg.rdmAttached = true := h.cfg ▸ h.attached
  refine .step (t := x.csAssert.goTo rest) hs (k _ ?_)
  rw [State.csAssert_eq, if_pos h2]
  refine h.move rfl rfl rfl rfl rfl rfl ?_ ?_ h.noEvent h.rdata h.busy rfl
  · simp [State.goTo, h.upc]
  · simp only [State.goTo]; rw [h.rdm]

theorem Attached.send {o : Src} {b : Byte} {v : Option Byte} (h : Attached c s (.bus (.send o) :: rest) l d)
    (ho : s.source o = .ok b) (hd : Answers c.cfg d b d' v) (hn : d'.event = none)
    (k : ∀ t, Attached c t rest l d' → Reach t Q) : Reach s Q := by
  obtain ⟨i, env, e, h1, h2, -⟩ := h.exchange hd (afterXfer rest fun _ t => t)
  have hs : Machine.step s = Machine.exchange (deviceTurn exec) b s (afterXfer rest fun _ t => t) := by
    simp [h.seqStep, Machine.seqStep, h.upc, nextAction, perform, performEvent, ho]
  refine .step (hs.trans e) (k _ ?_)
  · refine h.move rfl rfl rfl rfl rfl h1 ?_ rfl hn h.rdata (h2.trans h.busy) rfl
    simp [afterXfer, State.goTo, h.upc]

theorem Attached.recvStatus {v : Byte} (h : Attached c s (.bus .recvStatus :: rest) l d)
    (hd : Answers c.cfg d c.cfg.filler d' (some v)) (hn : d'.event = none)
    (k : ∀ t, Attached c t rest (some v) d' → Reach t Q) : Reach s Q := by
  obtain ⟨i, env, e, h1, h2, h3⟩ := h.exchange hd (afterXfer rest fun i t => t.setLocal i)
  cases h3 v rfl
  have hs : Machine.step s = Machine.exchange (deviceTurn exec) c.cfg.filler s (afterXfer rest fun i t => t.setLocal i) := by
    simp [h.seqStep, Machine.seqStep, h.upc, nextAction, perform, performEvent, h.cfg]
  refine .step (hs.trans e) (k _ ?_)
  · refine h.move rfl rfl rfl rfl rfl h1 ?_ rfl hn h.rdata (h2.trans h.busy) rfl
    simp [afterXfer, State.goTo, State.setLocal, h.upc]

theorem Attached.recvData {v : Byte} {n : Nat} (h : Attached c s (.bus (.recvData n) :: rest) l d)
    (hd : Answers c.cfg d c.cfg.filler d' (some v)) (hn : d'.event = none)
    (k : ∀ t, Attached { c with rdata := c.rdata.set n (some v) } t rest l d' → Reach t Q) : Reach s Q := by
  obtain ⟨i, env, e, h1, h2, h3⟩ := h.exchange hd (afterXfer rest fun i t => t.setRdataAt n i)
  cases h3 v rfl
  have hs : Machine.step s = Machine.exchange (deviceTurn exec) c.cfg.filler s (afterXfer rest fun i t => t.setRdataAt n i) := by
    simp [h.seqStep, Machine.seqStep, h.upc, nextAction, perform, performEvent, h.cfg]
  refine .step (hs.trans e) (k _ ?_)
  · refine h.move rfl rfl rfl rfl rfl h1 ?_ rfl hn ?_ (h2.trans h.busy) rfl
    · simp [afterXfer, State.goTo, State.setRdataAt, h.upc]
    · simp [afterXfer, State.goTo, State.setRdataAt, h.rdata]

theorem Attached.wait {x : State} {w : WaitKind} {code : List Micro} (h' : Attached c s code l d)
    (hx : nextAction code s = .ok (x, .event (.wait w) rest))
    (k : ∀ t, Attached c t rest l d → Reach t Q) : Reach s Q := by
  obtain ⟨hs, h⟩ := h'.event hx
  refine .step (t := (x.wait w).goTo rest) hs (k _ ?_)
  refine h.move rfl rfl rfl rfl rfl rfl ?_ h.rdm h.noEvent h.rdata h.busy rfl
  simp [State.goTo, State.wait, State.record, h.upc]

/-- What the device does at the end of the frame `d.fb` (20_memory.md R103). -/
def Reacts (c : Ctx) (d d' : Rdm) (busy : List BusyLen) : Prop :=
  ∀ s : State, s.cfg = c.cfg → s.env.busyDraws = c.busy → s.rdm = { d with event := some .frameEnd, out := s.rdm.out } →
    ∃ env, deviceTurn exec s = .next { s with rdm := { d' with out := s.rdm.out }, env := env } ∧
      env.acts = s.env.acts ∧ env.busyDraws = busy

/-- The `CSH` and the device's own step after it. -/
theorem Attached.deassert {y : State} {code : List Micro} {m : Option Wphase} {busy : List BusyLen}
    (h' : Attached c s code l d) (hy : nextAction code s = .ok (y, .event (.csDeassert m) rest))
    (hd : Reacts c d d' busy) (hn : d'.event = none)
    (k : ∀ t, Attached { c with busy := busy } t rest l d' → Reach t Q) : Reach s Q := by
  obtain ⟨hstep, h⟩ := h'.event hy
  have h2 : y.cfg.rdmAttached = true := h.cfg ▸ h.attached
  obtain ⟨x, hx, hs, hc, ha, hw, hr, he, hu, hd1, henv⟩ : ∃ x, Machine.step s = .next x ∧ x.seq = y.seq ∧ x.cfg = y.cfg ∧
      x.addr = y.addr ∧ x.wdata = y.wdata ∧ x.rdata = y.rdata ∧ x.err = y.err ∧
      x.upc = some { code := rest, s := l } ∧ x.rdm = { y.rdm with event := some .frameEnd } ∧ x.env = y.env := by
    cases m with
    | none =>
      refine ⟨y.csDeassert.goTo rest, hstep, ?_⟩
      simp [State.csDeassert_eq, h2, State.goTo, h.upc]
    | some w =>
      refine ⟨(y.csDeassert.setWphase w).goTo rest, hstep, ?_⟩
      simp [State.csDeassert_eq, h2, State.goTo, State.setWphase, h.upc]
  obtain ⟨env, e, e1, e2⟩ := hd x (hc.trans h.cfg) (by rw [henv]; exact h.busy) (by rw [hd1, h.rdm])
  have hxs : Machine.step x = deviceTurn exec x := by
    have : x.rdm.event = some .frameEnd := by rw [hd1]
    simp [Machine.step, turn, this]
  refine .step hx (.step (hxs.trans e) (k _ ?_))
  exact h.move hs hc ha hw he (e1.trans (by rw [henv])) hu rfl hn (hr.trans h.rdata) e2 rfl

/-! ### Reactions to the end of a frame -/

/-- READ and READ-STATUS frames end without effect. -/
theorem reacts_read {l : List Byte} (h : d.fb = 0x05#8 :: l ∨ d.fb = 0x03#8 :: l) (hn : d.event = none) :
    Reacts c d d c.busy := by
  intro s hc hb hr
  refine ⟨s.env, ?_, rfl, hb⟩
  have he : s.rdm.event = some .frameEnd := by rw [hr]
  have key : (s.endFrame false id).clearEvent = { s with rdm := { d with out := s.rdm.out } } := by
    have : s.endFrame false id = s := by
      unfold State.endFrame; split
      · rfl
      · split <;> rfl
    rw [this]
    simp only [State.clearEvent, State.setRdm]
    rw [hr, ← hn]
  rcases h with h | h
  · have hf : s.rdm.fb = 0x05#8 :: l := by rw [hr]; exact h
    simp only [deviceTurn, hf, decodeFrame, exec, execWireReadStatus, State.react, he, key]
  · have hf : s.rdm.fb = 0x03#8 :: l := by rw [hr]; exact h
    simp only [deviceTurn, hf, decodeFrame, exec, execWireRead, State.react, he, key]

/-- The enable frame sets the latch of a device that is free to act. -/
theorem reacts_enable (h : d.fb = [0x06#8]) (hn : d.event = none) (hd : d.dpd = false) (hw : d.wip = false) :
    Reacts c d { d with wel := true } c.busy := by
  intro s hc hb hr
  refine ⟨s.env, ?_, rfl, hb⟩
  have he : s.rdm.event = some .frameEnd := by rw [hr]
  have hf : s.rdm.fb = [0x06#8] := by rw [hr]; exact h
  have hd' : s.rdm.dpd = false := by rw [hr]; exact hd
  have hw' : s.rdm.wip = false := by rw [hr]; exact hw
  simp only [deviceTurn, hf, decodeFrame, exec, execWireWriteEnable, State.react, he, State.endFrame, hd', hw',
    Bool.false_eq_true, if_false, State.clearEvent, State.setRdm]
  rw [hr, ← hn]
  simp only [hd, hw, h]

/-- The WRITE frame of an enabled device starts a cycle. -/
theorem reacts_write {tail : List Byte} {b : BusyLen} {busy : List BusyLen} (h : d.fb = 0x02#8 :: tail)
    (hn : d.event = none) (hd : d.dpd = false) (hw : d.wip = false) (he : d.wel = true)
    (hl : c.cfg.na + 1 ≤ tail.length) (hb : c.busy = b :: busy) :
    Reacts c d { d with wip := true, busyLeft := b,
                        pending := some { effect := .write (frameAddress c.cfg tail) (tail.drop c.cfg.na), bp := d.bp } }
      busy := by
  intro s hc hbs hr
  refine ⟨{ s.env with busyDraws := busy }, ?_, rfl, rfl⟩
  have he' : s.rdm.event = some .frameEnd := by rw [hr]
  have hf : s.rdm.fb = 0x02#8 :: tail := by rw [hr]; exact h
  have hd' : s.rdm.dpd = false := by rw [hr]; exact hd
  have hw' : s.rdm.wip = false := by rw [hr]; exact hw
  have hwel : s.rdm.wel = true := by rw [hr]; exact he
  have hbp : s.rdm.bp = d.bp := by rw [hr]; rfl
  rw [hb] at hbs
  simp only [deviceTurn, hf, decodeFrame, exec, execWireWrite, State.react, he', State.endFrame, hd', hw',
    Bool.false_eq_true, if_false, State.cycleIf, hwel, hc, hl, decide_true, Bool.and_self, if_true, State.startCycle,
    State.drawBusy, hbs, State.clearEvent, State.setRdm, hbp]
  rw [hr, ← hn]
  simp only [hd, he, h]

/-! ### Pieces of the micro-sequences -/

theorem Attached.local {code : List Micro} {v : Byte} (h : Attached c s code (some v) d) : s.localStatus = .ok v := by
  simp [State.localStatus, h.upc, valueOf]

/-- A status poll, `code` being the poll after some internal computation. -/
theorem Attached.readStatus {x : State} {code : List Micro} (h : Attached c s code l d)
    (hx : nextAction code s = nextAction (Machine.readStatus ++ rest) x) (hd : d.dpd = false)
    (k : ∀ t, Attached c t rest (some (d.poll c.cfg).statusByte)
      { d.poll c.cfg with fb := [0x05#8, c.cfg.filler], event := none, out := d.out } → Reach t Q) : Reach s Q := by
  have hn := h.noEvent
  refine h.assert (hx.trans rfl) fun t1 h1 => h1.send rfl (answers_opcode rfl) rfl fun t2 h2 =>
    h2.recvStatus (answers_status rfl hd) rfl fun t3 h3 => ?_
  have e : ({ ({ d with fb := [] } : Rdm) with fb := [] ++ [0x05#8], event := none } : Rdm) =
      { d with fb := [0x05#8], event := none, out := d.out } := rfl
  rw [e, Rdm.poll_outer] at h3
  refine h3.deassert (y := t3.setSrLast (d.poll c.cfg).statusByte) (rest := rest) (m := none) ?_
    (reacts_read (.inl rfl) rfl) rfl k
  simp [nextAction, h3.local, Except.bind, deassertCs]
  rfl

/-- The bit an await looks at is the device's `WIP`. -/
theorem statusByte_wip (x : Rdm) : x.statusByte.getLsbD 0 = x.wip := by
  unfold Rdm.statusByte
  cases x.wpen <;> cases x.bp1 <;> cases x.bp0 <;> cases x.wel <;> cases x.wip <;> rfl

/-- What a poll that finds the device settled leaves to run. -/
theorem nextAction_settled {s : State} {v : Byte} {code : List Micro} (h : s.localStatus = .ok v)
    (hv : v.getLsbD 0 = false) : nextAction (.compute .pollTest :: code) s = nextAction code (s.setWphase .idle) := by
  simp only [nextAction, h, Except.bind, hv, Bool.false_eq_true, if_false]

/-- An await of a settled device: one poll. -/
theorem Attached.awaitSettled {x : State} {code : List Micro} (h : Attached c s code l d)
    (hx : nextAction code s = nextAction (awaitLoop ++ rest) x) (hd : d.dpd = false) (hw : d.wip = false)
    (k : ∀ t v, v.getLsbD 0 = false → Attached c t (.compute .pollTest :: rest) (some v)
      { d with fb := [0x05#8, c.cfg.filler], event := none } → Reach t Q) : Reach s Q := by
  refine h.readStatus (rest := .compute .pollTest :: rest) (x := x) ?_ hd fun t h1 => ?_
  · rw [hx]; simp [awaitLoop]
  have e : d.poll c.cfg = d := by simp [Rdm.poll, hw]
  rw [e] at h1
  exact k t _ ((statusByte_wip d).trans hw) h1

/-- An await of a device `n` polls from the end of its cycle. -/
theorem Attached.awaitBusy {y : Cycle} (n : Nat) : ∀ {s x : State} {l : Option Byte} {d : Rdm} {code : List Micro},
    Attached c s code l d → nextAction code s = nextAction (awaitLoop ++ rest) x → c.cfg.pollLimit = none →
    d.dpd = false → d.wip = true → d.busyLeft = .polls n → d.pending = some y →
    (∀ t v z, v.getLsbD 0 = false → z.wip = false → z.dpd = false → z.event = none →
      z.array = (y.effect.apply c.cfg y.bp d).array →
      Attached c t (.compute .pollTest :: rest) (some v) z → Reach t Q) → Reach s Q := by
  induction n with
  | zero =>
    intro s x l d code h hx hl hd hw hb hp k
    refine h.readStatus (rest := .compute .pollTest :: rest) (x := x) ?_ hd fun t h1 => ?_
    · rw [hx]; simp [awaitLoop]
    have e : d.poll c.cfg = d.endCycle c.cfg := by simp [Rdm.poll, hw, hb]
    refine k t _ _ ?_ ?_ ?_ ?_ ?_ h1
    · rw [statusByte_wip, e]; rfl
    · rw [e]; rfl
    · rw [e]
      simp only [Rdm.endCycle, hp]
      cases y.effect <;> exact hd
    · rfl
    · rw [e]
      simp only [Rdm.endCycle, hp]
  | succ n ih =>
    intro s x l d code h hx hl hd hw hb hp k
    refine h.readStatus (rest := .compute .pollTest :: rest) (x := x) ?_ hd fun t h1 => ?_
    · rw [hx]; simp [awaitLoop]
    have e : d.poll c.cfg = { d with busyLeft := .polls n } := by simp [Rdm.poll, hw, hb]
    rw [e] at h1
    refine h1.wait (w := .pollDelay) (x := t.setPollCnt (t.pollCnt + 1)) (rest := awaitLoop ++ rest) ?_ fun t2 h2 =>
      ih h2 rfl hl hd hw rfl hp fun t v z hv h3 h4 h5 h6 => k t v z hv h3 h4 h5 (h6.trans ?_)
    · have hv : (({ d with busyLeft := .polls n } : Rdm).statusByte).getLsbD 0 = true := by rw [statusByte_wip]; exact hw
      simp only [nextAction, h1.local, Except.bind, hv, if_true, State.limitReached]
      simp [h1.cfg, hl, State.setPollCnt]
    · cases y.effect <;> rfl

/-- The bytes of `ADDR`, each answered with a draw. -/
theorem Attached.sendAddress (ks : List Nat) : ∀ {s : State} {l : Option Byte} {d : Rdm},
    Attached c s (ks.map (fun k => .bus (.send (.addrByte k))) ++ rest) l d →
    (∀ pre b, pre.length < ks.length → Answers c.cfg { d with fb := d.fb ++ pre } b
      { d with fb := d.fb ++ pre ++ [b], event := none } none) →
    (∀ t, Attached c t rest l { d with fb := d.fb ++ ks.map (byteOf c.addr), event := none } → Reach t Q) →
    Reach s Q := by
  induction ks with
  | nil =>
    intro s l d h _ k
    refine k s ?_
    have : ({ d with fb := d.fb ++ ([] : List Nat).map (byteOf c.addr), event := none } : Rdm) = d := by
      rw [← h.noEvent]; simp
    rw [this]; exact h
  | cons i ks ih =>
    intro s l d h ha k
    have h0 := ha [] (byteOf c.addr i) (by simp)
    rw [List.append_nil] at h0
    refine h.send (b := byteOf c.addr i) ?_ h0 rfl fun t h1 => ih h1 (fun pre b hl => ?_) fun t2 h2 => k t2 ?_
    · simp [State.source, h.addr, valueOf, Except.map]
    · have := ha (byteOf c.addr i :: pre) b (by simpa using hl)
      have hn := h.noEvent
      simp only [List.append_assoc, List.cons_append, List.nil_append] at this ⊢
      rw [hn] at this
      exact this
    · simpa [List.append_assoc] using h2

/-- The enable frame (43_write_path.md R230), `code` being the frame after some internal computation. -/
theorem Attached.enableWrite {x : State} {code : List Micro} (h : Attached c s code l d)
    (hx : nextAction code s = nextAction (Machine.enableWrite ++ rest) x) (hd : d.dpd = false) (hw : d.wip = false)
    (k : ∀ t, Attached c t rest l { d with fb := [0x06#8], wel := true, event := none } → Reach t Q) : Reach s Q := by
  refine h.assert (hx.trans rfl) fun t1 h1 => h1.send rfl (answers_opcode rfl) rfl fun t2 h2 => ?_
  exact h2.deassert (m := some .writeEnabled) (rest := rest) rfl (reacts_enable rfl rfl hd hw) rfl k

/-- The end of a command. -/
theorem Attached.complete {x : State} {code : List Micro} (h : Attached c s code l d)
    (hx : nextAction code s = .ok (x, .complete)) : Machine.step s = .next x.complete ∧ Attached c x code l d := by
  have hc := nextAction_calcOnly _ _ _ _ hx
  unfold CalcOnly at hc
  refine ⟨by simp [h.seqStep, Machine.seqStep, h.upc, hx, perform], ?_⟩
  rw [hc]
  exact h.move rfl rfl rfl rfl rfl rfl h.upc h.rdm h.noEvent h.rdata h.busy rfl

end Sys2Proof.Safety
end

