-- ==== Sys2Proof/Laws/PerInstr.lean ====
section
/-! SUPPORT. A statement made once for every constructor of `Instr`: its encoding has, in the low byte of a command word
or as byte 0 of a frame, the match value of its row in spec/opcode_table.json (mask 0xFF). -/

namespace Sys2Proof.Laws

/-- The match value of an instruction's row in spec/opcode_table.json. -/
def tableMatch : Instr → Byte
  | .write _ _ _ => 0x01#8
  | .read _ _ _ => 0x02#8
  | .readId _ _ _ => 0x03#8
  | .dpdEnter _ _ _ => 0x04#8
  | .dpdRelease _ _ _ => 0x05#8
  | .eraseSector _ _ _ => 0x06#8
  | .eraseChip _ _ _ => 0x07#8
  | .protectNone _ _ _ => 0x08#8
  | .protectUpperQuarter _ _ _ => 0x09#8
  | .protectUpperHalf _ _ _ => 0x0A#8
  | .protectAll _ _ _ => 0x0B#8
  | .hwProtectEnable _ _ _ => 0x0C#8
  | .hwProtectDisable _ _ _ => 0x0D#8
  | .isWip _ _ _ => 0x0E#8
  | .isWpen _ _ _ => 0x0F#8
  | .isBp0 _ _ _ => 0x10#8
  | .isBp1 _ _ _ => 0x11#8
  | .wireRead _ => 0x03#8
  | .wireWrite _ => 0x02#8
  | .wireWriteEnable _ => 0x06#8
  | .wireWriteDisable _ => 0x04#8
  | .wireReadStatus _ => 0x05#8
  | .wireWriteStatus _ => 0x01#8
  | .wirePageErase _ => 0x42#8
  | .wireSectorErase _ => 0xD8#8
  | .wireChipErase _ => 0xC7#8
  | .wireReleaseReadId _ => 0xAB#8
  | .wireDeepPowerDown _ => 0xB9#8

/-- The byte of an encoding that the table's mask selects. -/
def selectorByte : Encoded → Option Byte
  | .host w _ _ => some (w.extractLsb' 0 8)
  | .frame [] => none
  | .frame (b :: _) => some b

/-- The low byte of a command word is `RSV : OP`, with `RSV` = 0. -/
theorem hostWord_low (op : BitVec 5) (addr : Addr) : (hostWord op addr).extractLsb' 0 8 = 0#3 ++ op := by
  apply BitVec.eq_of_getLsbD_eq
  intro i hi
  rw [BitVec.getLsbD_extractLsb', getLsbD_hostWord, BitVec.getLsbD_append]
  by_cases h5 : i < 5 <;> simp [h5, hi]

/-- The encoding of `i` is selected by its row's match value. -/
def TableMatch.Statement (i : Instr) : Prop := selectorByte (encode i) = some (tableMatch i)

theorem TableMatch.write (addr : Addr) (len : Nat) (data : List Byte) :
    TableMatch.Statement (.write addr len data) := congrArg some (hostWord_low _ addr)

theorem TableMatch.read (addr : Addr) (len : Nat) (data : List Byte) :
    TableMatch.Statement (.read addr len data) := congrArg some (hostWord_low _ addr)

theorem TableMatch.readId (addr : Addr) (len : Nat) (data : List Byte) :
    TableMatch.Statement (.readId addr len data) := congrArg some (hostWord_low _ addr)

theorem TableMatch.dpdEnter (addr : Addr) (len : Nat) (data : List Byte) :
    TableMatch.Statement (.dpdEnter addr len data) := congrArg some (hostWord_low _ addr)

theorem TableMatch.dpdRelease (addr : Addr) (len : Nat) (data : List Byte) :
    TableMatch.Statement (.dpdRelease addr len data) := congrArg some (hostWord_low _ addr)

theorem TableMatch.eraseSector (addr : Addr) (len : Nat) (data : List Byte) :
    TableMatch.Statement (.eraseSector addr len data) := congrArg some (hostWord_low _ addr)

theorem TableMatch.eraseChip (addr : Addr) (len : Nat) (data : List Byte) :
    TableMatch.Statement (.eraseChip addr len data) := congrArg some (hostWord_low _ addr)

theorem TableMatch.protectNone (addr : Addr) (len : Nat) (data : List Byte) :
    TableMatch.Statement (.protectNone addr len data) := congrArg some (hostWord_low _ addr)

theorem TableMatch.protectUpperQuarter (addr : Addr) (len : Nat) (data : List Byte) :
    TableMatch.Statement (.protectUpperQuarter addr len data) := congrArg some (hostWord_low _ addr)

theorem TableMatch.protectUpperHalf (addr : Addr) (len : Nat) (data : List Byte) :
    TableMatch.Statement (.protectUpperHalf addr len data) := congrArg some (hostWord_low _ addr)

theorem TableMatch.protectAll (addr : Addr) (len : Nat) (data : List Byte) :
    TableMatch.Statement (.protectAll addr len data) := congrArg some (hostWord_low _ addr)

theorem TableMatch.hwProtectEnable (addr : Addr) (len : Nat) (data : List Byte) :
    TableMatch.Statement (.hwProtectEnable addr len data) := congrArg some (hostWord_low _ addr)

theorem TableMatch.hwProtectDisable (addr : Addr) (len : Nat) (data : List Byte) :
    TableMatch.Statement (.hwProtectDisable addr len data) := congrArg some (hostWord_low _ addr)

theorem TableMatch.isWip (addr : Addr) (len : Nat) (data : List Byte) :
    TableMatch.Statement (.isWip addr len data) := congrArg some (hostWord_low _ addr)

theorem TableMatch.isWpen (addr : Addr) (len : Nat) (data : List Byte) :
    TableMatch.Statement (.isWpen addr len data) := congrArg some (hostWord_low _ addr)

theorem TableMatch.isBp0 (addr : Addr) (len : Nat) (data : List Byte) :
    TableMatch.Statement (.isBp0 addr len data) := congrArg some (hostWord_low _ addr)

theorem TableMatch.isBp1 (addr : Addr) (len : Nat) (data : List Byte) :
    TableMatch.Statement (.isBp1 addr len data) := congrArg some (hostWord_low _ addr)

theorem TableMatch.wireRead (tail : List Byte) : TableMatch.Statement (.wireRead tail) := rfl

theorem TableMatch.wireWrite (tail : List Byte) : TableMatch.Statement (.wireWrite tail) := rfl

theorem TableMatch.wireWriteEnable (tail : List Byte) : TableMatch.Statement (.wireWriteEnable tail) := rfl

theorem TableMatch.wireWriteDisable (tail : List Byte) : TableMatch.Statement (.wireWriteDisable tail) := rfl

theorem TableMatch.wireReadStatus (tail : List Byte) : TableMatch.Statement (.wireReadStatus tail) := rfl

theorem TableMatch.wireWriteStatus (tail : List Byte) : TableMatch.Statement (.wireWriteStatus tail) := rfl

theorem TableMatch.wirePageErase (tail : List Byte) : TableMatch.Statement (.wirePageErase tail) := rfl

theorem TableMatch.wireSectorErase (tail : List Byte) : TableMatch.Statement (.wireSectorErase tail) := rfl

theorem TableMatch.wireChipErase (tail : List Byte) : TableMatch.Statement (.wireChipErase tail) := rfl

theorem TableMatch.wireReleaseReadId (tail : List Byte) : TableMatch.Statement (.wireReleaseReadId tail) := rfl

theorem TableMatch.wireDeepPowerDown (tail : List Byte) : TableMatch.Statement (.wireDeepPowerDown tail) := rfl

end Sys2Proof.Laws
end

