-- ==== Sys2Proof/Tests/Slice0.lean ====
section
/-! SUPPORT. Tests: ill-formed instructions refused, encodings written out bit by bit, one step of each instruction against
the spec's tables, and for each statement of the obligations a concrete state that meets its hypotheses. -/

namespace Sys2Proof.Tests

open Sys2Proof.Machine Sys2Proof.Safety

/-! ### States -/

/-- A small device attached to a `Narrow` block. -/
def small : Config :=
  { Config.initial with profile := .narrow, maxLen := 4, rdmAttached := true, deviceSize := 64, pageSize := 8,
                        sectorShift := 4 }

/-- The same block without a device model. -/
def bare : Config := { small with rdmAttached := false }

/-- A `Wide` block without a device model. -/
def wide : Config := { Config.initial with maxLen := 4 }

/-- After reset with the small device attached. -/
def idleSmall : State := State.resetWith small

/-- After reset with no device model, the transport's answers given. -/
def idleBare (cfg : Config) (l : List Byte) : State :=
  { State.resetWith cfg with env := { (State.resetWith cfg).env with answers := l.map Answer.byte } }

/-- The small device with `d` for its state, reacting to the event `e` of the frame `fb`. -/
def device (fb : List Byte) (e : DevEvent) (d : Rdm) : State :=
  { idleSmall with
    rdm := { d with fb := fb, event := some e },
    env := { idleSmall.env with byteDraws := [0x5A#8], busyDraws := [.polls 2] } }

/-- The device at power-on. -/
def dev : Rdm := Rdm.powerOn small

/-- The state an outcome holds, the reset state if it holds none. -/
def after : Out → State
  | .next t => t
  | _ => State.reset

/-- The opcodes and other literal bytes of the micro-sequence a state is about to run. -/
def literals (s : State) : List Byte :=
  (s.upc.elim [] Upc.code).filterMap fun m => match m with
    | .bus (.send (.lit b)) => some b
    | _ => none

/-- How many bus events the micro-sequence of a state writes out. -/
def busItems (s : State) : Nat :=
  ((s.upc.elim [] Upc.code).filter fun m => match m with
    | .bus _ => true
    | _ => false).length

/-! ### WellFormed: an ill-formed term for each check -/

theorem test_illFormed_write_long : Instr.wellFormed small (.write 0#24 5 [0#8, 0#8, 0#8, 0#8, 0#8]) = false := by decide
theorem test_illFormed_write_mismatch : Instr.wellFormed small (.write 0#24 2 [0#8]) = false := by decide
theorem test_illFormed_read_long : Instr.wellFormed small (.read 0#24 5 []) = false := by decide
theorem test_illFormed_wireRead : Instr.wellFormed small (.wireRead [0#8]) = false := by decide
theorem test_illFormed_wireWrite : Instr.wellFormed small (.wireWrite [0#8]) = false := by decide
theorem test_illFormed_wireWriteEnable : Instr.wellFormed small (.wireWriteEnable [0#8]) = false := by decide
theorem test_illFormed_wireWriteDisable : Instr.wellFormed small (.wireWriteDisable [0#8]) = false := by decide
theorem test_illFormed_wireReadStatus_short : Instr.wellFormed small (.wireReadStatus []) = false := by decide
theorem test_illFormed_wireReadStatus_long : Instr.wellFormed small (.wireReadStatus [0#8, 0#8]) = false := by decide
theorem test_illFormed_wireWriteStatus_short : Instr.wellFormed small (.wireWriteStatus []) = false := by decide
theorem test_illFormed_wireWriteStatus_long : Instr.wellFormed small (.wireWriteStatus [0#8, 0#8]) = false := by decide
theorem test_illFormed_wirePageErase_short : Instr.wellFormed small (.wirePageErase [0#8]) = false := by decide
theorem test_illFormed_wirePageErase_long : Instr.wellFormed small (.wirePageErase [0#8, 0#8, 0#8]) = false := by decide
theorem test_illFormed_wireSectorErase_short : Instr.wellFormed small (.wireSectorErase [0#8]) = false := by decide
theorem test_illFormed_wireSectorErase_long : Instr.wellFormed small (.wireSectorErase [0#8, 0#8, 0#8]) = false := by decide
theorem test_illFormed_wireChipErase : Instr.wellFormed small (.wireChipErase [0#8]) = false := by decide
theorem test_illFormed_wireReleaseReadId : Instr.wellFormed small (.wireReleaseReadId [0#8, 0#8, 0#8]) = false := by decide
theorem test_illFormed_wireDeepPowerDown : Instr.wellFormed small (.wireDeepPowerDown [0#8]) = false := by decide
theorem test_wellFormed_boundary : Instr.wellFormed small (.write 0#24 4 [0#8, 0#8, 0#8, 0#8]) = true ∧
    Instr.wellFormed small (.write 0#24 0 []) = true ∧ Instr.wellFormed small (.read 0#24 4 [1#8]) = true := by decide

/-! ### Decode: every encoding written out, `ADDR`, `RSV`, `OP` (30_encoding.md R140, R141) and byte 0 (R150) -/

theorem test_decode_write : decodeHost (0b000100100011010001010110#24 ++ 0b000#3 ++ 0b00001#5) 1 [0xAA#8] =
    .ok (.write 0x123456#24 1 [0xAA#8]) := by decide
theorem test_decode_read : decodeHost (0b000100100011010001010110#24 ++ 0b000#3 ++ 0b00010#5) 1 [0xAA#8] =
    .ok (.read 0x123456#24 1 [0xAA#8]) := by decide
theorem test_decode_readId : decodeHost (0b000100100011010001010110#24 ++ 0b000#3 ++ 0b00011#5) 1 [0xAA#8] =
    .ok (.readId 0x123456#24 1 [0xAA#8]) := by decide
theorem test_decode_dpdEnter : decodeHost (0b000100100011010001010110#24 ++ 0b000#3 ++ 0b00100#5) 1 [0xAA#8] =
    .ok (.dpdEnter 0x123456#24 1 [0xAA#8]) := by decide
theorem test_decode_dpdRelease : decodeHost (0b000100100011010001010110#24 ++ 0b000#3 ++ 0b00101#5) 1 [0xAA#8] =
    .ok (.dpdRelease 0x123456#24 1 [0xAA#8]) := by decide
theorem test_decode_eraseSector : decodeHost (0b000100100011010001010110#24 ++ 0b000#3 ++ 0b00110#5) 1 [0xAA#8] =
    .ok (.eraseSector 0x123456#24 1 [0xAA#8]) := by decide
theorem test_decode_eraseChip : decodeHost (0b000100100011010001010110#24 ++ 0b000#3 ++ 0b00111#5) 1 [0xAA#8] =
    .ok (.eraseChip 0x123456#24 1 [0xAA#8]) := by decide
theorem test_decode_protectNone : decodeHost (0b000100100011010001010110#24 ++ 0b000#3 ++ 0b01000#5) 1 [0xAA#8] =
    .ok (.protectNone 0x123456#24 1 [0xAA#8]) := by decide
theorem test_decode_protectUpperQuarter : decodeHost (0b000100100011010001010110#24 ++ 0b000#3 ++ 0b01001#5) 1 [0xAA#8] =
    .ok (.protectUpperQuarter 0x123456#24 1 [0xAA#8]) := by decide
theorem test_decode_protectUpperHalf : decodeHost (0b000100100011010001010110#24 ++ 0b000#3 ++ 0b01010#5) 1 [0xAA#8] =
    .ok (.protectUpperHalf 0x123456#24 1 [0xAA#8]) := by decide
theorem test_decode_protectAll : decodeHost (0b000100100011010001010110#24 ++ 0b000#3 ++ 0b01011#5) 1 [0xAA#8] =
    .ok (.protectAll 0x123456#24 1 [0xAA#8]) := by decide
theorem test_decode_hwProtectEnable : decodeHost (0b000100100011010001010110#24 ++ 0b000#3 ++ 0b01100#5) 1 [0xAA#8] =
    .ok (.hwProtectEnable 0x123456#24 1 [0xAA#8]) := by decide
theorem test_decode_hwProtectDisable : decodeHost (0b000100100011010001010110#24 ++ 0b000#3 ++ 0b01101#5) 1 [0xAA#8] =
    .ok (.hwProtectDisable 0x123456#24 1 [0xAA#8]) := by decide
theorem test_decode_isWip : decodeHost (0b000100100011010001010110#24 ++ 0b000#3 ++ 0b01110#5) 1 [0xAA#8] =
    .ok (.isWip 0x123456#24 1 [0xAA#8]) := by decide
theorem test_decode_isWpen : decodeHost (0b000100100011010001010110#24 ++ 0b000#3 ++ 0b01111#5) 1 [0xAA#8] =
    .ok (.isWpen 0x123456#24 1 [0xAA#8]) := by decide
theorem test_decode_isBp0 : decodeHost (0b000100100011010001010110#24 ++ 0b000#3 ++ 0b10000#5) 1 [0xAA#8] =
    .ok (.isBp0 0x123456#24 1 [0xAA#8]) := by decide
theorem test_decode_isBp1 : decodeHost (0b000100100011010001010110#24 ++ 0b000#3 ++ 0b10001#5) 1 [0xAA#8] =
    .ok (.isBp1 0x123456#24 1 [0xAA#8]) := by decide
theorem test_decode_wireRead : decodeFrame [0b00000011#8, 0x12#8, 0x34#8] = .ok (.wireRead [0x12#8, 0x34#8]) := by decide
theorem test_decode_wireWrite : decodeFrame [0b00000010#8, 0x12#8, 0x34#8] = .ok (.wireWrite [0x12#8, 0x34#8]) := by decide
theorem test_decode_wireWriteEnable : decodeFrame [0b00000110#8, 0x12#8, 0x34#8] = .ok (.wireWriteEnable [0x12#8, 0x34#8]) := by decide
theorem test_decode_wireWriteDisable : decodeFrame [0b00000100#8, 0x12#8, 0x34#8] = .ok (.wireWriteDisable [0x12#8, 0x34#8]) := by decide
theorem test_decode_wireReadStatus : decodeFrame [0b00000101#8, 0x12#8, 0x34#8] = .ok (.wireReadStatus [0x12#8, 0x34#8]) := by decide
theorem test_decode_wireWriteStatus : decodeFrame [0b00000001#8, 0x12#8, 0x34#8] = .ok (.wireWriteStatus [0x12#8, 0x34#8]) := by decide
theorem test_decode_wirePageErase : decodeFrame [0b01000010#8, 0x12#8, 0x34#8] = .ok (.wirePageErase [0x12#8, 0x34#8]) := by decide
theorem test_decode_wireSectorErase : decodeFrame [0b11011000#8, 0x12#8, 0x34#8] = .ok (.wireSectorErase [0x12#8, 0x34#8]) := by decide
theorem test_decode_wireChipErase : decodeFrame [0b11000111#8, 0x12#8, 0x34#8] = .ok (.wireChipErase [0x12#8, 0x34#8]) := by decide
theorem test_decode_wireReleaseReadId : decodeFrame [0b10101011#8, 0x12#8, 0x34#8] = .ok (.wireReleaseReadId [0x12#8, 0x34#8]) := by decide
theorem test_decode_wireDeepPowerDown : decodeFrame [0b10111001#8, 0x12#8, 0x34#8] = .ok (.wireDeepPowerDown [0x12#8, 0x34#8]) := by decide
theorem test_decode_reserved : decodeHost 0x00000000#32 0 [] = .error (.reservedOp 0#5) ∧
    decodeHost 0x00000012#32 0 [] = .error (.reservedOp 0x12#5) ∧
    decodeHost 0x0000001F#32 0 [] = .error (.reservedOp 0x1F#5) ∧
    decodeHost 0x000000E9#32 0 [] = .error (.reservedBits 7#3) ∧
    decodeFrame [0x00#8] = .error (.unknownOpcode 0#8) ∧ decodeFrame [] = .error .emptyFrame := by decide

/-! ### One step of each host command: the wire bytes and bus events of what it starts
(95_test_vectors.md 2.3 to 2.8; an await counts one poll) -/

theorem test_exec_write :
    (let t := after (exec (.write 0x0107#24 3 [1#8, 2#8, 3#8]) idleSmall);
     t.op = some 0x01#5 ∧ t.seqStatus = 0x01#8 ∧ literals t = [0x05#8, 0x06#8, 0x02#8, 0x05#8] ∧ busItems t = 4 + 3 + 8 + 4) := by decide
theorem test_exec_read :
    (let t := after (exec (.read 0x0107#24 3 []) idleSmall);
     t.op = some 0x02#5 ∧ t.seqStatus = 0x01#8 ∧ literals t = [0x03#8] ∧ busItems t = 8) := by decide
theorem test_exec_readId :
    (let t := after (exec (.readId 0x0107#24 0 []) idleSmall);
     t.op = some 0x03#5 ∧ t.seqStatus = 0x01#8 ∧ literals t = [0xAB#8] ∧ busItems t = 7) := by decide
theorem test_exec_dpdEnter :
    (let t := after (exec (.dpdEnter 0x0107#24 0 []) idleSmall);
     t.op = some 0x04#5 ∧ t.seqStatus = 0x01#8 ∧ literals t = [0xB9#8] ∧ busItems t = 3) := by decide
theorem test_exec_dpdRelease :
    (let t := after (exec (.dpdRelease 0x0107#24 0 []) idleSmall);
     t.op = some 0x05#5 ∧ t.seqStatus = 0x01#8 ∧ literals t = [0xAB#8] ∧ busItems t = 4) := by decide
theorem test_exec_eraseSector :
    (let t := after (exec (.eraseSector 0x0107#24 0 []) idleSmall);
     t.op = some 0x06#5 ∧ t.seqStatus = 0x01#8 ∧ literals t = [0x05#8, 0x06#8, 0xD8#8, 0x05#8] ∧ busItems t = 4 + 3 + 5 + 4) := by decide
theorem test_exec_eraseChip :
    (let t := after (exec (.eraseChip 0x0107#24 0 []) idleSmall);
     t.op = some 0x07#5 ∧ t.seqStatus = 0x01#8 ∧ literals t = [0x05#8, 0x06#8, 0xC7#8, 0x05#8] ∧ busItems t = 14) := by decide
theorem test_exec_protectNone :
    (let t := after (exec (.protectNone 0x0107#24 0 []) idleSmall);
     t.op = some 0x08#5 ∧ t.seqStatus = 0x01#8 ∧ literals t = [0x05#8, 0x05#8, 0x06#8, 0x01#8, 0x05#8] ∧ busItems t = 19) := by decide
theorem test_exec_protectUpperQuarter :
    (let t := after (exec (.protectUpperQuarter 0x0107#24 0 []) idleSmall);
     t.op = some 0x09#5 ∧ t.seqStatus = 0x01#8 ∧ literals t = [0x05#8, 0x05#8, 0x06#8, 0x01#8, 0x05#8] ∧ busItems t = 19) := by decide
theorem test_exec_protectUpperHalf :
    (let t := after (exec (.protectUpperHalf 0x0107#24 0 []) idleSmall);
     t.op = some 0x0A#5 ∧ t.seqStatus = 0x01#8 ∧ literals t = [0x05#8, 0x05#8, 0x06#8, 0x01#8, 0x05#8] ∧ busItems t = 19) := by decide
theorem test_exec_protectAll :
    (let t := after (exec (.protectAll 0x0107#24 0 []) idleSmall);
     t.op = some 0x0B#5 ∧ t.seqStatus = 0x01#8 ∧ literals t = [0x05#8, 0x05#8, 0x06#8, 0x01#8, 0x05#8] ∧ busItems t = 19) := by decide
theorem test_exec_hwProtectEnable :
    (let t := after (exec (.hwProtectEnable 0x0107#24 0 []) idleSmall);
     t.op = some 0x0C#5 ∧ t.seqStatus = 0x01#8 ∧ literals t = [0x05#8, 0x05#8, 0x06#8, 0x01#8, 0x05#8] ∧ busItems t = 19) := by decide
theorem test_exec_hwProtectDisable :
    (let t := after (exec (.hwProtectDisable 0x0107#24 0 []) idleSmall);
     t.op = some 0x0D#5 ∧ t.seqStatus = 0x01#8 ∧ literals t = [0x05#8, 0x05#8, 0x06#8, 0x01#8, 0x05#8] ∧ busItems t = 19) := by decide
theorem test_exec_isWip :
    (let t := after (exec (.isWip 0x0107#24 0 []) idleSmall);
     t.op = some 0x0E#5 ∧ t.seqStatus = 0x01#8 ∧ literals t = [0x05#8] ∧ busItems t = 4) := by decide
theorem test_exec_isWpen :
    (let t := after (exec (.isWpen 0x0107#24 0 []) idleSmall);
     t.op = some 0x0F#5 ∧ t.seqStatus = 0x01#8 ∧ literals t = [0x05#8] ∧ busItems t = 4) := by decide
theorem test_exec_isBp0 :
    (let t := after (exec (.isBp0 0x0107#24 0 []) idleSmall);
     t.op = some 0x10#5 ∧ t.seqStatus = 0x01#8 ∧ literals t = [0x05#8] ∧ busItems t = 4) := by decide
theorem test_exec_isBp1 :
    (let t := after (exec (.isBp1 0x0107#24 0 []) idleSmall);
     t.op = some 0x11#5 ∧ t.seqStatus = 0x01#8 ∧ literals t = [0x05#8] ∧ busItems t = 4) := by decide
theorem test_exec_eraseChip_noPolling :
    busItems (after (exec (.eraseChip 0#24 0 []) (State.resetWith { small with pollAfterIssue := false }))) = 10 := by
  decide

theorem test_refused : (after (exec (.read 0#24 5 []) idleSmall)).seqStatus = 0x0E#8 ∧
    (after (exec (.read 0#24 5 []) idleSmall)).rdata = some [] := by decide

/-! The table of 95_test_vectors.md 2.7, and the sector addresses of 2.6. -/

theorem test_protect : [0x00#8, 0xFF#8, 0x8C#8, 0x73#8].map (StatusFn.protect 0#2).apply =
      [0x00#8, 0xF3#8, 0x80#8, 0x73#8] ∧
    [0x00#8, 0xFF#8, 0x8C#8, 0x73#8].map (StatusFn.protect 1#2).apply = [0x04#8, 0xF7#8, 0x84#8, 0x77#8] ∧
    [0x00#8, 0xFF#8, 0x8C#8, 0x73#8].map (StatusFn.protect 2#2).apply = [0x08#8, 0xFB#8, 0x88#8, 0x7B#8] ∧
    [0x00#8, 0xFF#8, 0x8C#8, 0x73#8].map (StatusFn.protect 3#2).apply = [0x0C#8, 0xFF#8, 0x8C#8, 0x7F#8] := by decide

theorem test_hwProtect : [0x00#8, 0xFF#8, 0x0C#8, 0x8E#8].map StatusFn.setWpen.apply =
      [0x80#8, 0xFF#8, 0x8C#8, 0x8E#8] ∧
    [0x00#8, 0xFF#8, 0x0C#8, 0x8E#8].map StatusFn.clearWpen.apply = [0x00#8, 0x7F#8, 0x0C#8, 0x0E#8] := by decide

theorem test_sectorAddress :
    [1#24, 3#24, 511#24, 512#24].map (sectorAddress Config.initial) =
      [0x008000#24, 0x018000#24, 0xFF8000#24, 0x000000#24] ∧
    [1#24, 2#24, 3#24].map (sectorAddress { Config.initial with profile := .narrow }) =
      [0x8000#24, 0x0000#24, 0x8000#24] := by decide

theorem test_addressBytes :
    addressBytes Config.initial 0x123456#24 = [0x12#8, 0x34#8, 0x56#8] ∧
    addressBytes small 0x123456#24 = [0x34#8, 0x56#8] := by decide

/-! ### One step of each wire instruction (20_memory.md R102 to R109) -/

/-- The device with one byte stored, `ARRAY[0x3F]` = 0x77. -/
def devWith : Rdm := { dev with array := [(0x3F, 0x77#8)] }

/-- The device with its latch set. -/
def devEnabled : Rdm := { dev with wel := true }

theorem test_wireRead_answers :
    (after (step (device [0x03#8, 0x00#8, 0x3E#8, 0#8, 0#8] .byte devWith))).rdm.out = 0x77#8 := by decide
theorem test_wireRead_unwritten :
    (after (step (device [0x03#8, 0x00#8, 0x3F#8, 0#8, 0#8] .byte devWith))).rdm.out = 0x5A#8 := by decide
theorem test_wireWrite_starts :
    (after (step (device [0x02#8, 0x00#8, 0x47#8, 1#8, 2#8] .frameEnd devEnabled))).rdm.pending =
      some { effect := .write 7 [1#8, 2#8], bp := 0#2 } := by decide
theorem test_wireWrite_noData :
    (after (step (device [0x02#8, 0x00#8, 0x47#8] .frameEnd devEnabled))).rdm =
      { devEnabled with fb := [0x02#8, 0x00#8, 0x47#8] } := by decide
theorem test_wireWriteEnable : (after (step (device [0x06#8] .frameEnd dev))).rdm.wel = true := by decide
theorem test_wireWriteEnable_busy :
    (after (step (device [0x06#8] .frameEnd { dev with wip := true }))).rdm.wel = false := by decide
theorem test_wireWriteDisable : (after (step (device [0x04#8] .frameEnd devEnabled))).rdm.wel = false := by decide
theorem test_wireReadStatus_busy :
    (after (step (device [0x05#8, 0#8] .byte { devEnabled with wip := true, busyLeft := .polls 1 }))).rdm.out =
      0x03#8 := by decide
theorem test_wireReadStatus_done :
    (let d := (after (step (device [0x05#8, 0#8] .byte
        { devEnabled with wip := true, pending := some { effect := .writeStatus 0x8C#8, bp := 0#2 } }))).rdm;
     d.out = 0x8C#8 ∧ d.wip = false ∧ d.wel = false) := by decide
theorem test_wireWriteStatus_starts :
    (after (step (device [0x01#8, 0x84#8] .frameEnd devEnabled))).rdm.pending =
      some { effect := .writeStatus 0x84#8, bp := 0#2 } := by decide
theorem test_wirePageErase_starts :
    (after (step (device [0x42#8, 0x00#8, 0x0A#8] .frameEnd devEnabled))).rdm.pending =
      some { effect := .erasePage 10, bp := 0#2 } := by decide
theorem test_wirePageErase_effect :
    ((Effect.erasePage 10).apply small 0#2 dev).array.map Prod.fst = [8, 9, 10, 11, 12, 13, 14, 15] := by decide
theorem test_wireSectorErase_starts :
    (after (step (device [0xD8#8, 0x00#8, 0x20#8] .frameEnd devEnabled))).rdm.pending =
      some { effect := .eraseSector 32, bp := 0#2 } := by decide
theorem test_wireSectorErase_protected :
    ((Effect.eraseSector 48).apply small 1#2 devWith).array = [(0x3F, 0x77#8)] := by decide
theorem test_wireChipErase_starts :
    (after (step (device [0xC7#8] .frameEnd { devEnabled with bp1 := true }))).rdm.pending =
      some { effect := .eraseAll, bp := 2#2 } := by decide
theorem test_wireReleaseReadId_answers :
    (after (step (device [0xAB#8, 0#8, 0#8, 0#8, 0#8] .byte { dev with dpd := true }))).rdm.out = 0x29#8 := by decide
theorem test_wireReleaseReadId_wakes :
    (after (step (device [0xAB#8] .frameEnd { dev with dpd := true }))).rdm.dpd = false := by decide
theorem test_wireDeepPowerDown : (after (step (device [0xB9#8] .frameEnd dev))).rdm.dpd = true := by decide
theorem test_wirePage_wraps :
    ((Effect.write 7 [1#8, 2#8]).apply small 0#2 dev).array = [(0, 2#8), (7, 1#8)] := by decide

/-! ### The table words as the host places them -/

theorem test_tableWord_host : decodeTableWord 8 0x0E = some (.isWip 0#24 0 []) ∧
    (after (step (State.reset.withFetchWord 8 0x0E))).op = some 0x0E#5 := by decide
theorem test_tableWord_wire : decodeTableWord 8 0xD8 = some (.wireSectorErase [0#8, 0#8, 0#8]) ∧
    step (State.reset.withFetchWord 8 0xD8) =
      exec (.wireSectorErase [0#8, 0#8, 0#8]) (State.reset.withFetchWord 8 0xD8) := by
  exact ⟨by decide, rfl⟩

/-! ### Witnesses: for each statement with hypotheses, states and operands that meet them together -/

theorem test_witness_EncodeOfDecodedIsTheEncoding :
    decode (.host 0x00100001#32 3 [0xAA#8, 0xBB#8, 0xCC#8]) = .ok (.write 0x001000#24 3 [0xAA#8, 0xBB#8, 0xCC#8]) ∧
    decode (.frame [0xB9#8]) = .ok (.wireDeepPowerDown []) := by decide

theorem test_witness_CommandSelectedByLowByte :
    decodeHost 0x12345611#32 0 [] = .ok (.isBp1 0x123456#24 0 []) ∧
    decodeHost 0x12345601#32 0 [] = .ok (.write 0x123456#24 0 []) ∧
    (0xFFFFFF01#32).extractLsb' 0 8 = (0x12345601#32).extractLsb' 0 8 := by decide

/-- The state `idleSmall` with host acts waiting. -/
def waiting (l : List HostAct) : State := { idleSmall with env := { idleSmall.env with acts := l } }

theorem test_witness_StepRunsTheAcceptedCommand :
    (waiting [.accept 0x0000000E#32 0 []]).rdm.event = none ∧ (waiting [.accept 0x0000000E#32 0 []]).seq = .idle ∧
    (waiting [.accept 0x0000000E#32 0 []]).env.acts = .accept 0x0000000E#32 0 [] :: [] ∧
    decodeHost 0x0000000E#32 0 [] = .ok (.isWip 0#24 0 []) := by decide

theorem test_witness_StepRunsTheWireInstruction :
    (device [0x06#8] .frameEnd dev).rdm.event ≠ none ∧
    decodeFrame (device [0x06#8] .frameEnd dev).rdm.fb = .ok (.wireWriteEnable []) := by decide

theorem test_witness_LegalCommandIsAccepted :
    decodeHost 0x00000101#32 4 [1#8, 2#8, 3#8, 4#8] = .ok (.write 1#24 4 [1#8, 2#8, 3#8, 4#8]) ∧
    idleSmall.seq = .idle ∧ ¬ illegal idleSmall.cfg 0x00000101#32 4 [1#8, 2#8, 3#8, 4#8] ∧
    decodeHost 0x00000111#32 99 [] = .ok (.isBp1 1#24 99 []) ∧ ¬ illegal idleSmall.cfg 0x00000111#32 99 [] := by
  unfold illegal; decide

/-- Each of the four conditions, at its boundary: `RSV` = 1, `OP` = 0 and 0x12, `L` = `MAX_LEN` + 1, `D` of another length. -/
theorem test_witness_IllegalCommandIsRefused :
    (∀ c ∈ [(0x00000021#32, 0, []), (0x00000000#32, 0, []), (0x00000012#32, 0, []), (0x00000002#32, 5, []),
            (0x00000001#32, 5, [1#8, 2#8, 3#8, 4#8, 5#8]), (0x00000001#32, 1, [])],
      (waiting [.accept c.1 c.2.1 c.2.2]).rdm.event = none ∧ (waiting [.accept c.1 c.2.1 c.2.2]).seq = .idle ∧
      (waiting [.accept c.1 c.2.1 c.2.2]).env.acts = .accept c.1 c.2.1 c.2.2 :: [] ∧
      illegal (waiting [.accept c.1 c.2.1 c.2.2]).cfg c.1 c.2.1 c.2.2) := by
  unfold illegal; decide

/-- A state whose command has `code` to run, the local `st`, the trace `tr`. -/
def running (cfg : Config) (csN : Bool) (code : List Micro) (st : Option Byte) (tr : List Event) : State :=
  { State.resetWith cfg with
    csN := csN, seq := .run, upc := some { code := code, s := st },
    addr := some 0x12#24, wdata := some [0xEE#8], rdata := some [none], trace := tr }

theorem test_witness_HostHoldsWhileBusy :
    (∃ t, step { running bare true enableWrite none [] with
          env := { (waiting []).env with acts := [.accept 0x0000000E#32 0 []] } } = .next t) ∧
    decodeHost 0x0000000E#32 0 [] = .ok (.isWip 0#24 0 []) ∧ (running bare true enableWrite none []).seq = .run :=
  ⟨⟨_, rfl⟩, by decide, rfl⟩

/-- What is known where nothing is. -/
def nothingKnown : Known :=
  { csHigh := true, view := { first := false, opcode := none }, wphase := .idle, status := false, fresh := false,
    settled := false, val := false, dataLen := 0 }

/-- The last computation of IS_WPEN, its frame closed. -/
def ending : State := running bare true [.compute (.takeBit 7)] (some 0x81#8) []

theorem test_witness_EndOfPseudocodeCompletes :
    SequencerSound ending ∧ ResponseSound ending ∧ ending.rdm.event = none ∧ ending.env.acts = [] ∧ ending.seq = .run ∧
    ending.upc = some { code := [.compute (.takeBit 7)], s := some 0x81#8 } ∧
    nextAction [.compute (.takeBit 7)] ending = .ok ({ ending with rbit := true }, .complete) := by
  refine ⟨⟨by decide, fun _ => ⟨_, { nothingKnown with status := true }, rfl, ?_, rfl⟩⟩,
    ⟨by decide, by decide, by decide⟩, rfl, rfl, rfl, rfl, rfl⟩
  exact ⟨rfl, rfl, rfl, by decide, by decide, by decide, by decide, rfl, ⟨_, rfl, by decide⟩, ⟨_, rfl⟩⟩

/-- A machine after reset, its next answers `l`, is ready. -/
theorem ready_idleBare (cfg : Config) (l : List Byte) (h : cfg.rdmAttached = false) : Ready (idleBare cfg l) l [] :=
  ⟨rfl, rfl, rfl, rfl, h, (List.append_nil _).symm⟩

theorem test_witness_StatusQueriesComplete : Ready (idleBare bare [0x11#8, 0x8D#8]) [0x11#8, 0x8D#8] [] :=
  ready_idleBare _ _ rfl

/-- `LEN` = `MAX_LEN`, and `LEN` = 0. -/
theorem test_witness_ReadCompletes :
    (Ready (idleBare bare [0#8, 0#8, 0#8, 1#8, 2#8, 3#8, 4#8]) ([0#8, 0#8, 0#8] ++ [1#8, 2#8, 3#8, 4#8]) [] ∧
      4 ≤ bare.maxLen ∧ [0#8, 0#8, 0#8].length = 1 + bare.na ∧ [1#8, 2#8, 3#8, 4#8].length = 4) ∧
    (Ready (idleBare wide [0#8, 0#8, 0#8, 0#8]) ([0#8, 0#8, 0#8, 0#8] ++ []) [] ∧
      0 ≤ wide.maxLen ∧ [0#8, 0#8, 0#8, 0#8].length = 1 + wide.na ∧ ([] : List Byte).length = 0) :=
  ⟨⟨ready_idleBare _ _ rfl, by decide⟩, ⟨ready_idleBare _ _ rfl, by decide⟩⟩

theorem test_witness_ReadIdCompletes :
    Ready (idleBare wide [0#8, 0#8, 0#8, 0#8, 0x29#8]) [0#8, 0#8, 0#8, 0#8, 0x29#8] [] := ready_idleBare _ _ rfl

theorem test_witness_PowerCommandsComplete : Ready (idleBare wide [0#8]) [0#8] [] := ready_idleBare _ _ rfl

/-- One busy poll before, two after; `LEN` = `MAX_LEN`; a poll limit of three. -/
theorem test_witness_WriteCompletes :
    Ready (idleBare { bare with pollLimit := some 3 }
        [9#8, 1#8, 9#8, 0#8, 9#8, 0#8, 0#8, 0#8, 0#8, 0#8, 0#8, 0#8, 9#8, 3#8, 9#8, 3#8, 9#8, 0#8])
      (awaitAnswers [(9#8, 1#8)] (9#8, 0#8) ++ [9#8] ++ [0#8, 0#8, 0#8, 0#8, 0#8, 0#8, 0#8]
        ++ awaitAnswers [(9#8, 3#8), (9#8, 3#8)] (9#8, 0#8)) [] ∧
    awaitExits { bare with pollLimit := some 3 } [(9#8, 1#8)] (9#8, 0#8) ∧
    awaitExits { bare with pollLimit := some 3 } [(9#8, 3#8), (9#8, 3#8)] (9#8, 0#8) ∧
    4 ≤ bare.maxLen ∧ [1#8, 2#8, 3#8, 4#8].length = 4 ∧ [0#8, 0#8, 0#8, 0#8, 0#8, 0#8, 0#8].length = 1 + bare.na + 4 := by
  refine ⟨ready_idleBare _ _ rfl, ⟨by simp, by decide, ?_⟩, ⟨by simp, by decide, ?_⟩, by decide⟩ <;>
    (intro k hk; cases hk; decide)

theorem test_witness_ErasesCompletePolling :
    (Ready (idleBare bare [9#8, 0#8, 9#8, 7#8, 9#8, 0#8])
        (awaitAnswers [] (9#8, 0#8) ++ [9#8] ++ [7#8] ++ awaitAnswers [] (9#8, 0#8)) [] ∧ [7#8].length = 1) ∧
    (Ready (idleBare bare [9#8, 0#8, 9#8, 7#8, 7#8, 7#8, 9#8, 0#8])
        (awaitAnswers [] (9#8, 0#8) ++ [9#8] ++ [7#8, 7#8, 7#8] ++ awaitAnswers [] (9#8, 0#8)) [] ∧
      [7#8, 7#8, 7#8].length = 1 + bare.na) ∧
    awaitExits bare [] (9#8, 0#8) ∧ bare.pollAfterIssue = true := by
  refine ⟨⟨ready_idleBare _ _ rfl, rfl⟩, ⟨ready_idleBare _ _ rfl, rfl⟩, ⟨by simp, by decide, ?_⟩, rfl⟩
  intro k hk; cases hk

/-- The block without polling after issue. -/
def unpolled : Config := { bare with pollAfterIssue := false }

theorem test_witness_ErasesCompleteWithoutPolling :
    (Ready (idleBare unpolled [9#8, 0#8, 9#8, 7#8]) (awaitAnswers [] (9#8, 0#8) ++ [9#8] ++ [7#8]) [] ∧
      [7#8].length = 1) ∧
    (Ready (idleBare unpolled [9#8, 0#8, 9#8, 7#8, 7#8, 7#8])
        (awaitAnswers [] (9#8, 0#8) ++ [9#8] ++ [7#8, 7#8, 7#8]) [] ∧ [7#8, 7#8, 7#8].length = 1 + unpolled.na) ∧
    awaitExits unpolled [] (9#8, 0#8) ∧ unpolled.pollAfterIssue = false := by
  refine ⟨⟨ready_idleBare _ _ rfl, rfl⟩, ⟨ready_idleBare _ _ rfl, rfl⟩, ⟨by simp, by decide, ?_⟩, rfl⟩
  intro k hk; cases hk

theorem test_witness_ProtectionCommandsCompletePolling :
    Ready (idleBare bare [9#8, 0x8C#8, 9#8, 1#8, 9#8, 0#8, 9#8, 7#8, 7#8, 9#8, 0#8])
      ([9#8, 0x8C#8] ++ awaitAnswers [(9#8, 1#8)] (9#8, 0#8) ++ [9#8, 7#8, 7#8] ++ awaitAnswers [] (9#8, 0#8)) [] ∧
    awaitExits bare [(9#8, 1#8)] (9#8, 0#8) ∧ awaitExits bare [] (9#8, 0#8) ∧ bare.pollAfterIssue = true := by
  refine ⟨ready_idleBare _ _ rfl, ⟨by simp, by decide, ?_⟩, ⟨by simp, by decide, ?_⟩, rfl⟩ <;>
    (intro k hk; cases hk)

theorem test_witness_ProtectionCommandsCompleteWithoutPolling :
    Ready (idleBare unpolled [9#8, 0x8C#8, 9#8, 1#8, 9#8, 0#8, 9#8, 7#8, 7#8])
      ([9#8, 0x8C#8] ++ awaitAnswers [(9#8, 1#8)] (9#8, 0#8) ++ [9#8, 7#8, 7#8]) [] ∧
    awaitExits unpolled [(9#8, 1#8)] (9#8, 0#8) ∧ unpolled.pollAfterIssue = false := by
  refine ⟨ready_idleBare _ _ rfl, ⟨by simp, by decide, ?_⟩, rfl⟩
  intro k hk; cases hk

/-- `running` over a transport with the answers `l`. -/
def runningOver (cfg : Config) (csN : Bool) (code : List Micro) (st : Option Byte) (l : List Answer) : State :=
  { running cfg csN code st [] with env := { (State.resetWith cfg).env with answers := l } }

theorem test_witness_AwaitOfBusyDeviceNeverEnds :
    RunsOver (runningOver bare true (awaitLoop ++ enableWrite) none [.byte 9#8, .byte 1#8, .byte 9#8, .byte 0xFF#8])
      (awaitLoop ++ enableWrite) ([(9#8, 1#8), (9#8, 0xFF#8)].flatMap fun p => [.byte p.1, .byte p.2]) [] ∧
    (runningOver bare true [] none []).csN = true ∧ bare.pollLimit = none ∧
    ∀ p ∈ [(9#8, 1#8), (9#8, 0xFF#8)], (p.2 : Byte).getLsbD 0 = true :=
  ⟨⟨rfl, ⟨_, rfl, rfl⟩, rfl, rfl, rfl, rfl⟩, rfl, rfl, by simp⟩

/-- One for each clause: the limit just reached and just not, a settled byte before the enable frame of a leading await,
before a `WAIT` and at the end. -/
theorem test_witness_AwaitTestDecides :
    (∀ c ∈ [(some 1, 1#8, []), (some 2, 1#8, []), (none, 0#8, enableWrite), (none, 0#8, [Micro.bus (.wait .tRes)]),
            (none, 0xFE#8, [])],
      RunsOver (runningOver { bare with pollLimit := c.1 } true (.compute .pollTest :: c.2.2) (some c.2.1) [])
        (.compute .pollTest :: c.2.2) [] [] ∧
      (runningOver { bare with pollLimit := c.1 } true (.compute .pollTest :: c.2.2) (some c.2.1) []).csN = true ∧
      ∃ u, (runningOver { bare with pollLimit := c.1 } true (.compute .pollTest :: c.2.2) (some c.2.1) []).upc = some u ∧
        u.s = some c.2.1) ∧
    (1#8).getLsbD 0 = true ∧ (0#8).getLsbD 0 = false ∧ (0xFE#8).getLsbD 0 = false ∧
    ∃ r, enableWrite = .bus .csAssert :: r := by
  refine ⟨fun c _ => ⟨⟨rfl, ⟨_, rfl, rfl⟩, rfl, rfl, rfl, rfl⟩, rfl, _, rfl, rfl⟩, by decide, by decide, by decide, _, rfl⟩

theorem test_witness_TransportErrorAborts :
    RunsOver (runningOver bare false [sendLit 0x06#8] none [.err]) (.bus (.send (.lit 0x06#8)) :: []) [.err] [] ∧
    (runningOver bare false [sendLit 0x06#8] none [.err]).source (.lit 0x06#8) = .ok 0x06#8 ∧
    RunsOver (runningOver bare false [.bus (.recvData 1)] none [.err]) (.bus (.recvData 1) :: []) [.err] [] ∧
    (0x00#8 : Byte) = bare.filler :=
  ⟨⟨rfl, ⟨_, rfl, rfl⟩, rfl, rfl, rfl, rfl⟩, rfl, ⟨rfl, ⟨_, rfl, rfl⟩, rfl, rfl, rfl, rfl⟩, rfl⟩

theorem test_witness_StatusFunctionsChangeOnlyTheirBits : (2 : Nat) < 8 ∧ 3 < 8 ∧ 7 < 8 ∧ 0 < 8 := by decide

theorem test_witness_AddressFraming : (running wide true [] none []).addr = some 0x12#24 := rfl

/-- Each clause: the four registers, and the four reads that fault, the first index past the list among them. -/
theorem test_witness_HostReadsDeliverOrFault :
    (∀ r ∈ [HostReg.seqStatus, .csN, .srLast, .rdataAt 0],
      (waiting [.read r]).rdm.event = none ∧ (waiting [.read r]).env.acts = .read r :: []) ∧
    (waiting [.read .seqStatus]).hostRead .seqStatus = .ok (.byte 0#8) ∧
    { waiting [.read .srLast] with srLast := some 3#8 }.srLast = some 3#8 ∧ (waiting [.read .srLast]).srLast = none ∧
    { waiting [.read (.rdataAt 0)] with rdata := some [some 3#8] }.rdata = some [some 3#8] ∧
    { waiting [.read (.rdataAt 0)] with rdata := some [none] }.rdata = some [none] ∧
    { waiting [.read (.rdataAt 1)] with rdata := some [none] }.rdata = some [none] ∧ ([none] : List (Option Byte))[1]? = none ∧
    (waiting [.read (.rdataAt 0)]).rdata = none := by decide

theorem test_witness_ResetAbandonsTheCommand :
    { running small false [sendLit 0x03#8] none [.csl] with env := (waiting [.reset]).env }.rdm.event = none ∧
    { running small false [sendLit 0x03#8] none [.csl] with env := (waiting [.reset]).env }.env.acts = .reset :: [] ∧
    (waiting [.reset]).rdm.event = none ∧ (waiting [.reset]).env.acts = .reset :: [] := by decide

theorem frameArrived_device (fb : List Byte) (d : Rdm) (h : d.wip = false) (k : d.dpd = false) :
    FrameArrived (device fb .frameEnd d) := ⟨rfl, h, k⟩

theorem test_witness_EnableAndDisableMoveTheLatch : FrameArrived (device [0x06#8] .frameEnd dev) :=
  frameArrived_device _ _ rfl rfl

theorem test_witness_PowerDownAndRelease :
    FrameArrived (device [0xB9#8] .frameEnd dev) ∧ (device [0xAB#8] .frameEnd { dev with dpd := true }).rdm.event =
      some .frameEnd := ⟨frameArrived_device _ _ rfl rfl, rfl⟩

/-- The shortest frame of each of the five. -/
theorem test_witness_WriteClassFramesStartACycle :
    FrameArrived (device [0x02#8, 0#8, 1#8, 2#8] .frameEnd devEnabled) ∧
    (device [0x02#8, 0#8, 1#8, 2#8] .frameEnd devEnabled).rdm.wel = true ∧
    (device [0x02#8, 0#8, 1#8, 2#8] .frameEnd devEnabled).env.busyDraws = .polls 2 :: [] ∧
    small.na + 1 ≤ [0#8, 1#8, 2#8].length ∧ 1 ≤ [0x84#8].length ∧ small.na ≤ [0#8, 1#8].length ∧
    0 ≤ ([] : List Byte).length := ⟨frameArrived_device _ _ rfl rfl, by decide⟩

/-- The latch clear; and frames one byte short. -/
theorem test_witness_WriteClassFramesNeedTheLatch :
    FrameArrived (device [0xC7#8] .frameEnd dev) ∧ (device [0xC7#8] .frameEnd dev).rdm.wel = false ∧
    FrameArrived (device [0x02#8, 0#8, 1#8] .frameEnd devEnabled) ∧ [0#8, 1#8].length < small.na + 1 ∧
    [0#8].length < small.na ∧ ([] : List Byte).length < 1 :=
  ⟨frameArrived_device _ _ rfl rfl, rfl, frameArrived_device _ _ rfl rfl, by decide⟩

theorem test_witness_FrameEndsThatDoNothing :
    (device [0x03#8] .frameEnd dev).rdm.event = some .frameEnd ∧
    decodeFrame [0x06#8] = .ok (.wireWriteEnable []) ∧
    (device [0x06#8] .frameEnd { dev with wip := true }).rdm.dpd = false ∧
    (device [0x06#8] .frameEnd { dev with wip := true }).rdm.wip = true ∧
    (device [0x06#8] .frameEnd { dev with dpd := true }).rdm.dpd = true ∧ ∀ l, [0x06#8] ≠ 0xAB#8 :: l :=
  ⟨rfl, rfl, rfl, rfl, rfl, fun _ h => by cases h⟩

/-- Data byte 1 at the top of the array holds a byte; byte 2, at its wrap, holds none. -/
theorem test_witness_ReadAnswersTheArray :
    (let s := device [0x03#8, 0#8, 0x3E#8, 0#8, 0#8] .byte devWith;
     s.rdm.event = some .byte ∧ s.rdm.dpd = false ∧ s.rdm.wip = false ∧
     [0#8, 0x3E#8, 0#8, 0#8].length = s.cfg.na + 1 + 1 ∧
     s.rdm.array.read ((frameAddress s.cfg [0#8, 0x3E#8, 0#8, 0#8] + 1) % s.cfg.deviceSize) = some 0x77#8 ∧
     [0#8, 0x3E#8, 0#8, 0#8, 0#8].length = s.cfg.na + 1 + 2 ∧
     s.rdm.array.read ((frameAddress s.cfg [0#8, 0x3E#8, 0#8, 0#8, 0#8] + 2) % s.cfg.deviceSize) = none ∧
     s.env.byteDraws = 0x5A#8 :: []) := by decide

/-- Not busy; busy with polls left; busy for ever; at the poll that ends the cycle. -/
theorem test_witness_ReadStatusAnswersAndCounts :
    (∀ d ∈ [dev, { devEnabled with wip := true, busyLeft := .polls 1 }, { devEnabled with wip := true, busyLeft := .forever },
            { devEnabled with wip := true, busyLeft := .polls 0, pending := some { effect := .eraseAll, bp := 0#2 } }],
      (device [0x05#8, 0#8] .byte d).rdm.event = some .byte ∧ (device [0x05#8, 0#8] .byte d).rdm.dpd = false) ∧
    [0#8] ≠ [] := by decide

theorem test_witness_ReadIdAnswersTheId :
    (device [0xAB#8, 0#8, 0#8, 0#8, 0#8] .byte { dev with dpd := true }).rdm.event = some .byte ∧
    (device [0xAB#8, 0#8, 0#8, 0#8, 0#8] .byte { dev with dpd := true }).rdm.wip = false ∧
    4 ≤ [0#8, 0#8, 0#8, 0#8].length := by decide

/-- The opcode byte; a byte while powered down; a byte of an opcode that answers nothing; READ's last address byte, and its
first data byte while busy; the last dummy of 0xAB, and its first ID byte while busy; the first and a later byte of an opcode
that is none of the set. -/
theorem test_witness_OtherBytesAnswerADraw :
    (device [0x05#8] .byte dev).rdm.event = some .byte ∧ decodeFrame [0x05#8] = .ok (.wireReadStatus []) ∧
    (device [0x05#8] .byte dev).env.byteDraws = 0x5A#8 :: [] ∧ [0x05#8].length = 1 ∧
    ((device [0x05#8, 0#8] .byte { dev with dpd := true }).rdm.dpd = true ∧ ∀ r, [0x05#8, 0#8] ≠ 0xAB#8 :: r) ∧
    (∀ r, [0x02#8, 0#8] ≠ 0x05#8 :: r ∧ [0x02#8, 0#8] ≠ 0x03#8 :: r ∧ [0x02#8, 0#8] ≠ 0xAB#8 :: r) ∧
    [0#8, 0#8].length ≤ (device [0x03#8, 0#8, 0#8] .byte dev).cfg.na ∧
    (device [0x03#8, 0#8, 0#8, 0#8] .byte { dev with wip := true }).rdm.wip = true ∧
    [0#8, 0#8, 0#8].length ≤ 3 ∧
    (device [0xAB#8, 0#8, 0#8, 0#8, 0#8] .byte { dev with wip := true }).rdm.wip = true ∧
    ∀ f ∈ [[0x9F#8], [0x9F#8, 0#8]], ∃ op tail, (device f .byte dev).rdm.fb = op :: tail ∧
      op ∉ [0x03#8, 0x02#8, 0x06#8, 0x04#8, 0x05#8, 0x01#8, 0x42#8, 0xD8#8, 0xC7#8, 0xAB#8, 0xB9#8] := by
  refine ⟨rfl, rfl, rfl, rfl, ⟨rfl, fun _ h => by cases h⟩, fun _ => ⟨?_, ?_, ?_⟩, by decide, rfl, by decide, rfl, ?_⟩
  iterate 3 (intro h; cases h)
  intro f hf
  simp only [List.mem_cons, List.not_mem_nil, or_false] at hf
  rcases hf with rfl | rfl <;> exact ⟨_, _, rfl, by decide⟩

/-- Nine bytes to a page of eight, under level 01: byte 8 comes to the address of byte 0 and is the last there; 16 is an
address of no byte, 48 a protected one. -/
theorem test_witness_PageWriteStoresTheBytes :
    (let data := [0#8, 1#8, 2#8, 3#8, 4#8, 5#8, 6#8, 7#8, 8#8];
     small.wf = true ∧ 7 < small.deviceSize ∧ data[8]? = some 8#8 ∧
     protectedAt small 1#2 (pageAddress small 7 8) = false ∧ pageAddress small 7 8 = pageAddress small 7 0 ∧
     data.length = 9 ∧ (∀ i, i < data.length → 16 ≠ pageAddress small 7 i) ∧ protectedAt small 1#2 48 = true) := by decide

theorem test_witness_ProtectedRanges : ∃ d : Rdm, d.pending = some { effect := .eraseAll, bp := 2#2 } :=
  ⟨{ dev with pending := some { effect := .eraseAll, bp := 2#2 } }, rfl⟩

theorem test_witness_SectorAddressWraps : small.aw ≤ 16 := by decide

/-- A status poll that ends a page erase. -/
def poll : State :=
  { running small false [.bus .recvStatus, .compute .keepStatus, deassertCs none] none [.csl, .xfer 0x05#8 (.byte 0#8)] with
    rdm := { devWith with wel := true, wip := true, fb := [0x05#8],
                          pending := some { effect := .erasePage 0x38, bp := 0#2 } } }

theorem test_witness_ArrayChangesOnlyByAWriteCycle :
    ∃ t, step poll = .next t ∧ t.rdm.array.read 0x3F ≠ poll.rdm.array.read 0x3F := ⟨_, rfl, by decide⟩

theorem test_witness_MemoryStaysSound : MemorySound poll ∧ ∃ t, step poll = .next t :=
  ⟨⟨by decide, by decide⟩, _, rfl⟩

theorem test_witness_ResponseStaysSound : ResponseSound poll ∧ ∃ t, step poll = .next t :=
  ⟨⟨by decide, by decide, by decide⟩, _, rfl⟩

theorem test_witness_DeviceStaysSound : DeviceSound poll ∧ ∃ t, step poll = .next t :=
  ⟨⟨by decide, by decide, by decide, by decide, by decide⟩, _, rfl⟩

theorem sound_poll : SequencerSound poll :=
  ⟨by decide, fun _ => ⟨_, { nothingKnown with csHigh := false, view := { first := false, opcode := some 0x05#8 } }, rfl,
    ⟨rfl, rfl, rfl, by decide, by decide, by decide, by decide, rfl, ⟨_, rfl, by decide⟩, ⟨_, rfl⟩⟩, rfl⟩⟩

theorem test_witness_SequencerStaysSound : SequencerSound poll ∧ ∃ t, step poll = .next t := ⟨sound_poll, _, rfl⟩

/-- The fault the statement allows happens. -/
theorem test_witness_OnlyHostReadsStopTheMachine :
    SequencerSound (waiting [.read .srLast]) ∧ step (waiting [.read .srLast]) = .fault (.noValue .srLast) :=
  ⟨⟨fun _ => rfl, fun h => by cases h⟩, rfl⟩

/-- A state that is about to send the WRITE opcode. -/
def writing : State :=
  { running bare false [sendLit 0x02#8, deassertCs (some .writing)] (some 0#8) [.csl] with
    wphase := .writeEnabled, srLast := some 0#8,
    env := { (State.resetWith bare).env with answers := [.byte 7#8] } }

theorem test_witness_WriteClassOpcodesAreEnabledAndSettled :
    SequencerSound writing ∧ writeClass 0x02#8 = true ∧ (frameView writing.trace).first = true ∧
    ∃ t, step writing = .next t ∧ t.trace = writing.trace ++ [.xfer 0x02#8 (.byte 7#8)] := by
  refine ⟨⟨by decide, fun _ => ⟨_, { nothingKnown with
    csHigh := false, view := { first := true, opcode := none }, wphase := .writeEnabled, settled := true }, rfl,
    ⟨rfl, rfl, rfl, by decide, by decide, fun _ => ⟨0#8, rfl, rfl⟩, by decide, rfl, ⟨_, rfl, by decide⟩, ⟨_, rfl⟩⟩, rfl⟩⟩,
    rfl, rfl, _, rfl, rfl⟩

/-- A state at the `CSH` of the enable frame. -/
def enabling : State :=
  running bare false [deassertCs (some .writeEnabled)] none [.csl, .xfer 0x06#8 (.byte 0#8)]

/-- A leading await at its test, the status byte settled; the device was last known to be writing. -/
def settling : State :=
  { running bare true (.compute .pollTest :: enableWrite) (some 0xFE#8)
      [.csl, .xfer 0x05#8 (.byte 0#8), .xfer 0#8 (.byte 0xFE#8), .csh] with
    wphase := .writing, srLast := some 0xFE#8 }

/-- The `CSH` that moves `WPHASE`, and the await that does. -/
theorem test_witness_WphaseMovesOnlyAsListed :
    (SequencerSound enabling ∧ (frameView enabling.trace).opcode = some 0x06#8 ∧ enabling.seq = .run ∧
      ∃ t, step enabling = .next t ∧ t.trace = enabling.trace ++ [.csh] ∧ t.seq = .run ∧ t.wphase = .writeEnabled) ∧
    SequencerSound settling ∧ settling.wphase = .writing ∧ ∃ t, step settling = .next t ∧ t.wphase = .idle := by
  refine ⟨⟨⟨by decide, fun _ => ⟨_, { nothingKnown with
    csHigh := false, view := { first := false, opcode := some 0x06#8 } }, rfl,
    ⟨rfl, rfl, rfl, by decide, by decide, by decide, by decide, rfl, ⟨_, rfl, by decide⟩, ⟨_, rfl⟩⟩, rfl⟩⟩,
    rfl, rfl, _, rfl, rfl, rfl, rfl⟩, ⟨by decide, fun _ => ⟨_, { nothingKnown with
    view := { first := false, opcode := some 0x05#8 }, wphase := .writing, status := true, fresh := true }, rfl,
    ⟨rfl, rfl, rfl, by decide, fun _ => rfl, by decide, by decide, rfl, ⟨_, rfl, by decide⟩, ⟨_, rfl⟩⟩, rfl⟩⟩,
    rfl, _, rfl, rfl⟩

theorem test_witness_ConfigurationNeverChanges : ∃ t, step poll = .next t := ⟨_, rfl⟩

theorem test_witness_AtMostOneBusEventPerStep : ∃ t, step enabling = .next t ∧ t.trace = enabling.trace ++ [.csh] :=
  ⟨_, rfl, rfl⟩

theorem test_witness_SrLastWrittenByStatusReadsOnly :
    ∃ t, step (running bare false [.compute .keepStatus, deassertCs none] (some 0x81#8) [.csl]) = .next t ∧
      t.srLast ≠ (running bare false [.compute .keepStatus, deassertCs none] (some 0x81#8) [.csl]).srLast :=
  ⟨_, rfl, by decide⟩

/-- The small device, level 01, the highest address below the protected range. -/
def roundTrip : State :=
  { idleSmall with
    rdm := { devWith with bp0 := true },
    env := { idleSmall.env with
             busyDraws := [.polls 3],
             acts := [.accept (hostWord 0x01#5 47#24) 1 [0x5A#8], .accept (hostWord 0x02#5 47#24) 1 []] } }

theorem test_witness_WriteThenReadReturnsTheByte :
    roundTrip.cfg.wf = true ∧ roundTrip.cfg.rdmAttached = true ∧ roundTrip.cfg.pollLimit = none ∧
    (47#24).toNat < roundTrip.cfg.deviceSize ∧ roundTrip.seq = .idle ∧ roundTrip.csN = true ∧
    roundTrip.rdm.event = none ∧ roundTrip.rdm.wip = false ∧ roundTrip.rdm.dpd = false ∧
    roundTrip.rdm.pending = none ∧ protectedAt roundTrip.cfg roundTrip.rdm.bp (47#24).toNat = false ∧
    roundTrip.env.busyDraws = .polls 3 :: [] ∧
    roundTrip.env.acts =
      [.accept (hostWord 0x01#5 47#24) 1 [0x5A#8], .accept (hostWord 0x02#5 47#24) 1 []] := by decide

end Sys2Proof.Tests
end

/-! Host reads (10_state.md R41, R44), and that a sound machine stops at no other step (00_scope.md R18). -/

namespace Sys2Proof.Safety

open Sys2Proof.Machine

/-! ### What a host read finds -/

@[simp] theorem valueOf_some {α : Type} (r : RegName) (v : α) : valueOf r (some v) = .ok v := rfl

@[simp] theorem valueOf_none {α : Type} (r : RegName) : valueOf r (none : Option α) = .error (.noValue r) := rfl

theorem hostRead_srLast (s : State) : s.hostRead .srLast = (valueOf .srLast s.srLast).map .byte := rfl

/-- `RDATA` without a list, an index past its end and an element that is ⊥ are one case: no value is there (log 5). -/
theorem hostRead_rdataAt (s : State) (k : Nat) :
    s.hostRead (.rdataAt k) = (valueOf .rdata (s.rdata.bind fun l => l[k]?.join)).map .byte := by
  cases h : s.rdata <;> simp [State.hostRead, h, Except.bind, Except.map]

/-! ### The step of a host read -/

section
variable {s : State} {r : HostReg} {rest : List HostAct}

/-- The turn is the host's when the device owes no reaction and an act is waiting. -/
theorem step_eq_hostTurn {act : HostAct} (he : s.rdm.event = none) (ha : s.env.acts = act :: rest) :
    step s = hostTurn exec act rest s := by
  simp [step, turn, he, ha]

theorem hostTurn_read_of_ok {v : HostValue} (h : s.hostRead r = .ok v) :
    hostTurn exec (.read r) rest s = .next ((s.setActs rest).deliver v) := by
  simp [hostTurn, h]

theorem hostTurn_read_of_error {f : Fault} (h : s.hostRead r = .error f) :
    hostTurn exec (.read r) rest s = .fault f := by
  simp [hostTurn, h]

end

/-- Settles O28: a read's step is decided by `hostRead`, and `hostRead` by the register's value. -/
theorem hostReadsDeliverOrFault : Obligations.HostReadsDeliverOrFault := by
  intro s r rest he ha
  have faults : ∀ f, s.hostRead r = .error f → step s = .fault f := fun f h =>
    (step_eq_hostTurn he ha).trans (hostTurn_read_of_error h)
  refine ⟨fun v h => (step_eq_hostTurn he ha).trans (hostTurn_read_of_ok h), ?_, ?_, ?_, ?_, ?_, ?_, ?_, ?_⟩
  · rintro rfl; rfl
  · rintro rfl; rfl
  · rintro v rfl h; simp [hostRead_srLast, h, Except.map]
  · rintro rfl h; exact faults _ (by simp [hostRead_srLast, h, Except.map])
  · rintro k l v rfl hl h; simp [hostRead_rdataAt, hl, h, Except.map]
  · rintro k l rfl hl h; exact faults _ (by simp [hostRead_rdataAt, hl, h, Except.map])
  · rintro k l rfl hl h; exact faults _ (by simp [hostRead_rdataAt, hl, h, Except.map])
  · rintro k rfl h; exact faults _ (by simp [hostRead_rdataAt, h, Except.map])

/-! ### Where a sound machine stops -/

/-- The sequencer's turn never stops a sound machine, whatever acts the host has left (10_state.md R40). -/
theorem sequencerTurn_next {s : State} (hs : SequencerSound s) (l : List HostAct) :
    ∃ t, sequencerTurn exec (s.setActs l) = .next t := by
  cases hr : s.seq with
  | idle => exact ⟨s.setActs l, by simp only [sequencerTurn, State.setActs_seq, hr]⟩
  | run =>
    obtain ⟨u, x, a, k, hu, -, hc, hd, hf, -, hx⟩ := seqStep_sound s l hs hr
    have hxu : x.upc = some u := by rw [hc]; exact hu
    have hxr : x.seq = .run := by rw [hc]; exact hr
    obtain ⟨t, ht, -⟩ := perform_sound k x u a hd hxu hxr hf
    exact ⟨t, by simp only [sequencerTurn, State.setActs_seq, hr, hx, ht]⟩

/-- A host act on a sound machine ends in a next state, unless it is a read that finds no value. -/
theorem hostTurn_next_or_read {s : State} (hs : SequencerSound s) (act : HostAct) (rest : List HostAct) :
    (∃ t, hostTurn exec act rest s = .next t) ∨
      ∃ r f, act = .read r ∧ s.hostRead r = .error f ∧ hostTurn exec act rest s = .fault f := by
  have held : ∃ t, sequencerTurn exec s = .next t := sequencerTurn_next hs s.env.acts
  cases act with
  | read r =>
    cases h : s.hostRead r with
    | ok v => exact .inl ⟨_, hostTurn_read_of_ok h⟩
    | error f => exact .inr ⟨r, f, rfl, h, hostTurn_read_of_error h⟩
  | accept w n d =>
    left
    cases hq : s.seq with
    | idle =>
      obtain ⟨w', legal, r, c, ht⟩ := acceptWord_next w n d (s.setActs rest)
      exact ⟨accept w' n d legal r c (s.setActs rest), by simp only [hostTurn, hq, ht]⟩
    | run => simpa only [hostTurn, hq] using held
  | awaitDone =>
    left
    cases hq : s.seq with
    | idle => exact ⟨s.setActs rest, by simp only [hostTurn, hq]⟩
    | run => simpa only [hostTurn, hq] using held
  | letRun n =>
    left
    cases n with
    | zero => exact ⟨_, rfl⟩
    | succ n => exact sequencerTurn_next hs (.letRun n :: rest)
  | reset => exact .inl ⟨_, rfl⟩
  | devicePowerCycle => exact .inl ⟨_, rfl⟩

/-- A step of a sound machine ends in a next state, or is a host read that finds no value (00_scope.md R18). -/
theorem step_next_or_read {s : State} (hs : SequencerSound s) :
    (∃ t, step s = .next t) ∨
      ∃ r rest f, s.env.acts = .read r :: rest ∧ s.hostRead r = .error f ∧ step s = .fault f := by
  cases he : s.rdm.event with
  | some e =>
    obtain ⟨t, ht, -⟩ := deviceTurn_next s
    exact .inl ⟨t, by simp only [step, turn, he, ht]⟩
  | none =>
    cases ha : s.env.acts with
    | nil =>
      obtain ⟨t, ht⟩ := sequencerTurn_next hs s.env.acts
      rw [State.setActs_self] at ht
      exact .inl ⟨t, by simp only [step, turn, he, ha, ht]⟩
    | cons act rest =>
      rw [step_eq_hostTurn he ha]
      refine (hostTurn_next_or_read hs act rest).imp id ?_
      rintro ⟨r, f, rfl, hr, hf⟩
      exact ⟨r, rest, f, rfl, hr, hf⟩

/-- Settles O50: the two ends of `step_next_or_read` are no refusal, and the one that faults is a read of no value. -/
theorem onlyHostReadsStopTheMachine : Obligations.OnlyHostReadsStopTheMachine := by
  intro s hs
  obtain ⟨t, ht⟩ | ⟨r, rest, f, ha, hr, hf⟩ := step_next_or_read hs
  · simp [ht]
  · refine ⟨by simp [hf], fun g hg => ?_⟩
    rw [hf] at hg
    cases hg
    exact ⟨r, rest, ha, hr⟩

end Sys2Proof.Safety

/-! The state of the block over a step (10_state.md R30 to R46): what a step can do to the block, once (`block_cases`),
and from it the invariants of every step; ACCEPT, COMPLETE and the abort on a transport error as equations. -/

namespace Sys2Proof.Safety

open Sys2Proof.Machine

/-! ### `SEQ_STATUS` -/

/-- Bit `i` of `SEQ_STATUS`, the six fields laid end to end (10_state.md R41). -/
theorem seqStatus_getElem (s : State) (i : Nat) (hi : i < 8) :
    s.seqStatus[i] = if i < 1 then s.busy else if i < 2 then s.done else if i < 3 then s.err
      else if i < 5 then s.errcode.getLsbD (i - 3) else if i < 6 then s.rbit else s.wphase.code.getLsbD (i - 6) := by
  unfold State.seqStatus
  grind

/-- Settles O24: each field is read off the bits it is made of. -/
theorem seqStatusFields : Obligations.SeqStatusFields := by
  intro s
  refine ⟨?_, ?_, ?_, ?_, ?_, ?_⟩
  · simp [seqStatus_getElem, State.busy]
  · simp [seqStatus_getElem]
  · simp [seqStatus_getElem]
  · ext i hi
    have : i = 0 ∨ i = 1 := by omega
    rcases this with rfl | rfl <;> simp [seqStatus_getElem]
  · simp [seqStatus_getElem]
  · trans s.wphase.code
    · ext i hi
      have : i = 0 ∨ i = 1 := by omega
      rcases this with rfl | rfl <;> simp [seqStatus_getElem]
    · cases s.wphase <;> rfl

/-! ### ACCEPT -/

/-- Conditions 3 and 4 of 30_encoding.md R143 are what a selected command can break. -/
theorem wellFormed_of_not_illegal {cfg : Config} {w : CmdWord} {n : Nat} {d : List Byte} {i : Instr}
    (h : decodeHost w n d = .ok i) (hl : ¬ illegal cfg w n d) : i.wellFormed cfg = true := by
  simp only [illegal, not_or, not_and] at hl
  obtain ⟨-, -, hlen, hdata⟩ := hl
  rw [← opField] at hlen hdata
  unfold decodeHost at h
  split at h
  · cases h
  · split at h <;> cases h
    · next ho => simpa [Instr.wellFormed] using And.intro (hlen (.inr ho)) (hdata ho)
    · next ho => simpa [Instr.wellFormed] using hlen (.inl ho)
    all_goals rfl

/-- Settles O8: a selected command is the ACCEPT of its own word, and its operands are legal. -/
theorem legalCommandIsAccepted : Obligations.LegalCommandIsAccepted := by
  intro s w n d i hd hi hl
  rw [exec_accept w n d i hd, wellFormed_of_not_illegal hd hl, accept_legal _ _ _ _ _ _ hi]
  rfl

/-- Settles O6: the turn is the host's, and its act is the ACCEPT of a word that selects `i`. -/
theorem stepRunsTheAcceptedCommand : Obligations.StepRunsTheAcceptedCommand := by
  intro s w n d rest i he hi ha hd
  have accepts : hostTurn exec (.accept w n d) rest s = exec i (s.setActs rest) := by
    simp only [hostTurn, hi, acceptWord, hd]
  exact (step_eq_hostTurn he ha).trans accepts

/-! ### What a step can do to the block -/

/-- An accepted word is the ACCEPT of its own triple, with the micro-sequence of the command it selects where it is legal
(10_state.md R42, 30_encoding.md R142, R143). -/
theorem acceptWord_eq_accept (w : CmdWord) (n : Nat) (d : List Byte) (s : State) :
    ∃ legal r i, acceptWord exec w n d s = .next (accept w n d legal r (startOf s.cfg i) s) ∧
      (legal = true → decodeHost w n d = .ok i ∧ i.wellFormed s.cfg = true) := by
  unfold acceptWord
  cases hd : decodeHost w n d with
  | error e => exact ⟨false, [], .wireRead [], rfl, by simp⟩
  | ok i => exact ⟨_, _, i, exec_accept w n d i hd s, fun hw => ⟨rfl, hw⟩⟩

/-- `l` is what the host has left to do in `s`, if the next of it is an ACCEPT. -/
def HoldsAccept (s : State) (l : List HostAct) : Prop :=
  ∀ w n d r, s.env.acts = .accept w n d :: r → l = s.env.acts

/-- The ways a step can end in a next state, by what becomes of the block. -/
inductive BlockCase (s t : State) : Prop where
  /-- The device reacts or is powered up again, or a host act that leaves the block alone. -/
  | outside (hb : t = { s with rdm := t.rdm, env := t.env }) (hl : HoldsAccept s t.env.acts)
  /-- ACCEPT, of a legal command or not. -/
  | accept (hi : s.seq = .idle) (w : CmdWord) (n : Nat) (d : List Byte) (legal : Bool) (r : List (Option Byte)) (i : Instr)
      (l : List HostAct) (hl : legal = true → decodeHost w n d = .ok i ∧ i.wellFormed s.cfg = true)
      (ht : t = accept w n d legal r (startOf s.cfg i) (s.setActs l))
  /-- The sequencer steps. -/
  | running (hr : s.seq = .run) (l : List HostAct) (hl : HoldsAccept s l)
      (ht : seqStep (deviceTurn exec) (s.setActs l) = .next t)
  /-- Reset is applied. -/
  | reset (l : List HostAct) (ha : s.env.acts = .reset :: l) (ht : t = (s.setActs l).applyReset)

/-- `step_cases`, by what becomes of the block. -/
theorem block_cases {s t : State} (h : step s = .next t) : BlockCase s t := by
  cases step_cases h with
  | device _ h =>
    obtain ⟨t', ht', ho, -⟩ := deviceTurn_next s
    rw [ht'] at h
    cases h
    exact .outside ho.block fun _ _ _ _ _ => ho.acts
  | sequencer _ hr l hl h =>
    refine .running hr l (fun w n d r ha => hl.resolve_right ?_) h
    rintro ⟨m, r', hm, -⟩
    rw [ha] at hm
    cases hm
  | accept _ hi w n d l _ h =>
    obtain ⟨legal, r, i, he, hw⟩ := acceptWord_eq_accept w n d (s.setActs l)
    rw [he] at h
    cases h
    exact .accept hi w n d legal r i l hw rfl
  | host _ l g ha h =>
    subst h
    exact .outside rfl fun w n d r hx => absurd hx (ha w n d r)
  | reset _ l ha h => exact .reset l ha h
  | power _ l ha h =>
    subst h
    exact .outside rfl fun w n d r hx => by rw [ha] at hx; cases hx

/-- A step of a running sequencer, in any state: it keeps the configuration and the host's acts, adds at most one bus
event and no ACCEPT, and either goes on with the response registers as they were or ends the command (10_state.md R40,
R43, 60_exceptions.md R301). -/
structure RunFrame (s t : State) : Prop where
  cfg : t.cfg = s.cfg
  acts : t.env.acts = s.env.acts
  trace : ∃ l, t.trace = s.trace ++ l ∧ busCount l ≤ 1 ∧ ∀ w n d, Event.accept w n d ∉ l
  response : (t.seq = s.seq ∧ t.done = s.done ∧ t.err = s.err ∧ t.errcode = s.errcode) ∨
    (t.seq = .idle ∧ t.done = true ∧ t.err = s.err ∧ t.errcode = s.errcode) ∨
    (t.seq = .idle ∧ t.done = true ∧ t.err = true ∧ t.errcode ≠ 0#2)

theorem Exn.code_ne_zero (e : Exn) : e.code ≠ 0#2 := by cases e <;> decide

/-- The abort records the `CSH` of an open frame and COMPLETE (60_exceptions.md R301). -/
theorem State.abort_trace (s : State) (e : Exn) :
    (s.abort e).trace = s.trace ++ (if s.csN then [] else [.csh]) ++ [.complete (s.abort e).resp] := by
  unfold State.abort
  split <;> simp [*, State.takeException_trace]

/-- Each way a step of the sequencer ends is within the frame. -/
theorem SeqCase.frame {u : Upc} {s t : State} (h : SeqCase u s t) : RunFrame s t := by
  cases h with
  | event x b rest hn hc hp hf =>
    obtain ⟨e, he, hbus⟩ := hf.event
    have hb := hf.block
    refine ⟨?_, ?_, ⟨[e], ?_, by simp [busCount, hbus], ?_⟩, .inl ⟨?_, ?_, ?_, ?_⟩⟩
    · rw [hb, hc]
    · rw [hf.acts, hc]
    · rw [he, hc]
    · rintro w n d hm
      rw [← List.mem_singleton.mp hm] at hbus
      cases hbus
    all_goals rw [hb, hc]
  | complete x hn hc ht =>
    subst ht
    refine ⟨?_, ?_, ⟨[.complete x.complete.resp], ?_, by simp [busCount, isBusEvent], by simp⟩,
      .inr (.inl ⟨rfl, rfl, ?_, ?_⟩)⟩
    · rw [State.complete_cfg, hc]
    · rw [State.complete_env, hc]
    · rw [State.complete_trace, hc]
    · rw [State.complete_err, hc]
    · rw [State.complete_errcode, hc]
  | abort x e hn hc ht =>
    subst ht
    obtain ⟨-, hseq, hdone, herr, hcode, -, -, -, -, -, -, -, -, -, -, hcfg, henv⟩ := State.abort_registers x e
    refine ⟨?_, ?_, ⟨(if x.csN then [] else [.csh]) ++ [.complete (x.abort e).resp], ?_, ?_, ?_⟩,
      .inr (.inr ⟨hseq, hdone, herr, hcode ▸ Exn.code_ne_zero e⟩)⟩
    · rw [hcfg, hc]
    · rw [henv, hc]
    · rw [State.abort_trace, List.append_assoc, hc]
    · split <;> simp [busCount, List.filter_cons, isBusEvent]
    · split <;> simp

theorem runFrame_of_seqStep {s t : State} (h : seqStep (deviceTurn exec) s = .next t) : RunFrame s t := by
  obtain ⟨u, -, hc⟩ := seqStep_cases h
  exact hc.frame

/-! ### Invariants of every step -/

/-- An ACCEPT keeps the configuration, `SR_LAST` and `WPHASE`, and records no bus event (10_state.md R42). -/
theorem accept_frame (w : CmdWord) (n : Nat) (d : List Byte) (legal : Bool) (r : List (Option Byte)) (c : List Micro)
    (s : State) (hi : s.seq = .idle) :
    (accept w n d legal r c s).cfg = s.cfg ∧ (accept w n d legal r c s).srLast = s.srLast ∧
    (accept w n d legal r c s).wphase = s.wphase ∧
    ∃ l, (accept w n d legal r c s).trace = s.trace ++ l ∧ busCount l = 0 := by
  cases legal with
  | true => rw [accept_legal _ _ _ _ _ _ hi]; exact ⟨rfl, rfl, rfl, [.accept w n d], rfl, rfl⟩
  | false =>
    rw [accept_illegal _ _ _ _ _ _ hi]
    refine ⟨rfl, rfl, rfl, [.accept w n d, .complete (s.latch w n d).refuse.resp], ?_, rfl⟩
    simp [State.refuse, State.takeException_trace]

/-- Reset keeps the configuration, empties `SR_LAST` and records the `CSH` of an open frame (70_reset_and_hazards.md R330,
R332). -/
theorem applyReset_frame (s : State) :
    s.applyReset.cfg = s.cfg ∧ s.applyReset.srLast = none ∧ s.applyReset.wphase = .idle ∧ s.applyReset.seq = .idle ∧
    s.applyReset.csN = true ∧ s.applyReset.trace = s.trace ++ (if s.csN then [] else [.csh]) := by
  unfold State.applyReset
  split <;> simp [State.resetWith]

/-- Settles O53: no case of `block_cases` writes the configuration. -/
theorem configurationNeverChanges : Obligations.ConfigurationNeverChanges := by
  intro s t h
  cases block_cases h with
  | outside hb _ => rw [hb]
  | accept hi w n d legal r i l _ ht =>
    obtain ⟨hcfg, -⟩ := accept_frame w n d legal r (startOf s.cfg i) (s.setActs l) hi
    exact ht ▸ hcfg
  | running _ l _ ht => exact (runFrame_of_seqStep ht).cfg
  | reset l _ ht =>
    obtain ⟨hcfg, -⟩ := applyReset_frame (s.setActs l)
    exact ht ▸ hcfg

/-- Settles O54: bus events come from the running sequencer, one a step, and from a reset inside an open frame. -/
theorem atMostOneBusEventPerStep : Obligations.AtMostOneBusEventPerStep := by
  intro s t h
  cases block_cases h with
  | outside hb _ => exact ⟨[], by rw [hb, List.append_nil], Nat.zero_le 1⟩
  | accept hi w n d legal r i l _ ht =>
    obtain ⟨-, -, -, m, hm, hc⟩ := accept_frame w n d legal r (startOf s.cfg i) (s.setActs l) hi
    exact ⟨_, ht ▸ hm, Nat.le_of_lt_succ (by rw [hc]; decide)⟩
  | running _ l _ ht =>
    obtain ⟨m, hm, hc, -⟩ := (runFrame_of_seqStep ht).trace
    exact ⟨m, hm, hc⟩
  | reset l _ ht =>
    obtain ⟨-, -, -, -, -, htr⟩ := applyReset_frame (s.setActs l)
    exact ⟨_, ht ▸ htr, by split <;> decide⟩

/-- An ACCEPT sets the response registers in agreement, whatever they were (10_state.md R42). -/
theorem accept_response (w : CmdWord) (n : Nat) (d : List Byte) (legal : Bool) (r : List (Option Byte)) (c : List Micro)
    (s : State) (hi : s.seq = .idle) : ResponseSound (accept w n d legal r c s) := by
  cases legal with
  | true =>
    rw [accept_legal _ _ _ _ _ _ hi]
    exact ⟨fun _ => ⟨rfl, rfl⟩, iff_of_true rfl rfl, fun he => by cases he⟩
  | false =>
    rw [accept_illegal _ _ _ _ _ _ hi]
    exact ⟨fun hr => (by cases hr), iff_of_false (by simp [State.refuse]) (Exn.code_ne_zero .illegalCommand), fun _ => rfl⟩

/-- Settles O46: the response registers agree where a step ends the command, and where it leaves them as they were. -/
theorem responseStaysSound : Obligations.ResponseStaysSound := by
  intro s t hs h
  cases block_cases h with
  | outside hb _ => rw [hb]; exact ⟨hs.running, hs.code, hs.ended⟩
  | accept hi w n d legal r i l _ ht => rw [ht]; exact accept_response w n d legal r _ (s.setActs l) hi
  | running hr l _ ht =>
    obtain ⟨hseq, hd, he, hc⟩ | ⟨hseq, hd, he, hc⟩ | ⟨hseq, hd, he, hc⟩ := (runFrame_of_seqStep ht).response
    · refine ⟨fun _ => ?_, ?_, ?_⟩
      · rw [hd, he]; exact hs.running hr
      · rw [he, hc]; exact hs.code
      · rw [he, hd]; exact hs.ended
    · exact ⟨by simp [hseq], by rw [he, hc]; exact hs.code, fun _ => hd⟩
    · exact ⟨by simp [hseq], by simp [he, hc], fun _ => hd⟩
  | reset l _ ht => rw [ht]; exact ⟨fun hr => (by cases hr), iff_of_true rfl rfl, fun he => by cases he⟩

/-- Internal computation, whatever acts the host has left, keeps the position, `SEQ`, `CS_N` and the trace. -/
theorem calcOnly_setActs_keeps {s x : State} {l : List HostAct} (h : CalcOnly (s.setActs l) x) :
    x.upc = s.upc ∧ x.seq = s.seq ∧ x.csN = s.csN ∧ x.trace = s.trace := by
  rw [h]
  exact ⟨rfl, rfl, rfl, rfl⟩

/-- A step of the sequencer writes `SR_LAST` from its status byte `s` only (41_status_timing.md R200). -/
theorem SeqCase.srLast {u : Upc} {s t : State} (hu : s.upc = some u) (h : SeqCase u s t) :
    t.srLast = s.srLast ∨ ∃ v, u.s = some v ∧ t.srLast = some v := by
  cases h with
  | event x b rest hn _ _ hf => rw [hf.block]; exact (nextAction_status u _ _ _ _ hu hn).1
  | complete x hn _ ht => rw [ht]; exact (nextAction_status u _ _ _ _ hu hn).1
  | abort x e hn _ ht =>
    obtain ⟨-, -, -, -, -, -, hl, -⟩ := State.abort_registers x e
    rw [ht, hl]
    exact (nextAction_status u _ _ _ _ hu hn).1

/-- Settles O55: of the cases only a reset and a step of the sequencer write `SR_LAST`. -/
theorem srLastWrittenByStatusReadsOnly : Obligations.SrLastWrittenByStatusReadsOnly := by
  intro s t h hne
  cases block_cases h with
  | outside hb _ => rw [hb] at hne; exact absurd rfl hne
  | accept hi w n d legal r i l _ ht =>
    obtain ⟨-, hl, -⟩ := accept_frame w n d legal r (startOf s.cfg i) (s.setActs l) hi
    exact absurd (ht ▸ hl) hne
  | running hr l _ ht =>
    obtain ⟨u, hu, hc⟩ := seqStep_cases ht
    obtain ⟨v, hv, hl⟩ := (hc.srLast hu).resolve_left hne
    exact .inr ⟨hr, u, v, hu, hv, hl⟩
  | reset l ha ht =>
    obtain ⟨-, hl, -⟩ := applyReset_frame (s.setActs l)
    exact .inl ⟨ht ▸ hl, l, ha⟩

/-- Settles O48: at rest `CS_N` is 1, an ACCEPT starts a sound micro-sequence, and every action of a sound one leaves it
sound. -/
theorem sequencerStaysSound : Obligations.SequencerStaysSound := by
  intro s t hs h
  cases block_cases h with
  | outside hb _ =>
    rw [hb]
    exact (hs.withEnv t.env).outside (.setRdm _ t.rdm)
  | accept hi w n d legal r i l hl ht =>
    rw [ht]
    exact accept_sound (s.setActs l) (hs.withEnv _) hi w n d legal r s.cfg i hl
  | running hr l _ ht =>
    obtain ⟨u, x, a, k, hu, -, hc, hd, hf, -, hp⟩ := seqStep_sound s l hs hr
    obtain ⟨hxu, hxr, -⟩ := calcOnly_setActs_keeps hc
    obtain ⟨t', ht', hsound⟩ := perform_sound k x u a hd (hxu.trans hu) (hxr.trans hr) hf
    rw [hp, ht'] at ht
    cases ht
    exact hsound
  | reset l _ ht =>
    obtain ⟨-, -, -, hseq, hcs, -⟩ := applyReset_frame (s.setActs l)
    rw [ht]
    exact .of_idle hseq hcs

/-! ### The host holds while a command runs -/

/-- Settles O10: with an ACCEPT at the head of the acts and a command running, the step is the device's or the
sequencer's. -/
theorem hostHoldsWhileBusy : Obligations.HostHoldsWhileBusy := by
  refine ⟨fun s t w n d rest hr ha h => ?_, fun s w n d i hd hr => ?_⟩
  · cases block_cases h with
    | outside hb hl => exact ⟨hl w n d rest ha, [], by rw [hb, List.append_nil], by simp⟩
    | accept hi => rw [hr] at hi; cases hi
    | running _ l hl ht =>
      have hf := runFrame_of_seqStep ht
      obtain ⟨m, hm, -, hno⟩ := hf.trace
      exact ⟨hf.acts.trans (hl w n d rest ha), m, hm, hno⟩
    | reset l hx => rw [ha] at hx; cases hx
  · rw [exec_accept w n d i hd, accept_run _ _ _ _ _ _ _ hr]

/-! ### `WPHASE` -/

/-- Of the actions of a sound sequencer only the `CSH` of a running command's frame moves `WPHASE`, as the frame's opcode
says (10_state.md R38); a `CSH` that an abort records comes with the end of the command. -/
theorem perform_wphase {k : Known} {s t : State} {u : Upc} {a : Action} (h : Known.Describes k s u)
    (hu : s.upc = some u) (hf : Follows k a) (hp : perform (deviceTurn exec) a s = .next t) :
    (t.trace = s.trace ++ [.csh] ∧ s.csN = false ∧
      t.wphase = ((frameView s.trace).opcode.bind phaseMove).getD s.wphase) ∨
    (t.wphase = s.wphase ∧ (t.trace = s.trace ++ [.csh] → t.seq = .idle)) := by
  cases a with
  | complete => cases hp; exact .inr ⟨rfl, fun _ => rfl⟩
  | raise e =>
    cases hp
    obtain ⟨-, hseq, -, -, -, hw, -⟩ := State.abort_registers s e
    exact .inr ⟨hw, fun _ => hseq⟩
  | event b rest =>
    obtain ⟨t', w, k', hp', hspec, -⟩ := performEvent_sound k s u b rest h hu hf
    cases hp'.symm.trans hp
    obtain ⟨e, htr, -, hlow, hmove, hstay, hbare, -⟩ := hspec.event
    by_cases he : e = .csh
    · subst he
      refine .inl ⟨htr, hlow rfl, ?_⟩
      rw [h.view]
      cases hv : k.view.opcode with
      | none => exact hbare rfl hv
      | some b => exact hmove rfl b hv
    · refine .inr ⟨hstay he, fun hx => ?_⟩
      rw [htr] at hx
      exact absurd (by simpa using hx) he

/-- The `CSH` of a frame leaves `WPHASE` as it was, or the frame has an opcode that moves it (10_state.md R38). -/
theorem phaseMove_cases (o : Option Byte) (p : Wphase) :
    (o.bind phaseMove).getD p = p ∨ ∃ b, o = some b ∧ some ((o.bind phaseMove).getD p) = phaseMove b := by
  cases o with
  | none => exact .inl rfl
  | some b =>
    rw [Option.bind_some]
    cases hm : phaseMove b with
    | none => exact .inl rfl
    | some q => exact .inr ⟨b, rfl, hm.symm⟩

/-- Settles O52: internal computation moves `WPHASE` at an await's test only, where `CS_N` is 1, and then `perform_wphase`
says what the action does. -/
theorem wphaseMovesOnlyAsListed : Obligations.WphaseMovesOnlyAsListed := by
  intro s t hs h
  cases block_cases h with
  | outside hb _ =>
    have hw : t.wphase = s.wphase := by rw [hb]
    have htr : t.trace = s.trace := by rw [hb]
    exact ⟨.inl hw, fun b hx => by simp [htr] at hx⟩
  | accept hi w n d legal r i l _ ht =>
    obtain ⟨-, -, hw, -⟩ := accept_frame w n d legal r (startOf s.cfg i) (s.setActs l) hi
    exact ⟨.inl (ht ▸ hw), fun b _ hr => by rw [hi] at hr; cases hr⟩
  | reset l ha ht =>
    obtain ⟨-, -, hw, hseq, -⟩ := applyReset_frame (s.setActs l)
    refine ⟨.inr (.inl ⟨ht ▸ hw, l, ha⟩), fun b _ _ hr => ?_⟩
    rw [ht, hseq] at hr
    cases hr
  | running hr l _ ht =>
    obtain ⟨u, x, a, k, hu, -, hc, hd, hf, hcalc, hp⟩ := seqStep_sound s l hs hr
    obtain ⟨hxu, -, hxc, hxt⟩ := calcOnly_setActs_keeps hc
    rw [hp] at ht
    obtain ⟨htr, hlow, hw⟩ | ⟨hw, hend⟩ := perform_wphase hd (hxu.trans hu) hf ht
    · have hxw : x.wphase = s.wphase := hcalc.resolve_right fun ⟨_, hhigh, _⟩ => by
        rw [hxc, hhigh] at hlow; cases hlow
      rw [hxt] at htr hw
      rw [hxw] at hw
      refine ⟨?_, fun b _ _ _ hb => by rw [hw, hb]; rfl⟩
      rw [hw]
      exact (phaseMove_cases _ s.wphase).imp id fun ⟨b, hb, hm⟩ => .inr (.inl ⟨b, htr, hr, hb, hm⟩)
    · rw [hxt] at hend
      refine ⟨?_, fun b htr _ hrun => by rw [hend htr] at hrun; cases hrun⟩
      rw [hw]
      exact hcalc.imp id fun ⟨hidle, _, ⟨r, hcode⟩, v, hv, hz⟩ => .inr (.inr ⟨hidle, hr, u, v, r, hu, hcode, hv, hz⟩)

/-! ### COMPLETE -/

/-- With no reaction owed and no act waiting, the step is the running sequencer's. -/
theorem step_eq_seqStep {s : State} (he : s.rdm.event = none) (ha : s.env.acts = []) (hr : s.seq = .run) :
    step s = seqStep (deviceTurn exec) s := by
  simp [step, turn, he, ha, sequencerTurn, hr]

/-- Settles O11: a sound micro-sequence reaches its end with `CS_N` = 1, and `ERR` is 0 as long as the command runs. -/
theorem endOfPseudocodeCompletes : Obligations.EndOfPseudocodeCompletes := by
  intro s c u hs hresp he ha hr hu hn
  obtain ⟨u', x, a, k, hu', hx, hc, hd, hf, -, hp⟩ := seqStep_sound s s.env.acts hs hr
  cases hu.symm.trans hu'
  cases hn.symm.trans hx
  have herr : c.err = false := by rw [hc]; exact (hresp.running hr).2
  exact ⟨c.complete, (step_eq_seqStep he ha hr).trans hp, rfl, hd.csHigh.trans hf, herr⟩

/-! ### A transport error -/

/-- The byte `o` that the `xfer` of a micro-sequence offers (30_encoding.md R144). -/
def Offers (s : State) (b : BusOp) (o : Byte) : Prop :=
  (∃ src, b = .send src ∧ s.source src = .ok o) ∨ ((b = .recvStatus ∨ ∃ k, b = .recvData k) ∧ o = s.cfg.filler)

/-- Whatever an `xfer` is for, on `XFER_ERR` nothing is kept and the abort comes next (10_state.md R46). -/
theorem performEvent_transportError {x : State} {u : Upc} {b : BusOp} {rest : List Micro} {o : Byte} {r : List Answer}
    (h : x.cfg.rdmAttached = false) (hu : x.upc = some u) (ho : Offers x b o) (ha : x.env.answers = .err :: r)
    (react : State → Out) :
    performEvent react b rest x = .next (moved x [.raise .transportError] u.s r [.xfer o .err]) := by
  have failed : ∀ keep : Byte → State → State, exchange react o x (afterXfer rest keep) =
      .next (moved x [.raise .transportError] u.s r [.xfer o .err]) := fun keep => by
    rw [exchange_free react o x _ h]
    simp [State.drawAnswer, ha, afterXfer, State.record, State.goTo, hu, moved]
  obtain ⟨src, rfl, hsrc⟩ | ⟨rfl | ⟨k, rfl⟩, rfl⟩ := ho
  · simp only [performEvent, hsrc]
    exact failed _
  · exact failed _
  · exact failed _

/-- The abort over a transport with no device model (60_exceptions.md R301). -/
theorem State.abort_free {s : State} (e : Exn) (h : s.cfg.rdmAttached = false) :
    s.abort e = { s with csN := true, seq := .idle, done := true, err := true, errcode := e.code,
                         trace := s.trace ++ (if s.csN then [] else [.csh]) ++ [.complete (s.abort e).resp] } := by
  cases hc : s.csN with
  | true =>
    have same : s = { s with csN := true } := by rw [← hc]
    rw [State.abort_high s e hc, if_pos rfl, List.append_nil]
    exact congrArg (State.takeException · e) same
  | false =>
    have closed : s.csDeassert = { s with csN := true, trace := s.trace ++ [.csh] } := by simp [State.csDeassert_eq, h]
    rw [State.abort_low s e hc, closed]
    rfl

/-- Settles O23: the `xfer` that fails leaves the raise as all there is to do, and the next step takes it. -/
theorem transportErrorAborts : Obligations.TransportErrorAborts := by
  intro s b code o rest ⟨hr, ⟨u, hu, hcode⟩, hacts, hev, hfree, hans⟩ ho
  have free : Free s := ⟨hr, hacts, hev, hfree⟩
  have fails : step s = .next (moved s [.raise .transportError] u.s rest [.xfer o .err]) :=
    (free.step_event hu (by rw [hcode]; rfl)).trans (performEvent_transportError hfree hu ho hans _)
  have aborts : step (moved s [.raise .transportError] u.s rest [.xfer o .err]) =
      .next ((moved s [.raise .transportError] u.s rest [.xfer o .err]).abort .transportError) :=
    Free.step_raise ⟨hr, hacts, hev, hfree⟩ rfl rfl
  exact ⟨_, _, fails, aborts, rfl, State.abort_free _ hfree⟩

end Sys2Proof.Safety

/-! The device over a step (20_memory.md R80, R100 to R104, R111): what a step can do to the device, once (`device_cases`),
and from it the device's invariants and what changes its array. -/

namespace Sys2Proof.Safety

open Sys2Proof.Machine

/-! ### What a step can do to the device -/

/-- What every step but a cycle of the device's power does with the device: at most the end of a frame is left for it to
react to, its invariants are kept, and its array changes where a write cycle ends. -/
structure DeviceFrame (s t : State) : Prop where
  attached : t.rdm.event ≠ none → s.cfg.rdmAttached = true
  noByte : t.rdm.event ≠ some .byte
  cycle : s.rdm.CycleSound → t.rdm.CycleSound
  canonical : s.rdm.array.wf = true → t.rdm.array.wf = true
  inside : Memory.below s.cfg.deviceSize s.rdm.array = true → Memory.below s.cfg.deviceSize t.rdm.array = true
  array : ArrayStep s.cfg s.rdm t.rdm

/-- The device goes on as it was. -/
theorem DeviceFrame.of_same {s t : State} (he : s.rdm.event = none) (h : t.rdm = s.rdm) : DeviceFrame s t := by
  refine ⟨?_, ?_, ?_, ?_, ?_, .inl ?_⟩ <;> rw [h]
  · exact fun hn => absurd he hn
  · simp [he]
  all_goals exact id

/-- A `CSH` leaves the device the end of a frame to react to, if there is a device (20_memory.md R103). -/
theorem DeviceFrame.csDeassert {s : State} (he : s.rdm.event = none) : DeviceFrame s s.csDeassert := by
  have hd := State.csDeassert_rdm s
  split at hd
  · next h =>
    refine ⟨fun _ => h, ?_, ?_, ?_, ?_, .inl ?_⟩ <;> rw [hd]
    · simp
    · exact fun h => ⟨h.busy, h.latched, h.awake⟩
    · exact id
    · exact id
  · exact .of_same he hd

/-- What happens to the device between two states is told by their devices and the configuration. -/
theorem DeviceFrame.congr {s s' t t' : State} (h : DeviceFrame s t) (hs : s'.rdm = s.rdm) (hc : s'.cfg = s.cfg)
    (ht : t'.rdm = t.rdm) : DeviceFrame s' t' := by
  refine ⟨?_, ?_, ?_, ?_, ?_, ?_⟩
  all_goals simp only [hs, hc, ht]
  exacts [h.attached, h.noByte, h.cycle, h.canonical, h.inside, h.array]

/-- The abort touches the device through the `CSH` of an open frame only (60_exceptions.md R301). -/
theorem DeviceFrame.abort {s : State} (he : s.rdm.event = none) (e : Exn) : DeviceFrame s (s.abort e) := by
  unfold State.abort
  split
  · exact .of_same he rfl
  · exact (DeviceFrame.csDeassert he).congr rfl rfl rfl

/-- So does a reset (70_reset_and_hazards.md R332). -/
theorem DeviceFrame.applyReset {s : State} (he : s.rdm.event = none) : DeviceFrame s s.applyReset := by
  unfold State.applyReset
  cases s.csN with
  | true => exact .of_same he rfl
  | false => exact (DeviceFrame.csDeassert he).congr rfl rfl rfl

/-- ACCEPT leaves the device alone (10_state.md R42). -/
theorem accept_rdm (w : CmdWord) (n : Nat) (d : List Byte) (legal : Bool) (r : List (Option Byte)) (c : List Micro)
    (s : State) : (accept w n d legal r c s).rdm = s.rdm := by
  cases hs : s.seq with
  | run => rw [accept_run _ _ _ _ _ _ _ hs]
  | idle =>
    cases legal with
    | true => rw [accept_legal _ _ _ _ _ _ hs]; rfl
    | false => rw [accept_illegal _ _ _ _ _ _ hs]; rfl

/-- Each way a step of the sequencer ends is within the frame. -/
theorem SeqCase.deviceFrame {u : Upc} {s t : State} (he : s.rdm.event = none) (h : SeqCase u s t) : DeviceFrame s t := by
  cases h with
  | event x b rest _ hc _ hf =>
    have hx : x.rdm = s.rdm ∧ x.cfg = s.cfg := by rw [hc]; exact ⟨rfl, rfl⟩
    have hxe : x.rdm.event = none := hx.1 ▸ he
    have frame : DeviceFrame x t :=
      ⟨hf.attached hxe, hf.noByte hxe, hf.cycle, hf.canonical, hf.inside, hf.array⟩
    exact frame.congr hx.1.symm hx.2.symm rfl
  | complete x _ hc ht => exact .of_same he (by rw [ht, State.complete_rdm, hc])
  | abort x e _ hc ht =>
    have hx : x.rdm = s.rdm ∧ x.cfg = s.cfg := by rw [hc]; exact ⟨rfl, rfl⟩
    exact ht ▸ (DeviceFrame.abort (hx.1 ▸ he) e).congr hx.1.symm hx.2.symm rfl

/-- `step_cases`, by what becomes of the device: its power is cycled, or the step is within the frame. -/
theorem device_cases {s t : State} (h : step s = .next t) :
    (∃ rest, s.env.acts = .devicePowerCycle :: rest ∧ t.rdm = Rdm.powerOn s.cfg) ∨ DeviceFrame s t := by
  cases step_cases h with
  | device _ h =>
    obtain ⟨t', ht', -, -, he, hcycle, hwf, hbelow, harray⟩ := deviceTurn_next s
    cases ht'.symm.trans h
    exact .inr ⟨fun hn => absurd he hn, by simp [he], hcycle, hwf, hbelow, harray⟩
  | sequencer he _ l _ h =>
    obtain ⟨u, -, hc⟩ := seqStep_cases h
    exact .inr ((hc.deviceFrame (s := s.setActs l) he).congr rfl rfl rfl)
  | accept he _ w n d l _ h =>
    obtain ⟨w', legal, r, c, hx⟩ := acceptWord_next w n d (s.setActs l)
    cases hx.symm.trans h
    exact .inr (.of_same he (accept_rdm _ _ _ _ _ _ (s.setActs l)))
  | host he _ _ _ h => exact .inr (.of_same he (by rw [h]))
  | reset he l _ h => exact .inr (h ▸ (DeviceFrame.applyReset (s := s.setActs l) he).congr rfl rfl rfl)
  | power _ l ha h => exact .inl ⟨l, ha, by rw [h]; rfl⟩

/-! ### Invariants of every step -/

/-- Settles O45: the empty array of a device at power-on is in the form, and every step in the frame keeps it. -/
theorem memoryStaysSound : Obligations.MemoryStaysSound := by
  intro s t hs h
  have hcfg := configurationNeverChanges s t h
  obtain ⟨_, _, ht⟩ | hf := device_cases h
  · refine ⟨?_, ?_⟩ <;> rw [ht] <;> rfl
  · exact ⟨hf.canonical hs.canonical, hcfg ▸ hf.inside hs.inside⟩

/-- Settles O47: a device at power-on owes nothing and is not busy, and every step in the frame keeps the rest. -/
theorem deviceStaysSound : Obligations.DeviceStaysSound := by
  intro s t hs h
  have hcfg := configurationNeverChanges s t h
  obtain ⟨_, _, ht⟩ | hf := device_cases h
  · refine ⟨?_, ?_, ?_, ?_, ?_⟩ <;> rw [ht] <;> simp [Rdm.powerOn]
  · have hc := hf.cycle ⟨hs.busy, hs.latched, hs.awake⟩
    exact ⟨hcfg ▸ hf.attached, hf.noByte, hc.busy, hc.latched, hc.awake⟩

/-! ### The effects of a write cycle on the device array -/

theorem read_writeUnprotected_same (cfg : Config) (bp : BitVec 2) (m : Memory) (x : Nat) (v : Byte)
    (hx : x < cfg.deviceSize) (hp : protectedAt cfg bp x = false) :
    (writeUnprotected cfg bp m x v).read x = some v := by
  simp [writeUnprotected, hx, hp]

/-- One byte of a data write reaches no other address, and none that does not exist or is protected (20_memory.md R106). -/
theorem read_writeUnprotected_other (cfg : Config) (bp : BitVec 2) (m : Memory) {x y : Nat} (v : Byte)
    (h : y ≠ x ∨ ¬ (y < cfg.deviceSize ∧ protectedAt cfg bp y = false)) :
    (writeUnprotected cfg bp m x v).read y = m.read y := by
  unfold writeUnprotected
  split
  · next hx =>
    simp only [Bool.and_eq_true, decide_eq_true_eq, Bool.not_eq_true'] at hx
    refine Memory.read_write_other m v fun heq => h.elim (absurd heq) fun hn => hn ?_
    exact heq ▸ hx
  · rfl

/-- An address no byte of a data write goes to, and one that does not exist or is protected, reads as before. -/
theorem read_writePage_other (cfg : Config) (bp : BitVec 2) (a x : Nat) :
    ∀ (data : List Byte) (i : Nat) (m : Memory),
      (∀ k, k < data.length → x ≠ pageAddress cfg a (i + k)) ∨ ¬ (x < cfg.deviceSize ∧ protectedAt cfg bp x = false) →
      (writePage cfg bp a i data m).read x = m.read x
  | [], _, _, _ => rfl
  | v :: data, i, m, h => by
    rw [writePage, read_writePage_other cfg bp a x data]
    · exact read_writeUnprotected_other cfg bp m v (h.imp_left fun h => h 0 (by simp))
    · refine h.imp_left fun h k hk => ?_
      rw [Nat.add_assoc, Nat.add_comm 1 k]
      exact h (k + 1) (by simpa using hk)

/-- The last byte that goes to an existing, unprotected address is there after a data write (20_memory.md R106). -/
theorem read_writePage_last (cfg : Config) (bp : BitVec 2) (a : Nat) :
    ∀ (data : List Byte) (i k : Nat) (v : Byte) (m : Memory), data[k]? = some v →
      pageAddress cfg a (i + k) < cfg.deviceSize → protectedAt cfg bp (pageAddress cfg a (i + k)) = false →
      (∀ j, k < j → j < data.length → pageAddress cfg a (i + j) ≠ pageAddress cfg a (i + k)) →
      (writePage cfg bp a i data m).read (pageAddress cfg a (i + k)) = some v
  | [], _, _, _, _, hv, _, _, _ => by simp at hv
  | u :: data, i, 0, v, m, hv, hx, hp, hlast => by
    cases hv
    rw [writePage, read_writePage_other]
    · exact read_writeUnprotected_same cfg bp m _ u hx hp
    · refine .inl fun j hj => ?_
      rw [Nat.add_assoc, Nat.add_comm 1 j]
      exact (hlast (j + 1) (by omega) (by simpa using hj)).symm
  | u :: data, i, k + 1, v, m, hv, hx, hp, hlast => by
    have shift : ∀ j, i + 1 + j = i + (j + 1) := fun j => by omega
    rw [writePage, ← shift k]
    refine read_writePage_last cfg bp a data (i + 1) k v _ hv ?_ ?_ fun j hj hl => ?_
    · rwa [shift]
    · rwa [shift]
    · rw [shift, shift]
      exact hlast (j + 1) (by omega) (by simpa using hl)

/-- The bounds of a well-formed configuration (00_scope.md R14, 20_memory.md R80, R106). -/
theorem bounds_of_wf {cfg : Config} (h : cfg.wf = true) :
    1 ≤ cfg.maxLen ∧ cfg.deviceSize ≤ 2 ^ cfg.aw ∧ 1 ≤ cfg.pageSize ∧ cfg.pageSize ∣ cfg.deviceSize := by
  simp only [Config.wf, Bool.and_eq_true, decide_eq_true_eq] at h
  obtain ⟨⟨⟨⟨⟨-, hlen⟩, -⟩, hsize⟩, hpage⟩, hmod⟩ := h
  exact ⟨hlen, hsize, hpage, Nat.dvd_of_mod_eq_zero hmod⟩

/-- The page of an existing address lies inside the device, of which a page is a divisor (20_memory.md R106). -/
theorem pageAddress_lt {cfg : Config} (hwf : cfg.wf = true) {a : Nat} (ha : a < cfg.deviceSize) (i : Nat) :
    pageAddress cfg a i < cfg.deviceSize := by
  obtain ⟨-, -, hpos, n, hn⟩ := bounds_of_wf hwf
  have hpage : a / cfg.pageSize + 1 ≤ n := Nat.div_lt_of_lt_mul (hn ▸ ha)
  have hend : cfg.pageSize * (a / cfg.pageSize + 1) ≤ cfg.deviceSize := hn ▸ Nat.mul_le_mul_left _ hpage
  have hin : (a % cfg.pageSize + i) % cfg.pageSize < cfg.pageSize := Nat.mod_lt _ hpos
  have hdiv := Nat.div_add_mod a cfg.pageSize
  rw [Nat.mul_add_one] at hend
  unfold pageAddress
  omega

/-- Settles O40: the bytes are written in order, each to its own address. -/
theorem pageWriteStoresTheBytes : Obligations.PageWriteStoresTheBytes := by
  intro cfg bp d a data hwf ha
  refine ⟨fun i => rfl, fun i v hv hp hlast => ?_, fun x hx => ?_, rfl⟩
  · have := read_writePage_last cfg bp a data 0 i v d.array hv
    simp only [Nat.zero_add] at this
    exact this (pageAddress_lt hwf ha i) hp hlast
  · refine read_writePage_other cfg bp a x data 0 d.array (hx.imp (fun h k hk => ?_) fun h => by simp [h])
    rw [Nat.zero_add]
    exact h k hk

/-- An erase of a range in which `x` is when `q` (20_memory.md R109). -/
theorem read_eraseWhere (cfg : Config) (bp : BitVec 2) {p : Nat → Bool} (m : Memory) {x : Nat} {q : Prop} [Decidable q]
    (hq : p x = true ↔ q) :
    (eraseWhere cfg bp p m).read x =
      if x < cfg.deviceSize ∧ q ∧ protectedAt cfg bp x = false then some cfg.erasedValue else m.read x := by
  simp [eraseWhere, Memory.read_fill, hq]

/-- Settles O41: each erase is `eraseWhere` of its own range. -/
theorem eraseClearsItsRange : Obligations.EraseClearsItsRange := by
  intro cfg bp d a x
  refine ⟨?_, ?_, ?_, rfl⟩
  · exact read_eraseWhere cfg bp d.array (by simp only [decide_eq_true_eq, Nat.shiftRight_eq_div_pow])
  · exact read_eraseWhere cfg bp d.array decide_eq_true_iff
  · exact (read_eraseWhere cfg bp d.array (q := True) (iff_of_true rfl trivial)).trans (by simp only [true_and])

/-- An effect changes no address that does not exist or is protected (20_memory.md R101, R106, R109). -/
theorem Effect.read_onArray_outside (cfg : Config) (bp : BitVec 2) (m : Memory) (x : Nat) (e : Effect)
    (h : ¬ (x < cfg.deviceSize ∧ protectedAt cfg bp x = false)) : (e.onArray cfg bp m).read x = m.read x := by
  have erase : ∀ p, (eraseWhere cfg bp p m).read x = m.read x := fun p => by
    rw [read_eraseWhere cfg bp m Iff.rfl, if_neg fun ⟨hx, _, hp⟩ => h ⟨hx, hp⟩]
  cases e with
  | write a data => exact read_writePage_other cfg bp a x data 0 m (.inr h)
  | writeStatus v => rfl
  | eraseSector a => exact erase _
  | erasePage a => exact erase _
  | eraseAll => exact erase _

/-- Settles O44: outside a power cycle the array changes by the effect of a cycle that ends, where the effect may. -/
theorem arrayChangesOnlyByAWriteCycle : Obligations.ArrayChangesOnlyByAWriteCycle := by
  intro s t x h hne
  obtain ⟨rest, ha, -⟩ | hf := device_cases h
  · exact .inl ⟨rest, ha⟩
  obtain hsame | ⟨hbusy, hleft, hend⟩ := hf.array
  · exact absurd (by rw [hsame]) hne
  rw [hend, Rdm.endCycle_array] at hne
  cases hp : s.rdm.pending with
  | none => rw [hp] at hne; exact absurd rfl hne
  | some c =>
    rw [hp] at hne
    have hx : x < s.cfg.deviceSize ∧ protectedAt s.cfg c.bp x = false :=
      not_not.mp fun hn => hne (Effect.read_onArray_outside s.cfg c.bp s.rdm.array x c.effect hn)
    exact .inr ⟨c, rfl, hbusy, hleft, hx⟩

/-- Settles O42: the effect is the assignment of the three bits. -/
theorem statusWriteSetsNv : Obligations.StatusWriteSetsNv := fun _ _ _ _ => rfl

/-- A cycle keeps its effect with the level of the device that starts it (20_memory.md R104, R111). -/
theorem startCycle_pending (s : State) (e : Effect) :
    (s.startCycle e).rdm.pending = some { effect := e, bp := s.rdm.bp } := by
  rw [State.startCycle_eq, State.setRdm_rdm]

/-- The end of a cycle applies its effect under the level kept with it (20_memory.md R104, R111). -/
theorem endCycle_array_of_pending (cfg : Config) {d : Rdm} {c : Cycle} (h : d.pending = some c) :
    (d.endCycle cfg).array = (c.effect.apply cfg c.bp d).array := by
  simp [Rdm.endCycle, h]

/-- Settles O43: the level is read when the cycle starts, and each level's range is its own case. -/
theorem protectedRanges : Obligations.ProtectedRanges :=
  fun cfg _ s _ e _ => ⟨startCycle_pending s e, endCycle_array_of_pending cfg, rfl, rfl, rfl, rfl⟩

end Sys2Proof.Safety

/-! The wire instructions as the device runs them (20_memory.md R102 to R105, R108, R111, R113 to R115): one rule for each
way the device reacts to a byte or to the end of a frame, and from them what each instruction does. -/

namespace Sys2Proof.Safety

open Sys2Proof.Machine

/-! ### The rules of a reaction -/

section
variable {s : State} {wakes : Bool} {j : Nat} {answer act : State → State}

/-- The end of a frame, to a device that is free to act (20_memory.md R103). -/
theorem react_frameArrived (h : FrameArrived s) : s.react wakes j answer act = (act s).clearEvent := by
  simp [State.react, h.event, State.endFrame, h.awake, h.idle]

/-- The end of a frame whose opcode has no act, and does not wake. -/
theorem react_frameEnd_id (h : s.rdm.event = some .frameEnd) : s.react false j answer id = s.clearEvent := by
  simp [State.react, h, State.endFrame]

/-- The end of a frame, to a busy device. -/
theorem react_frameEnd_busy (h : s.rdm.event = some .frameEnd) (hd : s.rdm.dpd = false) (hw : s.rdm.wip = true) :
    s.react wakes j answer act = s.clearEvent := by
  simp [State.react, h, State.endFrame, hd, hw]

/-- The end of a frame that does not wake, to a powered-down device. -/
theorem react_frameEnd_asleep (h : s.rdm.event = some .frameEnd) (hd : s.rdm.dpd = true) (hk : wakes = false) :
    s.react wakes j answer act = s.clearEvent := by
  simp [State.react, h, State.endFrame, hd, hk]

/-- The end of a frame that wakes and does nothing else. -/
theorem react_frameEnd_wakes (h : s.rdm.event = some .frameEnd) :
    s.react true j answer id = (s.setRdm { s.rdm with dpd := false }).clearEvent := by
  cases hd : s.rdm.dpd with
  | true => simp [State.react, h, State.endFrame, hd]
  | false =>
    have same : s = s.setRdm { s.rdm with dpd := false } := by rw [← hd]; rfl
    rw [← same]
    simp [State.react, h, State.endFrame, hd]

/-- A byte that the opcode answers: the device is awake or the opcode wakes, and it is not byte 0 (20_memory.md R102). -/
theorem react_byte_answered (h : s.rdm.event = some .byte) (hd : s.rdm.dpd = false ∨ wakes = true) (hj : j ≠ 0) :
    s.react wakes j answer act = (answer s).clearEvent := by
  have listens : (s.rdm.dpd && !wakes) = false := by obtain hd | hd := hd <;> simp [hd]
  simp [State.react, h, State.answerByte, listens, hj]

/-- A byte answered by a draw: the device is powered down and the opcode does not wake, or it is byte 0, or the opcode has
no other answer to it (20_memory.md R102). -/
theorem react_byte_drawn (h : s.rdm.event = some .byte)
    (hd : (s.rdm.dpd = true ∧ wakes = false) ∨ j = 0 ∨ answer s = s.driveDraw) :
    s.react wakes j answer act = s.driveDraw.clearEvent := by
  obtain ⟨hd, hk⟩ | hj | ha := hd
  · simp [State.react, h, State.answerByte, hd, hk]
  · simp [State.react, h, State.answerByte, hj]
  · simp [State.react, h, State.answerByte, ha]

/-- A draw takes the next scripted byte. -/
theorem driveDraw_of_scripted {d : Byte} {l : List Byte} (h : s.env.byteDraws = d :: l) :
    s.driveDraw = { s with rdm := { s.rdm with out := d }, env := { s.env with byteDraws := l } } := by
  simp [State.driveDraw, State.drawByte, h, State.drive, State.setRdm]

/-- The start of a write cycle takes the next scripted length (20_memory.md R104). -/
theorem startCycle_of_scripted {n : BusyLen} {l : List BusyLen} (e : Effect) (h : s.env.busyDraws = n :: l) :
    s.startCycle e =
      { s with rdm := { s.rdm with wip := true, pending := some { effect := e, bp := s.rdm.bp }, busyLeft := n },
               env := { s.env with busyDraws := l } } := by
  simp [State.startCycle, State.drawBusy, h, State.setRdm]

end

/-- What every frame with an opcode has in common: its instruction reacts through `State.react`, at the index of its last
byte; 0xAB alone wakes, and the opcodes but 0x05, 0x03 and 0xAB have a draw for every answer (20_memory.md R102, R103). -/
theorem exec_eq_react {fb : List Byte} {i : Instr} (h : decodeFrame fb = .ok i) :
    ∃ wakes answer act, (∀ s, exec i s = .next (s.react wakes (fb.length - 1) answer act)) ∧
      ((∀ l, fb ≠ 0xAB#8 :: l) → wakes = false) ∧
      ((∀ l, fb ≠ 0x05#8 :: l ∧ fb ≠ 0x03#8 :: l ∧ fb ≠ 0xAB#8 :: l) → answer = State.driveDraw) := by
  unfold decodeFrame at h
  split at h
  · cases h
  · next tail =>
    split at h <;> cases h
    case h_1 => -- READ
      exact ⟨_, _, _, fun _ => rfl, fun _ => rfl, fun hn => absurd rfl (hn tail).2.1⟩
    case h_5 => -- READ-STATUS
      exact ⟨_, _, _, fun _ => rfl, fun _ => rfl, fun hn => absurd rfl (hn tail).1⟩
    case h_10 => -- RELEASE/READ-ID
      exact ⟨_, _, _, fun _ => rfl, fun hn => absurd rfl (hn tail), fun hn => absurd rfl (hn tail).2.2⟩
    all_goals exact ⟨_, _, _, fun _ => rfl, fun _ => rfl, fun _ => rfl⟩

/-- A frame whose byte 0 is outside the opcode set selects no instruction (30_encoding.md R150). -/
theorem decodeFrame_of_unknown {op : Byte} (tail : List Byte)
    (h : op ∉ [0x03#8, 0x02#8, 0x06#8, 0x04#8, 0x05#8, 0x01#8, 0x42#8, 0xD8#8, 0xC7#8, 0xAB#8, 0xB9#8]) :
    decodeFrame (op :: tail) = .error (.unknownOpcode op) := by
  unfold decodeFrame
  dsimp only
  split
  case h_12 => rfl
  all_goals simp at h

/-- A device that owes a reaction has its turn first (20_memory.md R100). -/
theorem step_eq_deviceTurn {s : State} (h : s.rdm.event ≠ none) : step s = deviceTurn exec s := by
  obtain ⟨e, he⟩ := Option.ne_none_iff_exists'.mp h
  simp [step, turn, he]

/-- Settles O7: the turn is the device's, and it runs the instruction its frame decodes to. -/
theorem stepRunsTheWireInstruction : Obligations.StepRunsTheWireInstruction := by
  intro s i he hi
  rw [step_eq_deviceTurn he, deviceTurn, hi]

/-! ### The ends of frames -/

/-- Settles O31: the act of each is the assignment of the latch. -/
theorem enableAndDisableMoveTheLatch : Obligations.EnableAndDisableMoveTheLatch :=
  fun _ _ h => ⟨congrArg Host.Outcome.next (react_frameArrived h), congrArg Host.Outcome.next (react_frameArrived h)⟩

/-- Settles O32: 0xB9 has its act on a free device, and 0xAB wakes at any time. -/
theorem powerDownAndRelease : Obligations.PowerDownAndRelease :=
  fun _ _ => ⟨fun h => congrArg Host.Outcome.next (react_frameArrived h),
    fun h => congrArg Host.Outcome.next (react_frameEnd_wakes h)⟩

/-- The write-class frames, each with the bytes it needs after its opcode and its effect (20_memory.md R103). -/
def writeClassFrames (cfg : Config) (tail : List Byte) : List (Instr × Nat × Effect) :=
  [(.wireWrite tail, cfg.na + 1, .write (frameAddress cfg tail) (tail.drop cfg.na)),
   (.wireWriteStatus tail, 1, .writeStatus (tail.headD 0#8)),
   (.wirePageErase tail, cfg.na, .erasePage (frameAddress cfg tail)),
   (.wireSectorErase tail, cfg.na, .eraseSector (frameAddress cfg tail)),
   (.wireChipErase tail, 0, .eraseAll)]

/-- Each of them starts its cycle if the latch is set and its bytes have come (20_memory.md R103). -/
theorem exec_writeClass {s : State} {tail : List Byte} (h : FrameArrived s) {c : Instr × Nat × Effect}
    (hc : c ∈ writeClassFrames s.cfg tail) :
    exec c.1 s = .next (s.cycleIf (decide (c.2.1 ≤ tail.length)) c.2.2).clearEvent := by
  simp only [writeClassFrames, List.mem_cons, List.not_mem_nil, or_false] at hc
  obtain rfl | rfl | rfl | rfl | rfl := hc
  · exact congrArg Host.Outcome.next (react_frameArrived h)
  · refine (congrArg Host.Outcome.next (react_frameArrived h)).trans ?_
    cases tail with
    | nil => simp [State.cycleIf]
    | cons v tail => simp
  · exact congrArg Host.Outcome.next (react_frameArrived h)
  · exact congrArg Host.Outcome.next (react_frameArrived h)
  · refine (congrArg Host.Outcome.next (react_frameArrived h)).trans ?_
    simp

/-- Settles O33: the condition of the cycle holds, and its start takes the drawn length. -/
theorem writeClassFramesStartACycle : Obligations.WriteClassFramesStartACycle := by
  intro s tail n l h hw hb c hc hlen
  have starts : s.cycleIf (decide (c.2.1 ≤ tail.length)) c.2.2 = s.startCycle c.2.2 := by simp [State.cycleIf, hw, hlen]
  rw [exec_writeClass h hc, starts, startCycle_of_scripted _ hb]
  rfl

/-- Settles O34: the condition of the cycle fails. -/
theorem writeClassFramesNeedTheLatch : Obligations.WriteClassFramesNeedTheLatch := by
  intro s tail h c hc hno
  have mem : c ∈ (writeClassFrames s.cfg tail).map fun c => (c.1, c.2.1) := hc
  obtain ⟨⟨i, n, e⟩, hf, rfl⟩ := List.mem_map.mp mem
  have idle : s.cycleIf (decide (n ≤ tail.length)) e = s := by
    obtain hw | hlen := hno
    · simp [State.cycleIf, hw]
    · simp [State.cycleIf, Nat.not_le.mpr hlen]
  rw [exec_writeClass h hf, idle]
  rfl

/-- Settles O35: reads have no act, and a busy or a sleeping device ends every frame without one. -/
theorem frameEndsThatDoNothing : Obligations.FrameEndsThatDoNothing := by
  intro s tail fb i h
  refine ⟨congrArg Host.Outcome.next (react_frameEnd_id h), congrArg Host.Outcome.next (react_frameEnd_id h),
    fun hi hd hw => ?_, fun hi hd hfb => ?_⟩
  · obtain ⟨wakes, answer, act, hx, -⟩ := exec_eq_react hi
    rw [hx, react_frameEnd_busy h hd hw]
    rfl
  · obtain ⟨wakes, answer, act, hx, hk, -⟩ := exec_eq_react hi
    rw [hx, react_frameEnd_asleep h hd (hk hfb)]
    rfl

/-! ### The answers to bytes -/

/-- READ's answer to data byte `k` of a device that is free to answer is the cell's (20_memory.md R102, R108). -/
theorem exec_wireRead_data {s : State} {tail : List Byte} {k : Nat} (h : s.rdm.event = some .byte)
    (hd : s.rdm.dpd = false) (hw : s.rdm.wip = false) (hl : tail.length = s.cfg.na + 1 + k) :
    exec (.wireRead tail) s =
      .next (s.driveCell ((frameAddress s.cfg tail + k) % s.cfg.deviceSize)).clearEvent := by
  have hk : tail.length - 1 - s.cfg.na = k := by omega
  have hdata : s.cfg.na + 1 ≤ tail.length := by omega
  refine (congrArg Host.Outcome.next (react_byte_answered h (.inl hd) (by omega))).trans ?_
  simp [hk, hdata, hw]

/-- Settles O36: a cell drives the byte it holds, and draws where it holds none. -/
theorem readAnswersTheArray : Obligations.ReadAnswersTheArray := by
  intro s tail k h hd hw hl
  refine ⟨fun v hv => ?_, fun d l hv hb => ?_⟩ <;> rw [exec_wireRead_data h hd hw hl, State.driveCell, hv]
  · rfl
  · rw [driveDraw_of_scripted hb]
    rfl

/-- Settles O38: the opcode wakes, so it answers powered down or not. -/
theorem readIdAnswersTheId : Obligations.ReadIdAnswersTheId := by
  intro s tail h hw hl
  refine (congrArg Host.Outcome.next (react_byte_answered h (.inr rfl) (by omega))).trans ?_
  rw [if_pos (by simp [hl, hw])]
  rfl

/-- The condition of READ and 0xAB for an answer of their own fails before byte `n`, and while the device is busy. -/
theorem not_answerable {n j : Nat} {busy : Bool} (h : j < n ∨ busy = true) : ¬ (decide (n ≤ j) && !busy) = true := by
  obtain hj | hb := h
  · simp [Nat.not_le.mpr hj]
  · simp [hb]

/-- Settles O39: each of them falls under `react_byte_drawn`. -/
theorem otherBytesAnswerADraw : Obligations.OtherBytesAnswerADraw := by
  intro s d l h hb
  have drawn : s.driveDraw.clearEvent =
      { s with rdm := { s.rdm with out := d, event := none }, env := { s.env with byteDraws := l } } := by
    rw [driveDraw_of_scripted hb]
    rfl
  rw [← drawn]
  refine ⟨fun fb i hi hno => ?_, fun tail hno => ?_, fun tail hno => ?_, fun op tail hf hno => ?_⟩
  · obtain ⟨wakes, answer, act, hx, hk, ha⟩ := exec_eq_react hi
    rw [hx, react_byte_drawn h]
    obtain hlen | ⟨hd, hfb⟩ | hfb := hno
    · exact .inr (.inl (by omega))
    · exact .inl ⟨hd, hk hfb⟩
    · exact .inr (.inr (by rw [ha hfb]))
  · exact congrArg Host.Outcome.next
      (react_byte_drawn h (.inr (.inr (if_neg (not_answerable (hno.imp_left Nat.lt_succ_of_le))))))
  · exact congrArg Host.Outcome.next
      (react_byte_drawn h (.inr (.inr (if_neg (not_answerable (hno.imp_left Nat.lt_succ_of_le))))))
  · rw [step_eq_deviceTurn (by simp [h]), deviceTurn, hf, decodeFrame_of_unknown tail hno]
    exact congrArg Host.Outcome.next (react_byte_drawn h (.inr (.inr rfl)))

/-! ### The status byte -/

/-- Bit `i` of the status byte, its fields laid end to end (20_memory.md R104, R105). -/
theorem statusByte_getElem (d : Rdm) (i : Nat) (hi : i < 8) :
    d.statusByte[i] = if i < 1 then d.wip else if i < 2 then d.wel else if i < 3 then d.bp0
      else if i < 4 then d.bp1 else if i < 7 then false else d.wpen := by
  unfold Rdm.statusByte
  grind

/-- A poll of a device that is not busy changes nothing (20_memory.md R104). -/
theorem poll_of_idle (cfg : Config) {d : Rdm} (h : d.wip = false) : d.poll cfg = d := by simp [Rdm.poll, h]

/-- A poll counts one busy poll of a write cycle. -/
theorem poll_of_polls_succ (cfg : Config) {d : Rdm} {n : Nat} (h : d.wip = true) (hb : d.busyLeft = .polls (n + 1)) :
    d.poll cfg = { d with busyLeft := .polls n } := by simp [Rdm.poll, h, hb]

/-- A poll of a device that never settles changes nothing. -/
theorem poll_of_forever (cfg : Config) {d : Rdm} (h : d.wip = true) (hb : d.busyLeft = .forever) : d.poll cfg = d := by
  simp [Rdm.poll, h, hb]

/-- The last poll of a write cycle applies its effect. -/
theorem poll_of_polls_zero (cfg : Config) {d : Rdm} {c : Cycle} (h : d.wip = true) (hb : d.busyLeft = .polls 0)
    (hp : d.pending = some c) :
    d.poll cfg = { c.effect.apply cfg c.bp d with pending := none, wip := false, wel := false } := by
  simp [Rdm.poll, h, hb, Rdm.endCycle, hp]

/-- Settles O37: the answer is the status byte after the poll, and the poll is one of its four cases. -/
theorem readStatusAnswersAndCounts : Obligations.ReadStatusAnswersAndCounts := by
  intro s tail h hd ht
  refine ⟨{ s.rdm.poll s.cfg with out := (s.rdm.poll s.cfg).statusByte, event := none },
    congrArg Host.Outcome.next (react_byte_answered h (.inl hd) (by simpa using ht)),
    ?_, ?_, ?_, ?_, ?_, ?_, ?_, ?_, ?_, ?_⟩
  · simp [statusByte_getElem]
  · simp [statusByte_getElem]
  · simp [statusByte_getElem]
  · simp [statusByte_getElem]
  · ext i hi
    have : i = 0 ∨ i = 1 ∨ i = 2 := by omega
    obtain rfl | rfl | rfl := this <;> simp [statusByte_getElem]
  · simp [statusByte_getElem]
  · intro hw; rw [poll_of_idle _ hw]
  · intro n hw hb; rw [poll_of_polls_succ _ hw hb]
  · intro hw hb; rw [poll_of_forever _ hw hb]
  · intro c hw hb hp; rw [poll_of_polls_zero _ hw hb hp]

end Sys2Proof.Safety

/-! A write and then a read of the attached device (95_test_vectors.md E6, 90_conflicts.md C10): one whole WRITE and one
whole READ over `Attached`, from ACCEPT to COMPLETE, and the byte that comes back. -/

namespace Sys2Proof.Safety

open Sys2Proof.Machine

/-! ### The address on the wire -/

/-- The address bytes, read as one number, are the address in the profile's width (20_memory.md R82,
42_address_framing.md R220). -/
theorem bytesToNat_address (cfg : Config) (a : Addr) :
    bytesToNat ((addressOrder cfg).map (byteOf a)) = a.toNat % 2 ^ cfg.aw := by
  have hlt := a.isLt
  cases hp : cfg.profile <;>
    simp [addressOrder, Config.aw, hp, bytesToNat, byteOf, Nat.shiftRight_eq_div_pow] <;> omega

/-- The device takes from a frame the existing address that was sent (20_memory.md R80, R113). -/
theorem frameAddress_of_sent {cfg : Config} (hwf : cfg.wf = true) {a : Addr} (ha : a.toNat < cfg.deviceSize)
    (l : List Byte) : frameAddress cfg ((addressOrder cfg).map (byteOf a) ++ l) = a.toNat := by
  obtain ⟨-, hsize, -⟩ := bounds_of_wf hwf
  rw [frameAddress, List.take_left' (by rw [List.length_map, addressOrder_length]), bytesToNat_address,
    Nat.mod_eq_of_lt (Nat.lt_of_lt_of_le ha hsize), Nat.mod_eq_of_lt ha]

/-! ### The ends of a command over the attached device -/

/-- ACCEPT of a legal command by an idle machine whose device owes nothing (10_state.md R42). -/
theorem step_accept_attached {s : State} {w : CmdWord} {n : Nat} {data : List Byte} {r : List HostAct} {i : Instr}
    (he : s.rdm.event = none) (hi : s.seq = .idle) (ha : s.env.acts = .accept w n data :: r)
    (hd : decodeHost w n data = .ok i) (hw : i.wellFormed s.cfg = true) (hatt : s.cfg.rdmAttached = true)
    (hq : r = [] ∨ ∃ w n l r', r = .accept w n l :: r') :
    ∃ t, step s = .next t ∧
      Attached ⟨s.cfg, addrField w, data, r, s.env.busyDraws, rdataOf i⟩ t (startOf s.cfg i) none s.rdm := by
  refine ⟨((s.setActs r).latch w n data).start (rdataOf i) (startOf s.cfg i), ?_,
    ⟨rfl, rfl, rfl, hatt, rfl, rfl, rfl, hq, rfl, rfl, rfl, rfl, he⟩⟩
  · rw [stepRunsTheAcceptedCommand s w n data r i he hi ha hd, exec_accept w n data i hd]
    exact congrArg Host.Outcome.next ((congrArg (accept w n data · _ _ _) hw).trans (accept_legal _ _ _ _ _ _ hi))

/-- The command is complete without an error, `RDATA` is that of `c`, and the device is in the state `d` but for the byte
it drives. -/
structure Finished (c : Ctx) (s : State) (d : Rdm) : Prop where
  idle : s.seq = .idle
  cfg : s.cfg = c.cfg
  acts : s.env.acts = c.acts
  done : s.done = true
  err : s.err = false
  rdata : s.rdata = some c.rdata
  rdm : s.rdm = { d with out := s.rdm.out }
  noEvent : d.event = none

section
variable {c : Ctx} {s : State} {l : Option Byte} {d : Rdm}

/-- A command with nothing left but its end is complete after one step (10_state.md R43). -/
theorem Attached.reach_finished {x : State} {code : List Micro} {Q : State → Prop} (h : Attached c s code l d)
    (hx : nextAction code s = .ok (x, .complete)) (k : ∀ t, Finished c t d → Q t) : Reach s Q := by
  obtain ⟨hs, hf⟩ := h.complete hx
  exact .step hs (.here (k _ ⟨rfl, hf.cfg, hf.acts, rfl, hf.err, hf.rdata, hf.rdm, hf.noEvent⟩))

/-! ### WRITE and READ -/

/-- WRITE of one byte to a settled, awake device (43_write_path.md R234, R235): the device's cycle ends, and its array is
that after the data write. -/
theorem Attached.write_one (h : Attached c s (writeSeq c.cfg 1) l d) {v : Byte} {n : Nat} {busy : List BusyLen}
    (hdata : c.data = [v]) (hbusy : c.busy = .polls n :: busy) (hlim : c.cfg.pollLimit = none) (hd : d.dpd = false)
    (hw : d.wip = false) :
    Reach s fun t => ∃ z, Finished { c with busy := busy } t z ∧ z.wip = false ∧ z.dpd = false ∧
      z.array = (Effect.onArray c.cfg d.bp d.array
        (.write (frameAddress c.cfg ((addressOrder c.cfg).map (byteOf c.addr) ++ [v])) [v])) := by
  have hna : ((addressOrder c.cfg).map (byteOf c.addr)).length = c.cfg.na := by
    rw [List.length_map, addressOrder_length]
  simp only [writeSeq, beginWrite, List.append_assoc] at h
  refine h.awaitSettled (x := s.setPollCnt 0) rfl hd hw fun t1 b1 hb1 h1 => ?_
  refine h1.enableWrite (nextAction_settled (localStatus_of h1.upc rfl) hb1) hd hw fun t2 h2 => ?_
  refine h2.assert rfl fun t3 h3 => h3.send rfl (answers_opcode rfl) rfl fun t4 h4 => ?_
  refine Attached.sendAddress (addressOrder c.cfg) h4 (fun pre b _ => answers_write (l := pre) rfl) fun t5 h5 => ?_
  refine h5.send (b := v) ?_ (answers_write rfl) rfl fun t6 h6 => ?_
  · simp [State.source, h5.wdata, hdata, valueOf, Except.bind]
  refine h6.deassert rfl (reacts_write (tail := (addressOrder c.cfg).map (byteOf c.addr) ++ [v]) (by simp) rfl hd hw rfl
    (by simp [hna]) hbusy) rfl fun t7 h7 => ?_
  refine Attached.awaitBusy (rest := []) n h7 (x := t7.setPollCnt 0) rfl hlim hd rfl rfl rfl
    fun t8 b8 z hb8 hzw hzd _ hz h8 => ?_
  refine h8.reach_finished (nextAction_settled (localStatus_of h8.upc rfl) hb8) fun t9 h9 => ⟨z, h9, hzw, hzd, ?_⟩
  have data : ((addressOrder c.cfg).map (byteOf c.addr) ++ [v]).drop c.cfg.na = [v] := List.drop_left' hna
  exact hz.trans (congrArg (fun l => Effect.onArray c.cfg d.bp d.array (.write _ l)) data)

/-- READ of one byte that the device holds (44_read_path.md R250). -/
theorem Attached.read_one (h : Attached c s (readSeq c.cfg 1) l d) {v : Byte} (hrdata : c.rdata = [none])
    (hd : d.dpd = false) (hw : d.wip = false)
    (hv : d.array.read (frameAddress c.cfg ((addressOrder c.cfg).map (byteOf c.addr) ++ [c.cfg.filler]) % c.cfg.deviceSize)
      = some v) :
    Reach s fun t => ∃ z, Finished { c with rdata := [some v] } t z ∧ z.array = d.array := by
  have hna : ((addressOrder c.cfg).map (byteOf c.addr)).length = c.cfg.na := by
    rw [List.length_map, addressOrder_length]
  simp only [readSeq, List.append_assoc] at h
  refine h.assert rfl fun t1 h1 => h1.send rfl (answers_opcode rfl) rfl fun t2 h2 => ?_
  refine Attached.sendAddress (addressOrder c.cfg) h2
    (fun pre b hl => answers_readAddress (l := pre) rfl (addressOrder_length c.cfg ▸ hl)) fun t3 h3 => ?_
  refine h3.recvData (answers_readData (l := (addressOrder c.cfg).map (byteOf c.addr)) rfl hna hd hw hv) rfl fun t4 h4 => ?_
  rw [hrdata] at h4
  refine h4.deassert rfl (reacts_read (.inr rfl) rfl) rfl fun t5 h5 => ?_
  exact h5.reach_finished rfl fun t6 h6 => ⟨_, h6, rfl⟩

end

theorem decodeHost_write (a : Addr) (n : Nat) (data : List Byte) :
    decodeHost (hostWord 0x01#5 a) n data = .ok (.write a n data) := by simp [decodeHost]

theorem decodeHost_read (a : Addr) (n : Nat) (data : List Byte) :
    decodeHost (hostWord 0x02#5 a) n data = .ok (.read a n data) := by simp [decodeHost]

/-- Settles O56: WRITE stores the byte at the address sent, and READ finds it there. -/
theorem writeThenReadReturnsTheByte : Obligations.WriteThenReadReturnsTheByte := by
  intro s a v n l hwf hatt hlim ha hi _ he hw hd _ hp hb hacts
  obtain ⟨hmax, -⟩ := bounds_of_wf hwf
  -- WRITE, up to its COMPLETE
  obtain ⟨s1, hs1, h1⟩ := step_accept_attached he hi hacts (decodeHost_write a 1 [v])
    (by simpa [Instr.wellFormed] using hmax) hatt (.inr ⟨_, _, _, _, rfl⟩)
  rw [addrField_hostWord] at h1
  obtain ⟨j, t, hj, z, ht, hzw, hzd, hz⟩ := Reach.step hs1 (h1.write_one rfl hb hlim hd hw)
  have stored : z.array.read a.toNat = some v := by
    rw [hz]
    simp only [frameAddress_of_sent hwf ha]
    obtain ⟨-, hlast, -⟩ := pageWriteStoresTheBytes s.cfg s.rdm.bp s.rdm a.toNat [v] hwf ha
    have first : pageAddress s.cfg a.toNat 0 = a.toNat := by
      have := Nat.mod_le a.toNat s.cfg.pageSize
      simp only [pageAddress, Nat.add_zero, Nat.mod_mod]
      omega
    have := hlast 0 v rfl
    rw [first] at this
    exact this hp fun k hk hl => absurd hl (by simp; omega)
  -- READ, up to its COMPLETE
  have hte : t.rdm.event = none := by rw [ht.rdm]; exact ht.noEvent
  obtain ⟨t1, ht1, g1⟩ := step_accept_attached hte ht.idle ht.acts (decodeHost_read a 1 [])
    (by rw [ht.cfg]; simpa [Instr.wellFormed] using hmax) (by rw [ht.cfg]; exact hatt) (.inl rfl)
  rw [addrField_hostWord, ht.cfg, ht.rdm] at g1
  have found : z.array.read (frameAddress s.cfg ((addressOrder s.cfg).map (byteOf a) ++ [s.cfg.filler]) % s.cfg.deviceSize)
      = some v := by
    rw [frameAddress_of_sent hwf ha, Nat.mod_eq_of_lt ha, stored]
  obtain ⟨k, u, hk, y, hu, hy⟩ := Reach.step ht1 (g1.read_one rfl hzd hzw found)
  refine ⟨j, t, k, u, hj, ht.idle, ht.acts, ht.done, ht.err, hk, hu.idle, hu.acts, hu.done, hu.err, hu.rdata, ?_⟩
  rw [hu.rdm]
  exact (congrArg (Memory.read · a.toNat) hy).trans stored

end Sys2Proof.Safety

/-! Encoding (30_encoding.md): the decoders and the encoder are inverse to each other, what selects an instruction on
either port, and the refusal of an illegal command. -/

namespace Sys2Proof.Safety

open Sys2Proof.Machine

/-! ### The decoders and the encoder -/

/-- Each constructor's encoding has the `OP` or the byte 0 of its own arm (30_encoding.md R141, R150). -/
theorem decode_encode (i : Instr) : decode (encode i) = .ok i := by
  cases i with
  | write | read | readId | dpdEnter | dpdRelease | eraseSector | eraseChip | protectNone | protectUpperQuarter
  | protectUpperHalf | protectAll | hwProtectEnable | hwProtectDisable | isWip | isWpen | isBp0 | isBp1 =>
    simp [encode, decode, decodeHost]
  | wireRead | wireWrite | wireWriteEnable | wireWriteDisable | wireReadStatus | wireWriteStatus | wirePageErase
  | wireSectorErase | wireChipErase | wireReleaseReadId | wireDeepPowerDown => rfl

/-- A selected command has `RSV` = 0, so its word is the word of its fields (30_encoding.md R140, R142). -/
theorem encode_of_decodeHost {w : CmdWord} {n : Nat} {d : List Byte} {i : Instr} (h : decodeHost w n d = .ok i) :
    encode i = .host w n d := by
  unfold decodeHost at h
  split at h
  · cases h
  · next hr =>
    have hw := hostWord_fields w (by simpa using hr)
    split at h <;> cases h <;> next ho => rw [ho] at hw; exact congrArg (Encoded.host · n d) hw

theorem encode_of_decodeFrame {fb : List Byte} {i : Instr} (h : decodeFrame fb = .ok i) : encode i = .frame fb := by
  unfold decodeFrame at h
  split at h
  · cases h
  · split at h <;> cases h <;> rfl

/-- Settles O1: `decode_encode`, constructor by constructor. -/
theorem decodeOfEncodeIsTheInstruction : Obligations.DecodeOfEncodeIsTheInstruction := decode_encode

/-- Settles O2: each port's decoder reads what the encoder writes. -/
theorem encodeOfDecodedIsTheEncoding : Obligations.EncodeOfDecodedIsTheEncoding := by
  intro e i h
  cases e with
  | host w n d => exact encode_of_decodeHost h
  | frame fb => exact encode_of_decodeFrame h

/-! ### What selects an instruction -/

/-- `RSV` = 0 and an assigned `OP` select a command, and nothing else does (30_encoding.md R142). -/
theorem decodeHost_ok_iff (w : CmdWord) (n : Nat) (d : List Byte) :
    (∃ i, decodeHost w n d = .ok i) ↔
      rsvField w = 0#3 ∧ 0x01 ≤ (opField w).toNat ∧ (opField w).toNat ≤ 0x11 := by
  unfold decodeHost
  split
  · next hr => simp [hr]
  · next hr =>
    have hr : rsvField w = 0#3 := by simpa using hr
    split
    case h_18 =>
      -- the arm of no assigned `OP`
      simp only [reduceCtorEq, exists_false, false_iff]
      simp only [BitVec.toNat_eq, BitVec.toNat_ofNat, imp_false] at *
      omega
    all_goals next ho => simp [hr, ho]

/-- `RSV` and `OP` are fields of the low byte (30_encoding.md R140). -/
theorem fields_eq_of_low {v w : CmdWord} (h : v.extractLsb' 0 8 = w.extractLsb' 0 8) :
    rsvField v = rsvField w ∧ opField v = opField w := by
  have low : ∀ i < 8, v.getLsbD i = w.getLsbD i := fun i hi => by
    simpa [hi] using congrArg (BitVec.getLsbD · i) h
  constructor
  · unfold rsvField
    ext i hi
    simpa using low (5 + i) (by omega)
  · unfold opField
    ext i hi
    simpa using low i (by omega)

/-- A selected command is encoded with the fields of its word. -/
theorem encode_of_decodeHost_fields {w : CmdWord} {n : Nat} {d : List Byte} {i : Instr} (h : decodeHost w n d = .ok i) :
    encode i = .host (hostWord (opField w) (addrField w)) n d := by
  obtain ⟨hr, -⟩ := (decodeHost_ok_iff w n d).1 ⟨i, h⟩
  rw [hostWord_fields w hr, encode_of_decodeHost h]

/-- Settles O3: the selection reads `RSV` and `OP` only, which are the low byte. -/
theorem commandSelectedByLowByte : Obligations.CommandSelectedByLowByte := by
  refine ⟨decodeHost_ok_iff, fun w n d i h => ⟨encode_of_decodeHost_fields h, fun v hv => ?_⟩⟩
  obtain ⟨hr, ho⟩ := fields_eq_of_low hv
  have selected : ∃ j, decodeHost v n d = .ok j := by
    rw [decodeHost_ok_iff, hr, ho, ← decodeHost_ok_iff w n d]
    exact ⟨i, h⟩
  obtain ⟨j, hj⟩ := selected
  have hj' := encode_of_decodeHost_fields hj
  rw [ho] at hj'
  exact ⟨j, hj, hj'⟩

/-- Settles O4: the encoding of a wire instruction begins with its opcode, and each opcode has its arm. -/
theorem frameSelectedByOpcode : Obligations.FrameSelectedByOpcode := by
  intro fb
  constructor
  · rintro ⟨i, h⟩
    have he := encode_of_decodeFrame h
    cases i <;> cases he <;> exact ⟨_, _, rfl, by decide⟩
  · rintro ⟨op, tail, rfl, hop⟩
    simp only [List.mem_cons, List.not_mem_nil, or_false] at hop
    rcases hop with rfl | rfl | rfl | rfl | rfl | rfl | rfl | rfl | rfl | rfl | rfl <;> exact ⟨_, rfl⟩

/-! ### The refusal of an illegal command -/

/-- The conditions of 30_encoding.md R143 on a word with `RSV` = 0. -/
theorem illegal_hostWord (cfg : Config) (op : BitVec 5) (addr : Addr) (n : Nat) (d : List Byte) :
    illegal cfg (hostWord op addr) n d ↔
      (op = 0x00#5 ∨ 0x12 ≤ op.toNat) ∨ ((op = 0x02#5 ∨ op = 0x01#5) ∧ cfg.maxLen < n) ∨
        (op = 0x01#5 ∧ d.length ≠ n) := by
  unfold illegal
  rw [← rsvField, ← opField]
  simp

/-- A command that is illegal and yet selected breaks condition 3 or 4 of 30_encoding.md R143, which are those of
`wellFormed`. -/
theorem not_wellFormed_of_illegal {cfg : Config} {w : CmdWord} {n : Nat} {d : List Byte} {i : Instr}
    (hl : illegal cfg w n d) (h : decodeHost w n d = .ok i) : i.wellFormed cfg = false := by
  have he := encode_of_decodeHost h
  cases i with
  | write => cases he; simpa [illegal_hostWord, Instr.wellFormed, imp_iff_not_or, Nat.not_le] using hl
  | read => cases he; simpa [illegal_hostWord, Instr.wellFormed] using hl
  | _ => cases he <;> simp [illegal_hostWord] at hl

/-- ACCEPT of an illegal triple, selected or not, is its refusal (10_state.md R42, 30_encoding.md R143). -/
theorem acceptWord_of_illegal {s : State} {w : CmdWord} {n : Nat} {d : List Byte} (hi : s.seq = .idle)
    (hl : illegal s.cfg w n d) : acceptWord exec w n d s = .next (s.latch w n d).refuse := by
  unfold acceptWord
  cases h : decodeHost w n d with
  | error e => exact congrArg _ (accept_illegal _ _ _ _ _ _ hi)
  | ok i =>
    change exec i s = _
    rw [exec_accept w n d i h, not_wellFormed_of_illegal hl h, accept_illegal _ _ _ _ _ _ hi]

/-- What the refusal of a command by an idle machine leaves (10_state.md R42). -/
theorem refuse_latch_eq {s : State} (w : CmdWord) (n : Nat) (d : List Byte) (hi : s.seq = .idle) :
    (s.latch w n d).refuse =
      { s with
        op := some (opField w), addr := some (addrField w), len := some n, wdata := some d,
        done := true, err := true, errcode := 1#2, rbit := false, rdata := some [],
        trace := s.trace ++ [.accept w n d, .complete (s.latch w n d).refuse.resp] } := by
  have trace : (s.latch w n d).refuse.trace = s.trace ++ [.accept w n d, .complete (s.latch w n d).refuse.resp] :=
    (State.takeException_trace _ _).trans (List.append_assoc ..)
  rw [← trace]
  cases s
  cases hi
  rfl

/-- Settles O9: the turn is the host's, and its act is the ACCEPT of an illegal triple. -/
theorem illegalCommandIsRefused : Obligations.IllegalCommandIsRefused := by
  intro s w n d rest he hi ha hl
  have refused : hostTurn exec (.accept w n d) rest s = .next ((s.setActs rest).latch w n d).refuse := by
    simp only [hostTurn, hi]
    exact acceptWord_of_illegal (s := s.setActs rest) hi hl
  exact ⟨_, (step_eq_hostTurn he ha).trans refused, refuse_latch_eq w n d hi⟩

end Sys2Proof.Safety

/-! Status and timing (41_status_timing.md): the status queries, the await's test, and an await of a device that stays
busy, over a transport with no device model. -/

namespace Sys2Proof.Safety

open Sys2Proof.Machine

/-! ### The status queries -/

/-- What ACCEPT of a legal command by an idle machine leaves (10_state.md R42), by the fields of its word. -/
theorem start_latch_hostWord (s : State) (op : BitVec 5) (addr : Addr) (n : Nat) (d : List Byte)
    (r : List (Option Byte)) (c : List Micro) :
    (s.latch (hostWord op addr) n d).start r c =
      { s with
        op := some op, addr := some addr, len := some n, wdata := some d,
        done := false, err := false, errcode := 0#2, rbit := false,
        rdata := some r, pollCnt := 0, seq := .run, upc := some { code := c, s := none },
        trace := s.trace ++ [.accept (hostWord op addr) n d] } := by
  simp [State.latch, State.start, State.record]

/-- A query of bit `k` (41_status_timing.md R201 to R204): its status frame, then the bit is taken in the step of
`complete()`. -/
theorem query_completes {s : State} {i : Instr} {op : BitVec 5} {addr : Addr} {n k : Nat} {d : List Byte} {x v : Byte}
    {r : List Answer} (h : Ready s [x, v] r) (hd : decodeHost (hostWord op addr) n d = .ok i)
    (hw : i.wellFormed s.cfg = true) (hc : startOf s.cfg i = queryBit k) (hr : rdataOf i = []) :
    ∃ t u, exec i s = .next t ∧ runs 5 t = .next u ∧
      u.trace = commandTrace s op addr n d (pollEvents s.cfg (x, v)) u ∧
      u = { ended s op addr n d r u with srLast := some v, rbit := v.getLsbD k } := by
  obtain ⟨accepted, free⟩ := exec_ready h hd hw
  rw [hc, hr, start_latch_hostWord] at accepted free
  have reads := runs_readStatus (rest := [.compute (.takeBit k)]) free h.csHigh rfl h.answers
  refine ⟨_, _, accepted, (runs_append reads).trans (runs_single (step_queryEnd rfl
    (by exact ⟨free.running, free.noActs, free.noEvent, free.freeTransport⟩))), rfl, ?_⟩
  have high : s = { s with csN := true } := by rw [← h.csHigh]
  rw [high]
  rfl

/-- Settles O12: the four commands are queries of their own bit. -/
theorem statusQueriesComplete : Obligations.StatusQueriesComplete := by
  intro s addr n d x v r h c hc
  simp only [List.mem_cons, List.not_mem_nil, or_false] at hc
  rcases hc with rfl | rfl | rfl | rfl
  · exact query_completes h (decode_encode (.isWip addr n d)) rfl rfl rfl
  · exact query_completes h (decode_encode (.isWpen addr n d)) rfl rfl rfl
  · exact query_completes h (decode_encode (.isBp0 addr n d)) rfl rfl rfl
  · exact query_completes h (decode_encode (.isBp1 addr n d)) rfl rfl rfl

/-! ### The await's test -/

theorem limitReached_iff (s : State) : s.limitReached = true ↔ ∃ k, s.cfg.pollLimit = some k ∧ k ≤ s.pollCnt := by
  unfold State.limitReached
  cases s.cfg.pollLimit <;> simp

/-- A busy byte at the poll limit (41_status_timing.md R206). -/
theorem nextAction_busyAtLimit {s : State} {v : Byte} {k : Nat} (code : List Micro) (h : s.localStatus = .ok v)
    (hv : v.getLsbD 0 = true) (hk : s.cfg.pollLimit = some k) (hle : k ≤ s.pollCnt + 1) :
    nextAction (.compute .pollTest :: code) s = .ok (s.setPollCnt (s.pollCnt + 1), .raise .deviceNotResponding) := by
  have reached : (s.setPollCnt (s.pollCnt + 1)).limitReached = true := (limitReached_iff _).mpr ⟨k, hk, hle⟩
  simp only [nextAction, h, Except.bind, hv, reached, if_true]

/-- A busy byte below the poll limit (41_status_timing.md R205). -/
theorem nextAction_busyBelowLimit {s : State} {v : Byte} (code : List Micro) (h : s.localStatus = .ok v)
    (hv : v.getLsbD 0 = true) (hk : ∀ k, s.cfg.pollLimit = some k → s.pollCnt + 1 < k) :
    nextAction (.compute .pollTest :: code) s =
      .ok (s.setPollCnt (s.pollCnt + 1), .event (.wait .pollDelay) (awaitLoop ++ code)) := by
  have below : (s.setPollCnt (s.pollCnt + 1)).limitReached = false := Bool.eq_false_iff.mpr fun hr => by
    obtain ⟨k, hlim, hle⟩ := (limitReached_iff _).mp hr
    exact absurd hle (Nat.not_le.mpr (hk k hlim))
  simp only [nextAction, h, Except.bind, hv, below, if_true, Bool.false_eq_true, if_false]

/-- Settles O22: the test raises, waits or goes on, and a step goes on to the next bus event or to the end. -/
theorem awaitTestDecides : Obligations.AwaitTestDecides := by
  intro s code v ⟨hr, ⟨u, hu, hcode⟩, hacts, hev, hfree, _⟩ hcs ⟨u', hu', hv⟩
  cases hu.symm.trans hu'
  obtain ⟨c, l⟩ := u
  obtain rfl : c = .compute .pollTest :: code := hcode
  obtain rfl : l = some v := hv
  have free : Free s := ⟨hr, hacts, hev, hfree⟩
  have status : s.localStatus = .ok v := localStatus_of hu rfl
  refine ⟨?_, ?_, ?_, ?_, ?_⟩
  · intro k hb hk hle
    refine ⟨_, free.step_raise hu (nextAction_busyAtLimit code status hb hk hle), ?_⟩
    rw [State.abort_high (s.setPollCnt (s.pollCnt + 1)) _ hcs]
    rfl
  · intro hb hk
    exact (free.step_event hu (nextAction_busyBelowLimit code status hb hk)).trans
      (performEvent_waits (x := s.setPollCnt (s.pollCnt + 1)) _ hu _)
  · rintro hb r rfl
    exact (step_awaitEnd free hu hb).trans (performEvent_assert (x := { s with wphase := .idle }) hfree hu _)
  · rintro hb b r rfl
    exact (step_awaitEnd free hu hb).trans (performEvent_waits (x := { s with wphase := .idle }) b hu _)
  · rintro hb rfl
    exact ⟨_, step_awaitEndComplete hu hb free, rfl⟩

/-! ### An await without a poll limit -/

/-- Settles O21: each busy poll leads back to the start of the loop, and there is no limit that stops it. -/
theorem awaitOfBusyDeviceNeverEnds : Obligations.AwaitOfBusyDeviceNeverEnds := by
  intro s code polls rest ⟨hr, ⟨u, hu, hcode⟩, hacts, hev, hfree, hans⟩ hcs hlim hbusy
  have unlimited : ∀ k, s.cfg.pollLimit = some k → s.pollCnt + polls.length < k := fun k hk => by
    rw [hlim] at hk; cases hk
  obtain ⟨l, v, polled⟩ := runs_busyPolls code rest polls s u.s ⟨hr, hacts, hev, hfree⟩ hcs (by rw [hu, ← hcode]) hans
    hbusy unlimited
  exact ⟨_, polled, ⟨hr, ⟨_, rfl, rfl⟩, hacts, hev, hfree, rfl⟩, rfl, rfl, rfl, rfl⟩

end Sys2Proof.Safety

/-! Address framing (42_address_framing.md): the bytes of an address on the wire are its bytes in the order in which the
micro-sequence sends them. -/

namespace Sys2Proof.Safety

open Sys2Proof.Machine

/-- 42_address_framing.md R220: most significant byte first, bits 23:16 in `Wide` only. -/
theorem addressBytes_eq_map_byteOf (cfg : Config) (a : Addr) :
    addressBytes cfg a = (addressOrder cfg).map (byteOf a) := by
  cases hp : cfg.profile <;> simp [addressBytes, addressOrder, hp, byteOf]

/-- An address takes `NA` bytes on the wire (42_address_framing.md R220). -/
theorem addressBytes_length (cfg : Config) (a : Addr) : (addressBytes cfg a).length = cfg.na := by
  rw [addressBytes_eq_map_byteOf, List.length_map, addressOrder_length]

/-- Settles O27: `send_address` takes its bytes in the order of `addressOrder`, which fixes their number and their value. -/
theorem addressFraming : Obligations.AddressFraming := by
  intro s a ha
  refine ⟨?_, addressBytes_length s.cfg a, ?_⟩
  · rw [← source_address s a ha, List.map_map]
    exact List.map_map
  · rw [addressBytes_eq_map_byteOf, bytesToNat_address]

end Sys2Proof.Safety

/-! The write path (43_write_path.md): in opcode position the sequencer sends its own opcodes only, a write-class one only
after an await and an enable; and WRITE from ACCEPT to COMPLETE over a transport with no device model. -/

namespace Sys2Proof.Safety

open Sys2Proof.Machine

/-! ### What is sent in opcode position -/

/-- An `xfer` alone is recorded by a step of the running sequencer only: ACCEPT records no bus event, a reset at most a
`CSH` (10_state.md R40, R42, 70_reset_and_hazards.md R332). -/
theorem seqStep_of_xfer {s t : State} {o : Byte} {a : Answer} (h : step s = .next t)
    (htr : t.trace = s.trace ++ [.xfer o a]) :
    s.seq = .run ∧ ∃ l, seqStep (deviceTurn exec) (s.setActs l) = .next t := by
  cases block_cases h with
  | outside hb _ =>
    have same : t.trace = s.trace := by rw [hb]
    simp [same] at htr
  | accept hi w n d legal r i l _ ht =>
    obtain ⟨-, -, -, m, hm, hc⟩ := accept_frame w n d legal r (startOf s.cfg i) (s.setActs l) hi
    rw [← ht, htr, State.setActs_trace, List.append_cancel_left_eq] at hm
    subst hm
    cases hc
  | running hr l _ ht => exact ⟨hr, l, ht⟩
  | reset l _ ht =>
    obtain ⟨-, -, -, -, -, hm⟩ := applyReset_frame (s.setActs l)
    rw [← ht, htr, State.setActs_trace, List.append_cancel_left_eq] at hm
    split at hm <;> cases hm

/-- Of the actions of a sound sequencer only a bus event records an `xfer` alone, and what it sends in opcode position is
what `Known.maySend` admits (30_encoding.md R153, 43_write_path.md R237, R238). -/
theorem perform_opcode {k : Known} {s t : State} {u : Upc} {act : Action} {o : Byte} {a : Answer}
    (h : Known.Describes k s u) (hu : s.upc = some u) (hf : Follows k act)
    (hp : perform (deviceTurn exec) act s = .next t) (htr : t.trace = s.trace ++ [.xfer o a])
    (hfirst : (frameView s.trace).first = true) :
    sentOpcode o = true ∧
      (writeClass o = true → t.wphase = .writeEnabled ∧ ∃ v, t.srLast = some v ∧ v.getLsbD 0 = false) := by
  cases act with
  | complete =>
    cases hp
    simp [State.complete_trace] at htr
  | raise e =>
    cases hp
    rw [State.abort_trace, List.append_assoc, List.append_cancel_left_eq] at htr
    split at htr <;> cases htr
  | event b rest =>
    obtain ⟨t', w, k', hp', hspec, -⟩ := performEvent_sound k s u b rest h hu hf
    cases hp'.symm.trans hp
    obtain ⟨e, he, -, -, -, hstay, -, hopcode⟩ := hspec.event
    obtain rfl : e = .xfer o a := by simpa [he] using htr
    rw [h.view] at hfirst
    obtain ⟨hsent, hclass⟩ := hopcode o a rfl hfirst
    refine ⟨hsent, fun hw => ?_⟩
    obtain ⟨henabled, hsettled⟩ := hclass hw
    rw [hstay (by simp), hspec.srLast, h.wphase]
    exact ⟨henabled, h.settled hsettled⟩

/-- Settles O51: the byte is sent by the running sequencer, whose internal computation leaves the trace as it is, and
`perform_opcode` says what its action sends. -/
theorem writeClassOpcodesAreEnabledAndSettled : Obligations.WriteClassOpcodesAreEnabledAndSettled := by
  intro s t o a hs h htr hfirst
  obtain ⟨hr, l, ht⟩ := seqStep_of_xfer h htr
  obtain ⟨u, x, act, k, hu, -, hc, hd, hf, -, hp⟩ := seqStep_sound s l hs hr
  obtain ⟨hxu, -, -, hxt⟩ := calcOnly_setActs_keeps hc
  exact perform_opcode hd (hxu.trans hu) hf (hp ▸ ht) (hxt ▸ htr) (hxt ▸ hfirst)

/-! ### WRITE from ACCEPT to COMPLETE -/

/-- The byte an `xfer` offers depends on the configuration, the command latch and `VAL` only (30_encoding.md R144). -/
theorem source_congr {s t : State} (hc : t.cfg = s.cfg) (ha : t.addr = s.addr) (hw : t.wdata = s.wdata)
    (hv : t.val = s.val) : t.source = s.source := by
  funext o
  cases o <;> simp [State.source, hc, ha, hw, hv]

/-- What the write-class commands have in common, up to the `CSH` of their own frame: an await, the enable frame, the bytes
`os` in a frame (43_write_path.md R230, R231; 45_erase_protection.md R260, R261). -/
def enabledFrame (os : List Src) : List Micro :=
  awaitWriteComplete ++ enableWrite ++ [assertCs] ++ (os.map fun o => .bus (.send o)) ++ [deassertCs (some .writing)]

/-- The run of an enabled frame, the bytes sent being `vals` (41_status_timing.md R205, 43_write_path.md R231). -/
theorem runs_enabledFrame {s : State} {rest : List Micro} {l : Option Byte} {os : List Src} {vals got : List Byte}
    {e : Byte} {busy : List (Byte × Byte)} {last : Byte × Byte} {r : List Answer} (h : Free s) (hc : s.csN = true)
    (hu : s.upc = some { code := enabledFrame os ++ rest, s := l })
    (hs : os.map s.source = vals.map .ok) (hl : got.length = os.length)
    (ha : s.env.answers = (awaitAnswers busy last ++ [e] ++ got).map .byte ++ r) (he : awaitExits s.cfg busy last) :
    runs (awaitCount busy.length + 3 + (2 + os.length)) s =
      .next { moved s rest (some last.2) r
                (awaitEvents s.cfg busy last ++ frameEvents [0x06#8] [e] ++ frameEvents vals got) with
              srLast := some last.2, pollCnt := busy.length, wphase := .writing } := by
  have code : enabledFrame os ++ rest = awaitWriteComplete ++ (enableWrite
      ++ ([assertCs] ++ (os.map fun o => .bus (.send o)) ++ [deassertCs (some .writing)] ++ rest)) := by
    simp [enabledFrame]
  have awaited := runs_await (r := .byte e :: (got.map .byte ++ r)) h hc (code ▸ hu) (by simp [ha]) he
  rw [Nat.add_assoc, runs_append awaited]
  refine (runs_append (runs_enableAfterAwait (by exact ⟨h.running, h.noActs, h.noEvent, h.freeTransport⟩) rfl
    he.2.1 rfl)).trans ?_
  refine (runs_frame (vals := vals) (by exact ⟨h.running, h.noActs, h.noEvent, h.freeTransport⟩) rfl ?_ hl rfl).trans ?_
  · exact (congrArg (os.map ·) (source_congr (s := s) rfl rfl rfl rfl)).trans hs
  · simp [moved, hc]

/-- An await that is all there is left of a command, and the command's end (41_status_timing.md R205, 10_state.md R43). -/
theorem runs_closingAwait {s : State} {l : Option Byte} {busy : List (Byte × Byte)} {last : Byte × Byte}
    {r : List Answer} (h : Free s) (hc : s.csN = true) (hu : s.upc = some { code := awaitWriteComplete, s := l })
    (ha : s.env.answers = (awaitAnswers busy last).map .byte ++ r) (he : awaitExits s.cfg busy last) :
    runs (awaitCount busy.length + 1) s =
      .next { moved s [.compute .pollTest] (some last.2) r (awaitEvents s.cfg busy last) with
              srLast := some last.2, pollCnt := busy.length, wphase := .idle }.complete := by
  have awaited := runs_await (rest := []) h hc (by rw [hu, List.append_nil]) ha he
  exact (runs_append awaited).trans (runs_single (step_awaitEndComplete rfl he.2.1
    (by exact ⟨h.running, h.noActs, h.noEvent, h.freeTransport⟩)))

/-- A write-class command with its closing await, to its end (43_write_path.md R234; 45_erase_protection.md R260, R261). -/
theorem runs_awaitedFrame {s : State} {l : Option Byte} {os : List Src} {vals got : List Byte} {e : Byte}
    {b1 b2 : List (Byte × Byte)} {l1 l2 : Byte × Byte} {r : List Answer} (h : Free s) (hc : s.csN = true)
    (hu : s.upc = some { code := enabledFrame os ++ awaitWriteComplete, s := l })
    (hs : os.map s.source = vals.map .ok) (hl : got.length = os.length)
    (ha : s.env.answers = (awaitAnswers b1 l1 ++ [e] ++ got ++ awaitAnswers b2 l2).map .byte ++ r)
    (h1 : awaitExits s.cfg b1 l1) (h2 : awaitExits s.cfg b2 l2) :
    runs (awaitCount b1.length + 3 + (2 + os.length) + (awaitCount b2.length + 1)) s =
      .next { moved s [.compute .pollTest] (some l2.2) r
                (awaitEvents s.cfg b1 l1 ++ frameEvents [0x06#8] [e] ++ frameEvents vals got
                  ++ awaitEvents s.cfg b2 l2) with
              srLast := some l2.2, pollCnt := b2.length, wphase := .idle }.complete := by
  have framed := runs_enabledFrame (r := (awaitAnswers b2 l2).map .byte ++ r) h hc hu hs hl (by simpa using ha) h1
  refine (runs_append framed).trans ?_
  refine Eq.trans (runs_closingAwait (by exact ⟨h.running, h.noActs, h.noEvent, h.freeTransport⟩) hc rfl rfl h2) ?_
  simp [moved]

/-- The bytes of WRITE's own frame: opcode, address, data (43_write_path.md R231, R234). -/
def writeSources (cfg : Config) (len : Nat) : List Src :=
  .lit 0x02#8 :: ((addressOrder cfg).map .addrByte ++ (List.range len).map .wdata)

theorem writeSources_length (cfg : Config) (len : Nat) : (writeSources cfg len).length = 1 + cfg.na + len := by
  simp [writeSources, addressOrder_length]
  omega

theorem source_writeSources {s : State} {a : Addr} {data : List Byte} (ha : s.addr = some a) (hd : s.wdata = some data) :
    (writeSources s.cfg data.length).map s.source = ([0x02#8] ++ addressBytes s.cfg a ++ data).map .ok := by
  rw [writeSources, List.map_cons, List.map_append, source_address s a ha, source_wdata s data hd]
  simp [State.source]

/-- WRITE is an await, the enable frame, its own frame and an await (43_write_path.md R234). -/
theorem writeSeq_eq (cfg : Config) (len : Nat) :
    writeSeq cfg len = enabledFrame (writeSources cfg len) ++ awaitWriteComplete := by
  simp [enabledFrame, writeSeq, beginWrite, writeSources, sendLit, sendAddress, sendData,
    List.map_map, Function.comp_def]

/-- Settles O16: ACCEPT starts the micro-sequence, and `runs_awaitedFrame` takes it to the end. -/
theorem writeCompletes : Obligations.WriteCompletes := by
  intro s addr len data got e b1 b2 l1 l2 rest h exits1 exits2 hlen hdata hgot
  subst hdata
  have legal : (Instr.write addr data.length data).wellFormed s.cfg = true := by simp [Instr.wellFormed, hlen]
  obtain ⟨accepted, free⟩ := exec_ready h (decode_encode (.write addr data.length data)) legal
  rw [start_latch_hostWord] at accepted free
  have ends := runs_awaitedFrame free h.csHigh (congrArg (fun c => some (Upc.mk c none)) (writeSeq_eq s.cfg data.length))
    (source_writeSources rfl rfl) (hgot.trans (writeSources_length s.cfg data.length).symm) h.answers exits1 exits2
  have steps : awaitCount b1.length + 3 + (3 + s.cfg.na + data.length) + awaitCount b2.length + 1 =
      awaitCount b1.length + 3 + (2 + (writeSources s.cfg data.length).length) + (awaitCount b2.length + 1) := by
    rw [writeSources_length]; omega
  refine ⟨_, _, accepted, steps ▸ ends, ?_, ?_⟩
  · rfl
  · have high : s = { s with csN := true } := by rw [← h.csHigh]
    rw [high]
    rfl

end Sys2Proof.Safety

/-! The read path (44_read_path.md): READ and READ_ID from ACCEPT to COMPLETE over a transport with no device model. Both
are one frame that sends its bytes and then keeps what it receives. -/

namespace Sys2Proof.Safety

open Sys2Proof.Machine

/-- What READ and READ_ID have in common: the bytes `os` sent, then `n` bytes received, in one frame
(44_read_path.md R250, R252). -/
def readFrame (os : List Src) (n : Nat) : List Micro :=
  [assertCs] ++ (os.map fun o => .bus (.send o)) ++ receiveData n ++ [deassertCs none]

/-- The run of a read frame, the bytes sent being `vals` and those kept `got`. -/
theorem runs_readFrame {s : State} {l : Option Byte} {os : List Src} {vals head got : List Byte} {r : List Answer}
    (h : Free s) (hc : s.csN = true) (hu : s.upc = some { code := readFrame os got.length, s := l })
    (hs : os.map s.source = vals.map .ok) (hl : head.length = os.length)
    (hd : s.rdata = some (List.replicate got.length none)) (ha : s.env.answers = (head ++ got).map .byte ++ r) :
    runs (2 + os.length + got.length) s =
      .next { moved s [] l r (frameEvents (vals ++ List.replicate got.length s.cfg.filler) (head ++ got)) with
              rdata := some (got.map some) } := by
  have code : readFrame os got.length = .bus .csAssert :: ((os.map fun o => .bus (.send o))
      ++ ((List.range' 0 got.length).map (fun k => .bus (.recvData k)) ++ [deassertCs none])) := by
    simp [readFrame, receiveData, assertCs, List.range_eq_range']
  have lengths : vals.length = head.length := by simpa [hl] using (congrArg List.length hs).symm
  rw [show 2 + os.length + got.length = (os.length + (got.length + 1)) + 1 by omega,
    runs_cons (step_assert (code ▸ hu) h)]
  refine (runs_append (runs_sends _ l (got.map .byte ++ r) os vals head _
    (by exact ⟨h.running, h.noActs, h.noEvent, h.freeTransport⟩) ?_ hl rfl (by simp [moved, ha]))).trans ?_
  · exact (congrArg (os.map ·) (source_congr (s := s) rfl rfl rfl rfl)).trans hs
  refine (runs_append (runs_receives [deassertCs none] l r got [] _
    (by exact ⟨h.running, h.noActs, h.noEvent, h.freeTransport⟩) (by exact hd) rfl rfl)).trans ?_
  refine (runs_single (step_deassert rfl (by exact ⟨h.running, h.noActs, h.noEvent, h.freeTransport⟩))).trans ?_
  simp [moved, frameEvents, exchanges_append _ _ _ _ lengths, hc]

/-- A command that is one read frame, from ACCEPT to COMPLETE (10_state.md R42, R43): what it sends may depend on the
configuration and on `ADDR`. -/
theorem readFrame_completes {s : State} {i : Instr} {op : BitVec 5} {addr : Addr} {n : Nat} {d : List Byte}
    {os : List Src} {vals head got : List Byte} {r : List Answer} (h : Ready s (head ++ got) r)
    (hd : decodeHost (hostWord op addr) n d = .ok i) (hw : i.wellFormed s.cfg = true)
    (hcode : startOf s.cfg i = readFrame os got.length) (hrdata : rdataOf i = List.replicate got.length none)
    (hs : ∀ t : State, t.cfg = s.cfg → t.addr = some addr → os.map t.source = vals.map .ok)
    (hl : head.length = os.length) :
    ∃ t u, exec i s = .next t ∧ runs (2 + os.length + got.length + 1) t = .next u ∧
      u.trace = commandTrace s op addr n d
        (frameEvents (vals ++ List.replicate got.length s.cfg.filler) (head ++ got)) u ∧
      u = { ended s op addr n d r u with rdata := some (got.map some) } := by
  obtain ⟨accepted, free⟩ := exec_ready h hd hw
  rw [hcode, hrdata, start_latch_hostWord] at accepted free
  have framed := runs_readFrame free h.csHigh rfl (hs _ rfl rfl) hl rfl h.answers
  refine ⟨_, _, accepted, (runs_append framed).trans (runs_single (step_end rfl
    (by exact ⟨free.running, free.noActs, free.noEvent, free.freeTransport⟩))), rfl, ?_⟩
  have high : s = { s with csN := true } := by rw [← h.csHigh]
  rw [high]
  rfl

/-! ### READ -/

/-- The bytes READ sends before it receives: opcode and address (44_read_path.md R250). -/
def readSources (cfg : Config) : List Src := .lit 0x03#8 :: (addressOrder cfg).map .addrByte

theorem readSources_length (cfg : Config) : (readSources cfg).length = 1 + cfg.na := by
  simp [readSources, addressOrder_length, Nat.add_comm]

theorem source_readSources {s : State} {a : Addr} (ha : s.addr = some a) :
    (readSources s.cfg).map s.source = ([0x03#8] ++ addressBytes s.cfg a).map .ok := by
  rw [readSources, List.map_cons, source_address s a ha]
  rfl

theorem readSeq_eq (cfg : Config) (len : Nat) : readSeq cfg len = readFrame (readSources cfg) len := by
  simp [readSeq, readFrame, readSources, sendLit, sendAddress, Function.comp_def]

/-- Settles O13: READ is a read frame that keeps `LEN` bytes. -/
theorem readCompletes : Obligations.ReadCompletes := by
  intro s addr len data head got rest h hlen hhead hgot
  subst hgot
  have legal : (Instr.read addr got.length data).wellFormed s.cfg = true := by simp [Instr.wellFormed, hlen]
  have steps : 3 + s.cfg.na + got.length + 1 = 2 + (readSources s.cfg).length + got.length + 1 := by
    rw [readSources_length]; omega
  rw [steps]
  exact readFrame_completes h (decode_encode (.read addr got.length data)) legal (readSeq_eq s.cfg got.length) rfl
    (fun t hc ha => hc ▸ source_readSources ha) (hhead.trans (readSources_length s.cfg).symm)

/-! ### READ_ID -/

/-- Settles O14: READ_ID is a read frame that sends three dummies in either profile and keeps one byte. -/
theorem readIdCompletes : Obligations.ReadIdCompletes := by
  intro s addr len data a b c d v rest h
  exact readFrame_completes (os := [.lit 0xAB#8, .filler, .filler, .filler])
    (vals := [0xAB#8, s.cfg.filler, s.cfg.filler, s.cfg.filler]) (head := [a, b, c, d]) (got := [v]) h
    (decode_encode (.readId addr len data)) rfl rfl rfl (fun t hc _ => by rw [← hc]; rfl) rfl

end Sys2Proof.Safety

/-! Erase and protection (45_erase_protection.md): the sector address, the functions of the status byte, and the eight
commands from ACCEPT to COMPLETE over a transport with no device model. All eight are an enabled frame with its closing
await where `POLL_AFTER_ISSUE` asks for one; the protection commands read the status byte first. -/

namespace Sys2Proof.Safety

open Sys2Proof.Machine

/-! ### The sector address -/

/-- `AW` is at most the 24 bits of `ADDR` (00_scope.md R8). -/
theorem aw_le (cfg : Config) : cfg.aw ≤ 24 := by
  cases hp : cfg.profile <;> simp [Config.aw, hp]

/-- The bytes on the wire lie within `AW` bits (42_address_framing.md R220). -/
theorem lt_aw_of_mem_addressOrder {cfg : Config} {k : Nat} (h : k ∈ addressOrder cfg) : 8 * k + 7 < cfg.aw := by
  cases hp : cfg.profile <;> simp [addressOrder, Config.aw, hp] at h ⊢ <;> omega

/-- Addresses that agree modulo `2^AW` look the same on the wire (42_address_framing.md R221). -/
theorem addressBytes_congr {cfg : Config} {a b : Addr} (h : a.toNat % 2 ^ cfg.aw = b.toNat % 2 ^ cfg.aw) :
    addressBytes cfg a = addressBytes cfg b := by
  have bits : ∀ j < cfg.aw, a.getLsbD j = b.getLsbD j := fun j hj => by
    simpa [Nat.testBit_mod_two_pow, hj, BitVec.getLsbD] using congrArg (Nat.testBit · j) h
  rw [addressBytes_eq_map_byteOf, addressBytes_eq_map_byteOf]
  refine List.map_congr_left fun k hk => BitVec.eq_of_getLsbD_eq fun i hi => ?_
  have hlt := lt_aw_of_mem_addressOrder hk
  simp [byteOf, bits (8 * k + i) (by omega)]

/-- 45_erase_protection.md R262: the shift is a multiplication, and the 24 bits of `ADDR` lose nothing of the result. -/
theorem sectorAddress_toNat (cfg : Config) (n : Addr) :
    (sectorAddress cfg n).toNat = n.toNat * 2 ^ cfg.sectorShift % 2 ^ cfg.aw := by
  have fits : n.toNat * 2 ^ cfg.sectorShift % 2 ^ cfg.aw < 2 ^ 24 :=
    (Nat.mod_lt _ (Nat.two_pow_pos _)).trans_le (Nat.pow_le_pow_right two_pos (aw_le cfg))
  rw [sectorAddress, BitVec.toNat_ofNat, Nat.shiftLeft_eq, Nat.mod_eq_of_lt fits]

/-- Settles O26: a reduction to `AW` bits or more, the one to the 24 bits of `ADDR` among them, has no effect on the result
modulo `2^AW`, which is all the wire shows. -/
theorem sectorAddressWraps : Obligations.SectorAddressWraps := by
  intro cfg n
  refine ⟨sectorAddress_toNat cfg n, fun w hw => ?_, addressBytes_congr ?_⟩
  · rw [sectorAddress_toNat, Nat.mod_mod_of_dvd _ (pow_dvd_pow 2 hw)]
  · rw [sectorAddress_toNat, BitVec.toNat_ofNat, Nat.mod_mod, Nat.mod_mod_of_dvd _ (pow_dvd_pow 2 (aw_le cfg))]

/-! ### The functions of the status byte -/

/-- A level goes to bits 3:2, which the mask clears, and to no other bit (45_erase_protection.md R264 to R267). -/
theorem protect_getLsbD (bp : BitVec 2) (s : Byte) {k : Nat} (hk : k < 8) :
    ((StatusFn.protect bp).apply s).getLsbD k =
      if k = 2 then bp.getLsbD 0 else if k = 3 then bp.getLsbD 1 else s.getLsbD k := by
  interval_cases k <;> simp [StatusFn.apply]

/-- 45_erase_protection.md R268. -/
theorem setWpen_getLsbD (s : Byte) {k : Nat} (hk : k < 8) :
    (StatusFn.setWpen.apply s).getLsbD k = if k = 7 then true else s.getLsbD k := by
  interval_cases k <;> simp [StatusFn.apply]

/-- 45_erase_protection.md R269. -/
theorem clearWpen_getLsbD (s : Byte) {k : Nat} (hk : k < 8) :
    (StatusFn.clearWpen.apply s).getLsbD k = if k = 7 then false else s.getLsbD k := by
  interval_cases k <;> simp [StatusFn.apply]

/-- Settles O25: each function, bit by bit. -/
theorem statusFunctionsChangeOnlyTheirBits : Obligations.StatusFunctionsChangeOnlyTheirBits := fun bp s _ hk =>
  ⟨protect_getLsbD bp s hk, setWpen_getLsbD s hk, clearWpen_getLsbD s hk⟩

/-! ### A write-class frame whose closing await `POLL_AFTER_ISSUE` decides -/

theorem awaitIfPolling_on {cfg : Config} (h : cfg.pollAfterIssue = true) : awaitIfPolling cfg = awaitWriteComplete :=
  if_pos h

theorem awaitIfPolling_off {cfg : Config} (h : cfg.pollAfterIssue = false) : awaitIfPolling cfg = [] :=
  if_neg (Bool.eq_false_iff.mp h)

/-- A write-class command without its closing await, to its end (00_scope.md R13, 10_state.md R43). -/
theorem runs_unawaitedFrame {s : State} {l : Option Byte} {os : List Src} {vals got : List Byte} {e : Byte}
    {busy : List (Byte × Byte)} {last : Byte × Byte} {r : List Answer} (h : Free s) (hc : s.csN = true)
    (hu : s.upc = some { code := enabledFrame os, s := l })
    (hs : os.map s.source = vals.map .ok) (hl : got.length = os.length)
    (ha : s.env.answers = (awaitAnswers busy last ++ [e] ++ got).map .byte ++ r) (he : awaitExits s.cfg busy last) :
    runs (awaitCount busy.length + 3 + (2 + os.length) + 1) s =
      .next { moved s [] (some last.2) r
                (awaitEvents s.cfg busy last ++ frameEvents [0x06#8] [e] ++ frameEvents vals got) with
              srLast := some last.2, pollCnt := busy.length, wphase := .writing }.complete := by
  have framed := runs_enabledFrame (rest := []) h hc (by rw [hu, List.append_nil]) hs hl ha he
  exact (runs_append framed).trans (runs_single (step_end rfl
    (by exact ⟨h.running, h.noActs, h.noEvent, h.freeTransport⟩)))

/-- A command starts and ends with chip-select high, so `ended` leaves `CS_N` as it was. -/
theorem Ready.eq_csHigh {s : State} {l : List Byte} {r : List Answer} (h : Ready s l r) :
    s = { s with csN := true } := by
  rw [← h.csHigh]

/-! ### ERASE_CHIP and ERASE_SECTOR -/

/-- A command that is one enabled frame and its closing await, from ACCEPT to COMPLETE (45_erase_protection.md R260,
R261): what it sends may depend on the configuration and on `ADDR`. -/
theorem enabledFrame_completesPolling {s : State} {i : Instr} {op : BitVec 5} {addr : Addr} {n : Nat} {d : List Byte}
    {os : List Src} {vals got : List Byte} {e : Byte} {b1 b2 : List (Byte × Byte)} {l1 l2 : Byte × Byte}
    {r : List Answer} (h : Ready s (awaitAnswers b1 l1 ++ [e] ++ got ++ awaitAnswers b2 l2) r)
    (h1 : awaitExits s.cfg b1 l1) (h2 : awaitExits s.cfg b2 l2) (hp : s.cfg.pollAfterIssue = true)
    (hd : decodeHost (hostWord op addr) n d = .ok i) (hw : i.wellFormed s.cfg = true)
    (hcode : startOf s.cfg i = enabledFrame os ++ awaitIfPolling s.cfg) (hr : rdataOf i = [])
    (hs : ∀ t : State, t.cfg = s.cfg → t.addr = some addr → os.map t.source = vals.map .ok)
    (hl : got.length = os.length) :
    ∃ t u, exec i s = .next t ∧
      runs (awaitCount b1.length + 3 + (2 + os.length) + awaitCount b2.length + 1) t = .next u ∧
      u.trace = commandTrace s op addr n d
        (awaitEvents s.cfg b1 l1 ++ frameEvents [0x06#8] [e] ++ frameEvents vals got ++ awaitEvents s.cfg b2 l2) u ∧
      u = { ended s op addr n d r u with srLast := some l2.2, pollCnt := b2.length, wphase := .idle } := by
  obtain ⟨accepted, free⟩ := exec_ready h hd hw
  rw [hcode, awaitIfPolling_on hp, hr, start_latch_hostWord] at accepted free
  refine ⟨_, _, accepted, runs_awaitedFrame free h.csHigh rfl (hs _ rfl rfl) hl h.answers h1 h2, rfl, ?_⟩
  rw [h.eq_csHigh]
  rfl

/-- The same without `POLL_AFTER_ISSUE` (00_scope.md R13). -/
theorem enabledFrame_completesWithoutPolling {s : State} {i : Instr} {op : BitVec 5} {addr : Addr} {n : Nat}
    {d : List Byte} {os : List Src} {vals got : List Byte} {e : Byte} {b1 : List (Byte × Byte)} {l1 : Byte × Byte}
    {r : List Answer} (h : Ready s (awaitAnswers b1 l1 ++ [e] ++ got) r)
    (h1 : awaitExits s.cfg b1 l1) (hp : s.cfg.pollAfterIssue = false)
    (hd : decodeHost (hostWord op addr) n d = .ok i) (hw : i.wellFormed s.cfg = true)
    (hcode : startOf s.cfg i = enabledFrame os ++ awaitIfPolling s.cfg) (hr : rdataOf i = [])
    (hs : ∀ t : State, t.cfg = s.cfg → t.addr = some addr → os.map t.source = vals.map .ok)
    (hl : got.length = os.length) :
    ∃ t u, exec i s = .next t ∧ runs (awaitCount b1.length + 3 + (2 + os.length) + 1) t = .next u ∧
      u.trace = commandTrace s op addr n d
        (awaitEvents s.cfg b1 l1 ++ frameEvents [0x06#8] [e] ++ frameEvents vals got) u ∧
      u = { ended s op addr n d r u with srLast := some l1.2, pollCnt := b1.length, wphase := .writing } := by
  obtain ⟨accepted, free⟩ := exec_ready h hd hw
  rw [hcode, awaitIfPolling_off hp, List.append_nil, hr, start_latch_hostWord] at accepted free
  refine ⟨_, _, accepted, runs_unawaitedFrame free h.csHigh rfl (hs _ rfl rfl) hl h.answers h1, rfl, ?_⟩
  rw [h.eq_csHigh]
  rfl

theorem eraseChipSeq_eq (cfg : Config) :
    eraseChipSeq cfg = enabledFrame [.lit 0xC7#8] ++ awaitIfPolling cfg := by
  simp [eraseChipSeq, enabledFrame, sendLit]

/-- The bytes of ERASE_SECTOR's own frame: opcode and sector address (45_erase_protection.md R261). -/
def eraseSectorSources (cfg : Config) : List Src := .lit 0xD8#8 :: (addressOrder cfg).map .sectorByte

theorem eraseSectorSources_length (cfg : Config) : (eraseSectorSources cfg).length = 1 + cfg.na := by
  simp [eraseSectorSources, addressOrder_length, Nat.add_comm]

theorem source_eraseSectorSources {s : State} {a : Addr} (ha : s.addr = some a) :
    (eraseSectorSources s.cfg).map s.source = ([0xD8#8] ++ addressBytes s.cfg (sectorAddress s.cfg a)).map .ok := by
  rw [eraseSectorSources, List.map_cons, source_sectorAddress s a ha]
  rfl

theorem eraseSectorSeq_eq (cfg : Config) :
    eraseSectorSeq cfg = enabledFrame (eraseSectorSources cfg) ++ awaitIfPolling cfg := by
  simp [eraseSectorSeq, enabledFrame, eraseSectorSources, sendLit, sendSectorAddress, Function.comp_def]

/-- The bus events of ERASE_SECTOR's own frame. -/
theorem eraseSector_frameCount (cfg : Config) : 2 + (eraseSectorSources cfg).length = 3 + cfg.na := by
  rw [eraseSectorSources_length]; omega

/-- Settles O17: the opcode alone, and the opcode with the sector address. -/
theorem erasesCompletePolling : Obligations.ErasesCompletePolling := by
  intro s addr len data got e b1 b2 l1 l2 rest h h1 h2 hp
  refine ⟨fun hgot => ?_, fun hgot => ?_⟩
  · exact enabledFrame_completesPolling h h1 h2 hp (decode_encode (.eraseChip addr len data)) rfl
      (eraseChipSeq_eq s.cfg) rfl (fun _ _ _ => rfl) hgot
  · rw [← eraseSector_frameCount]
    exact enabledFrame_completesPolling h h1 h2 hp (decode_encode (.eraseSector addr len data)) rfl
      (eraseSectorSeq_eq s.cfg) rfl (fun t hc ha => hc ▸ source_eraseSectorSources ha)
      (hgot.trans (eraseSectorSources_length s.cfg).symm)

/-- Settles O18: the same frames, and `complete()` right after them. -/
theorem erasesCompleteWithoutPolling : Obligations.ErasesCompleteWithoutPolling := by
  intro s addr len data got e b1 l1 rest h h1 hp
  refine ⟨fun hgot => ?_, fun hgot => ?_⟩
  · exact enabledFrame_completesWithoutPolling h h1 hp (decode_encode (.eraseChip addr len data)) rfl
      (eraseChipSeq_eq s.cfg) rfl (fun _ _ _ => rfl) hgot
  · rw [← eraseSector_frameCount]
    exact enabledFrame_completesWithoutPolling h h1 hp (decode_encode (.eraseSector addr len data)) rfl
      (eraseSectorSeq_eq s.cfg) rfl (fun t hc ha => hc ▸ source_eraseSectorSources ha)
      (hgot.trans (eraseSectorSources_length s.cfg).symm)

/-! ### The protection commands -/

/-- The bytes of a status write: the opcode and `VAL` (43_write_path.md R236). -/
def statusWriteSources : List Src := [.lit 0x01#8, .val]

theorem writeStatusRegister_eq (cfg : Config) :
    writeStatusRegister cfg = enabledFrame statusWriteSources ++ awaitIfPolling cfg := by
  simp [writeStatusRegister, enabledFrame, statusWriteSources, sendLit]

theorem source_statusWriteSources {s : State} {b : Byte} (hv : s.val = some b) :
    statusWriteSources.map s.source = [0x01#8, b].map .ok := by
  simp [statusWriteSources, State.source, hv, valueOf]

/-- An enabled frame begins with its await. -/
theorem enabledFrame_eq (os : List Src) : enabledFrame os = awaitWriteComplete
    ++ (enableWrite ++ [assertCs] ++ (os.map fun o => .bus (.send o)) ++ [deassertCs (some .writing)]) := by
  simp [enabledFrame]

/-- A `status_rmw` up to its status write: the status byte `v` is read, and the step that takes the next bus event
computes `VAL` too (45_erase_protection.md R263, 10_state.md R40). -/
theorem runs_statusRmw {s : State} {l : Option Byte} {f : StatusFn} {x v : Byte} {r : List Answer} (h : Free s)
    (hc : s.csN = true) (hu : s.upc = some { code := statusRmw s.cfg f, s := l })
    (ha : s.env.answers = .byte x :: .byte v :: r) (n : Nat) :
    runs (4 + (n + 1)) s = runs (n + 1)
      { moved s (enabledFrame statusWriteSources ++ awaitIfPolling s.cfg) (some v) r (pollEvents s.cfg (x, v)) with
        srLast := some v, val := some (f.apply v) } := by
  have code : statusRmw s.cfg f = readStatus ++ (.compute (.computeVal f) :: writeStatusRegister s.cfg) := by
    simp [statusRmw]
  rw [← writeStatusRegister_eq, runs_append (runs_readStatus h hc (code ▸ hu) ha)]
  rw [writeStatusRegister_eq, enabledFrame_eq, List.append_assoc]
  exact runs_computeVal rfl (by exact ⟨h.running, h.noActs, h.noEvent, h.freeTransport⟩) n

/-- A `status_rmw` with its closing await, to its end (45_erase_protection.md R263, 43_write_path.md R236). -/
theorem runs_statusRmwPolling {s : State} {l : Option Byte} {f : StatusFn} {x v e c b : Byte}
    {b1 b2 : List (Byte × Byte)} {l1 l2 : Byte × Byte} {r : List Answer} (h : Free s) (hc : s.csN = true)
    (hu : s.upc = some { code := statusRmw s.cfg f, s := l })
    (ha : s.env.answers =
      ([x, v] ++ awaitAnswers b1 l1 ++ [e, c, b] ++ awaitAnswers b2 l2).map .byte ++ r)
    (h1 : awaitExits s.cfg b1 l1) (h2 : awaitExits s.cfg b2 l2) (hp : s.cfg.pollAfterIssue = true) :
    runs (4 + (awaitCount b1.length + 3 + 4 + awaitCount b2.length + 1)) s =
      .next { moved s [.compute .pollTest] (some l2.2) r
                (pollEvents s.cfg (x, v) ++ awaitEvents s.cfg b1 l1 ++ frameEvents [0x06#8] [e]
                  ++ frameEvents [0x01#8, f.apply v] [c, b] ++ awaitEvents s.cfg b2 l2) with
              srLast := some l2.2, val := some (f.apply v), pollCnt := b2.length, wphase := .idle }.complete := by
  refine (runs_statusRmw (x := x) (v := v)
    (r := (awaitAnswers b1 l1 ++ [e] ++ [c, b] ++ awaitAnswers b2 l2).map .byte ++ r) h hc hu (by simp [ha]) _).trans ?_
  rw [awaitIfPolling_on hp]
  refine Eq.trans (runs_awaitedFrame (os := statusWriteSources)
    (by exact ⟨h.running, h.noActs, h.noEvent, h.freeTransport⟩) (by exact hc) rfl (source_statusWriteSources rfl) rfl rfl
    h1 h2) ?_
  simp [moved]

/-- The same without `POLL_AFTER_ISSUE` (43_write_path.md R236). -/
theorem runs_statusRmwWithoutPolling {s : State} {l : Option Byte} {f : StatusFn} {x v e c b : Byte}
    {b1 : List (Byte × Byte)} {l1 : Byte × Byte} {r : List Answer} (h : Free s) (hc : s.csN = true)
    (hu : s.upc = some { code := statusRmw s.cfg f, s := l })
    (ha : s.env.answers = ([x, v] ++ awaitAnswers b1 l1 ++ [e, c, b]).map .byte ++ r)
    (h1 : awaitExits s.cfg b1 l1) (hp : s.cfg.pollAfterIssue = false) :
    runs (4 + (awaitCount b1.length + 3 + 4 + 1)) s =
      .next { moved s [] (some l1.2) r
                (pollEvents s.cfg (x, v) ++ awaitEvents s.cfg b1 l1 ++ frameEvents [0x06#8] [e]
                  ++ frameEvents [0x01#8, f.apply v] [c, b]) with
              srLast := some l1.2, val := some (f.apply v), pollCnt := b1.length, wphase := .writing }.complete := by
  refine (runs_statusRmw (x := x) (v := v) (r := (awaitAnswers b1 l1 ++ [e] ++ [c, b]).map .byte ++ r) h hc hu
    (by simp [ha]) _).trans ?_
  rw [awaitIfPolling_off hp, List.append_nil]
  refine Eq.trans (runs_unawaitedFrame (os := statusWriteSources)
    (by exact ⟨h.running, h.noActs, h.noEvent, h.freeTransport⟩) (by exact hc) rfl (source_statusWriteSources rfl) rfl rfl
    h1) ?_
  simp [moved]

/-- A command that is `status_rmw(f)`, from ACCEPT to COMPLETE (45_erase_protection.md R263). -/
theorem statusRmw_completesPolling {s : State} {i : Instr} {op : BitVec 5} {addr : Addr} {n : Nat} {d : List Byte}
    {f : StatusFn} {x v e c b : Byte} {b1 b2 : List (Byte × Byte)} {l1 l2 : Byte × Byte} {r : List Answer}
    (h : Ready s ([x, v] ++ awaitAnswers b1 l1 ++ [e, c, b] ++ awaitAnswers b2 l2) r)
    (h1 : awaitExits s.cfg b1 l1) (h2 : awaitExits s.cfg b2 l2) (hp : s.cfg.pollAfterIssue = true)
    (hd : decodeHost (hostWord op addr) n d = .ok i) (hw : i.wellFormed s.cfg = true)
    (hcode : startOf s.cfg i = statusRmw s.cfg f) (hr : rdataOf i = []) :
    ∃ t u, exec i s = .next t ∧
      runs (4 + awaitCount b1.length + 3 + 4 + awaitCount b2.length + 1) t = .next u ∧
      u.trace = commandTrace s op addr n d
        (pollEvents s.cfg (x, v) ++ awaitEvents s.cfg b1 l1 ++ frameEvents [0x06#8] [e]
          ++ frameEvents [0x01#8, f.apply v] [c, b] ++ awaitEvents s.cfg b2 l2) u ∧
      u = { ended s op addr n d r u with
            srLast := some l2.2, val := some (f.apply v), pollCnt := b2.length, wphase := .idle } := by
  obtain ⟨accepted, free⟩ := exec_ready h hd hw
  rw [hcode, hr, start_latch_hostWord] at accepted free
  have steps : 4 + awaitCount b1.length + 3 + 4 + awaitCount b2.length + 1 =
      4 + (awaitCount b1.length + 3 + 4 + awaitCount b2.length + 1) := by omega
  rw [steps]
  refine ⟨_, _, accepted, runs_statusRmwPolling free h.csHigh rfl h.answers h1 h2 hp, rfl, ?_⟩
  rw [h.eq_csHigh]
  rfl

/-- The same without `POLL_AFTER_ISSUE` (43_write_path.md R236). -/
theorem statusRmw_completesWithoutPolling {s : State} {i : Instr} {op : BitVec 5} {addr : Addr} {n : Nat}
    {d : List Byte} {f : StatusFn} {x v e c b : Byte} {b1 : List (Byte × Byte)} {l1 : Byte × Byte} {r : List Answer}
    (h : Ready s ([x, v] ++ awaitAnswers b1 l1 ++ [e, c, b]) r)
    (h1 : awaitExits s.cfg b1 l1) (hp : s.cfg.pollAfterIssue = false)
    (hd : decodeHost (hostWord op addr) n d = .ok i) (hw : i.wellFormed s.cfg = true)
    (hcode : startOf s.cfg i = statusRmw s.cfg f) (hr : rdataOf i = []) :
    ∃ t u, exec i s = .next t ∧ runs (4 + awaitCount b1.length + 3 + 4 + 1) t = .next u ∧
      u.trace = commandTrace s op addr n d
        (pollEvents s.cfg (x, v) ++ awaitEvents s.cfg b1 l1 ++ frameEvents [0x06#8] [e]
          ++ frameEvents [0x01#8, f.apply v] [c, b]) u ∧
      u = { ended s op addr n d r u with
            srLast := some l1.2, val := some (f.apply v), pollCnt := b1.length, wphase := .writing } := by
  obtain ⟨accepted, free⟩ := exec_ready h hd hw
  rw [hcode, hr, start_latch_hostWord] at accepted free
  have steps : 4 + awaitCount b1.length + 3 + 4 + 1 = 4 + (awaitCount b1.length + 3 + 4 + 1) := by omega
  rw [steps]
  refine ⟨_, _, accepted, runs_statusRmwWithoutPolling free h.csHigh rfl h.answers h1 hp, rfl, ?_⟩
  rw [h.eq_csHigh]
  rfl

/-- The six protection commands: the instruction, its `OP`, and the function it applies to the status byte
(45_erase_protection.md R264 to R269). -/
def protectionCommands (addr : Addr) (n : Nat) (d : List Byte) : List (Instr × BitVec 5 × StatusFn) :=
  [(.protectNone addr n d, 0x08#5, .protect 0#2),
   (.protectUpperQuarter addr n d, 0x09#5, .protect 1#2),
   (.protectUpperHalf addr n d, 0x0A#5, .protect 2#2),
   (.protectAll addr n d, 0x0B#5, .protect 3#2),
   (.hwProtectEnable addr n d, 0x0C#5, .setWpen),
   (.hwProtectDisable addr n d, 0x0D#5, .clearWpen)]

/-- Each of the six is a legal `status_rmw` of its function. -/
theorem protectionCommands_spec {cfg : Config} {addr : Addr} {n : Nat} {d : List Byte}
    {p : Instr × BitVec 5 × StatusFn} (h : p ∈ protectionCommands addr n d) :
    decodeHost (hostWord p.2.1 addr) n d = .ok p.1 ∧ p.1.wellFormed cfg = true ∧
      startOf cfg p.1 = statusRmw cfg p.2.2 ∧ rdataOf p.1 = [] := by
  simp only [protectionCommands, List.mem_cons, List.not_mem_nil, or_false] at h
  rcases h with rfl | rfl | rfl | rfl | rfl | rfl
  · exact ⟨decode_encode (.protectNone addr n d), rfl, rfl, rfl⟩
  · exact ⟨decode_encode (.protectUpperQuarter addr n d), rfl, rfl, rfl⟩
  · exact ⟨decode_encode (.protectUpperHalf addr n d), rfl, rfl, rfl⟩
  · exact ⟨decode_encode (.protectAll addr n d), rfl, rfl, rfl⟩
  · exact ⟨decode_encode (.hwProtectEnable addr n d), rfl, rfl, rfl⟩
  · exact ⟨decode_encode (.hwProtectDisable addr n d), rfl, rfl, rfl⟩

/-- The commands with the value each writes, as the rules give it (45_erase_protection.md R264 to R269). -/
theorem protectionValues_eq_map (addr : Addr) (n : Nat) (d : List Byte) (v : Byte) :
    [(Instr.protectNone addr n d, 0x08#5, (v &&& 0xF3#8) ||| 0x00#8),
     (Instr.protectUpperQuarter addr n d, 0x09#5, (v &&& 0xF3#8) ||| 0x04#8),
     (Instr.protectUpperHalf addr n d, 0x0A#5, (v &&& 0xF3#8) ||| 0x08#8),
     (Instr.protectAll addr n d, 0x0B#5, (v &&& 0xF3#8) ||| 0x0C#8),
     (Instr.hwProtectEnable addr n d, 0x0C#5, v ||| 0x80#8),
     (Instr.hwProtectDisable addr n d, 0x0D#5, v &&& 0x7F#8)] =
      (protectionCommands addr n d).map fun p => (p.1, p.2.1, p.2.2.apply v) := rfl

/-- Settles O19: each of the six is a `status_rmw` with its closing await. -/
theorem protectionCommandsCompletePolling : Obligations.ProtectionCommandsCompletePolling := by
  intro s addr len data x v e c d b1 b2 l1 l2 rest h h1 h2 hp p hmem
  rw [protectionValues_eq_map] at hmem
  obtain ⟨q, hq, rfl⟩ := List.mem_map.mp hmem
  obtain ⟨decoded, legal, code, noData⟩ := protectionCommands_spec hq
  exact statusRmw_completesPolling h h1 h2 hp decoded legal code noData

/-- Settles O20: the same six, and `complete()` right after the status write. -/
theorem protectionCommandsCompleteWithoutPolling : Obligations.ProtectionCommandsCompleteWithoutPolling := by
  intro s addr len data x v e c d b1 l1 rest h h1 hp p hmem
  rw [protectionValues_eq_map] at hmem
  obtain ⟨q, hq, rfl⟩ := List.mem_map.mp hmem
  obtain ⟨decoded, legal, code, noData⟩ := protectionCommands_spec hq
  exact statusRmw_completesWithoutPolling h h1 hp decoded legal code noData

end Sys2Proof.Safety

/-! Power management (46_power.md): DPD_ENTER and DPD_RELEASE from ACCEPT to COMPLETE over a transport with no device model.
Both are one frame of their opcode alone (frame F0 of 30_encoding.md R151), and what follows it. -/

namespace Sys2Proof.Safety

open Sys2Proof.Machine

/-- What the power commands have in common: the opcode alone in a frame whose `CSH` leaves `WPHASE` as it is
(46_power.md R280, R281). -/
def opcodeFrame (b : Byte) : List Micro := [assertCs, sendLit b, deassertCs none]

theorem dpdEnterSeq_eq : dpdEnterSeq = opcodeFrame 0xB9#8 ++ [] := rfl

theorem dpdReleaseSeq_eq : dpdReleaseSeq = opcodeFrame 0xAB#8 ++ [.bus (.wait .tRes)] := rfl

/-- The run of an opcode frame: nothing is kept of the byte received. -/
theorem runs_opcodeFrame {s : State} {rest : List Micro} {l : Option Byte} {b x : Byte} {r : List Answer} (h : Free s)
    (hc : s.csN = true) (hu : s.upc = some { code := opcodeFrame b ++ rest, s := l })
    (ha : s.env.answers = .byte x :: r) :
    runs 3 s = .next (moved s rest l r (frameEvents [b] [x])) := by
  refine (runs_frame (os := [.lit b]) (vals := [b]) (got := [x]) h hu rfl rfl ha).trans ?_
  simp [moved, hc]

/-- Going on to another point of the micro-sequence keeps the machine free: `moved` writes none of what `Free` speaks of. -/
theorem Free.moved {s : State} (h : Free s) {code : List Micro} {l : Option Byte} {ans : List Answer} {ev : List Event} :
    Free (moved s code l ans ev) :=
  ⟨h.running, h.noActs, h.noEvent, h.freeTransport⟩

/-- A micro-sequence that from any point runs to the end of its command in `n` steps with the bus events `ev`: nothing
but `complete()` writes a register, and no answer of the transport is taken. -/
def EndsQuietly (rest : List Micro) (n : Nat) (ev : List Event) (cfg : Config) : Prop :=
  ∀ s : State, Free s → s.cfg = cfg → ∀ l, s.upc = some { code := rest, s := l } →
    runs n s = .next (moved s [] l s.env.answers ev).complete

/-- Nothing is left but `complete()` (10_state.md R43). -/
theorem endsQuietly_nil (cfg : Config) : EndsQuietly [] 1 [] cfg := by
  intro s h _ l hu
  rw [runs_single (step_end hu h)]
  simp [moved, ← hu]

/-- A wait, then `complete()` (46_power.md R281). -/
theorem endsQuietly_wait (cfg : Config) (d : WaitKind) :
    EndsQuietly [.bus (.wait d)] 2 [.wait (Config.duration cfg d)] cfg := by
  rintro s h rfl l hu
  exact (runs_cons (step_wait hu h)).trans (runs_single (step_end rfl h.moved))

/-- A command of an opcode frame and what ends quietly after it, from ACCEPT to COMPLETE. -/
theorem opcodeFrame_completes {s : State} {i : Instr} {op : BitVec 5} {addr : Addr} {n k : Nat} {d : List Byte}
    {b x : Byte} {rest : List Micro} {ev : List Event} {r : List Answer} (h : Ready s [x] r)
    (hd : decodeHost (hostWord op addr) n d = .ok i) (hw : i.wellFormed s.cfg = true)
    (hcode : startOf s.cfg i = opcodeFrame b ++ rest) (hr : rdataOf i = []) (he : EndsQuietly rest k ev s.cfg) :
    ∃ t u, exec i s = .next t ∧ runs (3 + k) t = .next u ∧
      u.trace = commandTrace s op addr n d (frameEvents [b] [x] ++ ev) u ∧ u = ended s op addr n d r u := by
  obtain ⟨accepted, free⟩ := exec_ready h hd hw
  rw [hcode, hr, start_latch_hostWord] at accepted free
  have framed := runs_opcodeFrame (rest := rest) free h.csHigh rfl h.answers
  have ends := (runs_append framed).trans (he _ free.moved rfl _ rfl)
  refine ⟨_, _, accepted, ends, ?_, ?_⟩
  · simp [commandTrace, moved, State.complete_trace]
  · rw [h.eq_csHigh]
    rfl

/-- Settles O15: after its frame DPD_ENTER has nothing left, and DPD_RELEASE its wait. -/
theorem powerCommandsComplete : Obligations.PowerCommandsComplete := by
  intro s addr len data x rest h
  refine ⟨?_, ?_⟩
  · exact opcodeFrame_completes h (decode_encode (.dpdEnter addr len data)) rfl dpdEnterSeq_eq rfl
      (endsQuietly_nil s.cfg)
  · exact opcodeFrame_completes h (decode_encode (.dpdRelease addr len data)) rfl dpdReleaseSeq_eq rfl
      (endsQuietly_wait s.cfg .tRes)

end Sys2Proof.Safety

/-! Reset (70_reset_and_hazards.md R330, R332): the values it leaves, what it keeps of the device and records of an open
frame, and that the invariants hold after it. -/

namespace Sys2Proof.Safety

open Sys2Proof.Machine

/-! ### The values after reset -/

/-- Settles O29: `State.resetWith` gives each register the value R330 lists for it. -/
theorem resetValues : Obligations.ResetValues := by
  intro cfg
  and_intros <;> rfl

/-! ### Reset at any time -/

/-- A reset with no frame open: the device and the trace go on as they were (70_reset_and_hazards.md R332). -/
theorem applyReset_of_csHigh {s : State} (h : s.csN = true) :
    s.applyReset = { State.resetWith s.cfg with rdm := s.rdm, env := s.env, trace := s.trace } := by
  simp [State.applyReset, h]

/-- A reset inside a frame cuts it: its `CSH` is recorded, and the device has a frame's end to react to if it is attached
(70_reset_and_hazards.md R332, 20_memory.md R115). -/
theorem applyReset_of_frameOpen {s : State} (h : s.csN = false) :
    s.applyReset = { State.resetWith s.cfg with
      rdm := if s.cfg.rdmAttached then { s.rdm with event := some .frameEnd } else s.rdm,
      env := s.env, trace := s.trace ++ [.csh] } := by
  simp [State.applyReset, h, State.csDeassert_rdm]

/-- A device that owes nothing is unchanged by owing nothing. -/
theorem Rdm.clear_event_of_none {d : Rdm} (h : d.event = none) : { d with event := none } = d := by
  rw [← h]

/-- Settles O30: the step is the reset act's, and the two cases of the reset are those of `CS_N`. -/
theorem resetAbandonsTheCommand : Obligations.ResetAbandonsTheCommand := by
  intro s rest he ha
  refine ⟨_, step_eq_hostTurn he ha, ?_⟩
  have hclear := Rdm.clear_event_of_none he
  cases hc : s.csN with
  | true =>
    rw [applyReset_of_csHigh (s := s.setActs rest) hc]
    simp [hclear, State.setActs]
  | false =>
    rw [applyReset_of_frameOpen (s := s.setActs rest) hc]
    cases hr : s.cfg.rdmAttached <;> simp [hclear, hr, State.setActs]

/-! ### The invariants after reset -/

/-- The array of a device at power-on lists no address (20_memory.md R101). -/
theorem memorySound_resetWith (cfg : Config) : MemorySound (State.resetWith cfg) := ⟨rfl, rfl⟩

/-- No command runs and none has ended: `DONE`, `ERR` and `ERRCODE` are all 0 (70_reset_and_hazards.md R330). -/
theorem responseSound_resetWith (cfg : Config) : ResponseSound (State.resetWith cfg) where
  running h := by cases h
  code := iff_of_true rfl rfl
  ended h := by cases h

/-- A device at power-on owes no reaction and is in no write cycle (20_memory.md R101). -/
theorem deviceSound_resetWith (cfg : Config) : DeviceSound (State.resetWith cfg) where
  attached h := absurd rfl h
  noByte h := by cases h
  busy := rfl
  latched h := by cases h
  awake h := by cases h

/-- Settles O49: one lemma for each invariant, the sequencer's because it is idle with no frame open. -/
theorem resetIsSound : Obligations.ResetIsSound :=
  ⟨fun cfg => ⟨memorySound_resetWith cfg, responseSound_resetWith cfg, deviceSound_resetWith cfg, .of_idle rfl rfl⟩, rfl⟩

end Sys2Proof.Safety

/-! Test vectors (95_test_vectors.md 2.6, 2.9, E1): the words the host port rejects and why, and the words and the frame
the vectors name. -/

namespace Sys2Proof.Safety

open Sys2Proof.Machine

/-! ### Why the host port rejects a word -/

/-- `RSV` ≠ 0 is the reason whatever `OP` is (30_encoding.md R143, condition 1). -/
theorem decodeHost_of_reservedBits {w : CmdWord} (n : Nat) (d : List Byte) (h : rsvField w ≠ 0#3) :
    decodeHost w n d = .error (.reservedBits (rsvField w)) := if_pos h

/-- With `RSV` = 0 an `OP` that is not assigned is the reason (30_encoding.md R143, condition 2). -/
theorem decodeHost_of_reservedOp {w : CmdWord} (n : Nat) (d : List Byte) (hr : rsvField w = 0#3)
    (ho : opField w = 0x00#5 ∨ 0x12 ≤ (opField w).toNat) :
    decodeHost w n d = .error (.reservedOp (opField w)) := by
  unfold decodeHost
  rw [if_neg (not_not.2 hr)]
  split
  case h_18 => rfl
  all_goals next hop => simp [hop] at ho

/-! ### The words of the vectors -/

/-- Settles O5: a word or a frame that selects an instruction is the one the encoder writes for it (`decode_encode`), and
the two other words are rejected for their `RSV` and for their `OP`. -/
theorem wordsOfTheSpecDecode : Obligations.WordsOfTheSpecDecode := by
  refine ⟨?write, ?read, ?eraseSector, ?isWip, ?protectNone, ?reservedBits, ?reservedOp, ?sectorErase⟩
  case write => exact decode_encode (.write 0x001000#24 3 [0xAA#8, 0xBB#8, 0xCC#8])
  case read => exact decode_encode (.read 0x001000#24 3 [])
  case eraseSector => exact decode_encode (.eraseSector 511#24 0 [])
  case isWip => exact decode_encode (.isWip 0xFFFFFF#24 5 [1#8, 2#8])
  case protectNone => exact decode_encode (.protectNone 0x123456#24 0 [])
  case reservedBits => exact decodeHost_of_reservedBits 1 [0#8] (by decide)
  case reservedOp => exact decodeHost_of_reservedOp 0 [] (by decide) (by decide)
  case sectorErase => exact decode_encode (.wireSectorErase [0x00#8, 0x80#8, 0x00#8])

end Sys2Proof.Safety
